-- ==== Sys2Proof/Word.lean ====
section
/-! DEFINITION. The widths the block's values have: 32-bit registers and command words, 8-bit samples, 16-bit
accumulator elements (spec/00_scope.md R11, R22; spec/10_state.md R40). -/

namespace Sys2Proof

/-- A register or a command word (R40, R100). -/
abbrev Word := BitVec 32

/-- A sample of an image (R27: "unsigned 8-bit samples"). -/
abbrev U8 := BitVec 8

/-- An element of the accumulator type (R11: unsigned and 16 bits wide). -/
abbrev U16 := BitVec 16

end Sys2Proof
end

