-- ==== Sys2Proof/Syntax.lean ====
section
/-! DEFINITION. The five commands of command set 1.0 (spec/30_encoding.md R106, R111), one constructor for each row of
spec/opcode_table.json. -/

namespace Sys2Proof

/-- A decoded command. Its operands are integers, as R103 assembles them: a margin, two margins, or a radius. -/
inductive Instr where
  /-- `EXT1D margin` (R137). -/
  | ext1d (margin : Int)
  /-- `EXT2D hMargin, vMargin` (R138). -/
  | ext2d (hMargin vMargin : Int)
  /-- `FNAIVE radius` (R151). -/
  | fnaive (radius : Int)
  /-- `FSEP radius` (R171). -/
  | fsep (radius : Int)
  /-- `FVEC radius` (R201). -/
  | fvec (radius : Int)
  deriving DecidableEq, Repr

end Sys2Proof
end

