-- ==== Sys2Proof/WellFormed.lean ====
section
/-! DEFINITION. Which instruction terms an encoding stands for: operands in -128 to 127 (spec/30_encoding.md R103,
R111). A radius or margin outside its legal range is well formed all the same: it decodes, and the command's own
validation rejects it (R110). -/

namespace Sys2Proof

/-- The range of a signed 8-bit operand field (R103). -/
abbrev operandFits (v : Int) : Prop := -128 ≤ v ∧ v ≤ 127

/-- Every operand of the instruction fits its field. -/
abbrev Instr.WellFormed : Instr → Prop
  | .ext1d margin          => operandFits margin
  | .ext2d hMargin vMargin => operandFits hMargin ∧ operandFits vMargin
  | .fnaive radius         => operandFits radius
  | .fsep radius           => operandFits radius
  | .fvec radius           => operandFits radius

end Sys2Proof
end

