-- ==== Sys2Proof/Decode.lean ====
section
/-! DEFINITION. The decoder, total on 32-bit words (spec/30_encoding.md R107), and the encoder (R107, R101). -/

namespace Sys2Proof

/-- Why a word is illegal (R108): each reason is one clause of that rule. All of them raise `IllegalCommand` (R244). -/
inductive DecodeError where
  /-- `OP` is 0x0, 0x3 or 0x7 to 0xF. -/
  | reservedOpcode
  /-- Bits 7:4 are not 0 (either format). -/
  | nonzeroZ1
  /-- Bits 31:16 are not 0 (format F). -/
  | nonzeroZ2
  /-- Bits 31:24 are not 0 (format X). -/
  | nonzeroZ3
  deriving DecidableEq, Repr

/-- `OP = c[3:0]` (R102). -/
def fieldOp (c : Word) : BitVec 4 := c.extractLsb' 0 4

/-- `Z1 = c[7:4]` (R101). -/
def fieldZ1 (c : Word) : BitVec 4 := c.extractLsb' 4 4

/-- `A = c[15:8]` (R101). -/
def fieldA (c : Word) : BitVec 8 := c.extractLsb' 8 8

/-- `B = c[23:16]`, format X (R101). -/
def fieldB (c : Word) : BitVec 8 := c.extractLsb' 16 8

/-- `Z2 = c[31:16]`, format F (R101). -/
def fieldZ2 (c : Word) : BitVec 16 := c.extractLsb' 16 16

/-- `Z3 = c[31:24]`, format X (R101). -/
def fieldZ3 (c : Word) : BitVec 8 := c.extractLsb' 24 8

/-- `sext_8(v)`: the 8-bit field as a two's-complement integer in -128 to 127 (R22). -/
def sext8 (v : BitVec 8) : Int := v.toInt

/-- Format F: the must-be-zero fields are checked, then the one operand is assembled (R101, R107). -/
def decodeF (c : Word) (command : Int → Instr) : Except DecodeError Instr :=
  if fieldZ2 c ≠ 0 then .error .nonzeroZ2
  else if fieldZ1 c ≠ 0 then .error .nonzeroZ1
  else .ok (command (sext8 (fieldA c)))

/-- Format X: the must-be-zero fields are checked, then the two operands are assembled (R101, R107). -/
def decodeX (c : Word) (command : Int → Int → Instr) : Except DecodeError Instr :=
  if fieldZ3 c ≠ 0 then .error .nonzeroZ3
  else if fieldZ1 c ≠ 0 then .error .nonzeroZ1
  else .ok (command (sext8 (fieldA c)) (sext8 (fieldB c)))

/-- `decode(c)` of R107: `OP` selects the command and its format (R102, R106). -/
def decode (c : Word) : Except DecodeError Instr :=
  if fieldOp c = 0x1 then decodeF c .ext1d
  else if fieldOp c = 0x2 then decodeX c .ext2d
  else if fieldOp c = 0x4 then decodeF c .fnaive
  else if fieldOp c = 0x5 then decodeF c .fsep
  else if fieldOp c = 0x6 then decodeF c .fvec
  else .error .reservedOpcode

/-- The word of `nbits` bits whose number is `w`, as the opcode table numbers bits; a command is one 32-bit word, so
the bits above `nbits` are 0 (R100). -/
def tableWord (nbits w : Nat) : Word := BitVec.ofNat 32 (w % 2 ^ nbits)

/-- The instruction the decoder reads from an instruction of the opcode table. -/
def decodeTableWord (nbits w : Nat) : Option Instr :=
  match decode (tableWord nbits w) with
  | .ok i    => some i
  | .error _ => none

/-- The opcode of an instruction (R106). -/
def Instr.opcode : Instr → BitVec 4
  | .ext1d _   => 0x1
  | .ext2d _ _ => 0x2
  | .fnaive _  => 0x4
  | .fsep _    => 0x5
  | .fvec _    => 0x6

/-- A format F word: `Z2 = 0`, `A`, `Z1 = 0`, `OP` (R101). -/
def encodeF (op : BitVec 4) (a : Int) : Word := 0#16 ++ BitVec.ofInt 8 a ++ 0#4 ++ op

/-- A format X word: `Z3 = 0`, `B`, `A`, `Z1 = 0`, `OP` (R101). -/
def encodeX (op : BitVec 4) (a b : Int) : Word := 0#8 ++ BitVec.ofInt 8 b ++ BitVec.ofInt 8 a ++ 0#4 ++ op

/-- The word of an instruction (R107). -/
def encode : Instr → Word
  | .ext1d margin          => encodeF 0x1 margin
  | .ext2d hMargin vMargin => encodeX 0x2 hMargin vMargin
  | .fnaive radius         => encodeF 0x4 radius
  | .fsep radius           => encodeF 0x5 radius
  | .fvec radius           => encodeF 0x6 radius

end Sys2Proof
end

