-- ==== Sys2Proof/Config.lean ====
section
/-! DEFINITION. What is fixed for one instance of the block (spec/00_scope.md R10 to R15) and the one free value: the
content of an element that nothing has written (spec/93_implementation_defined.md U1, U2, U3, U8). -/

namespace Sys2Proof.Config

/-- `RMAX`, the largest radius (R10). -/
def RMAX : Nat := 7

/-- `MMAX`, the largest margin an extender command can carry (R14). -/
def MMAX : Nat := 127

/-- The parameters of one instance (R12, R13): `XW` and `YW` in 1 to 16, `LOG2G` in 0 to 8. The two widths are held
less one, so that every value of the type is an instance the spec describes (U12). DESIGN CHOICE, log entry 1. -/
structure Params where
  xwLess1 : Fin 16
  ywLess1 : Fin 16
  log2g   : Fin 9
  deriving DecidableEq, Repr

/-- The default instance: `XW = YW = 12`, `LOG2G = 4` (R12, R13). -/
def Params.default : Params := { xwLess1 := 11, ywLess1 := 11, log2g := 4 }

/-- `XW`, the width of a column index (R13). -/
def Params.xw (p : Params) : Nat := p.xwLess1.val + 1

/-- `YW`, the width of a row index (R13). -/
def Params.yw (p : Params) : Nat := p.ywLess1.val + 1

/-- `G = 2^LOG2G`, the number of lanes (R12). -/
def Params.lanes (p : Params) : Nat := 2 ^ p.log2g.val

/-- `MAXW = 2^XW - 1` (R13). -/
def Params.maxW (p : Params) : Nat := 2 ^ p.xw - 1

/-- `MAXH = 2^YW - 1` (R13). -/
def Params.maxH (p : Params) : Nat := 2 ^ p.yw - 1

/-- `XCOLS = MAXW + 2·RMAX` (R15). -/
def Params.xcols (p : Params) : Nat := p.maxW + 2 * RMAX

/-- `XROWS = MAXH + 2·RMAX` (R15). -/
def Params.xrows (p : Params) : Nat := p.maxH + 2 * RMAX

/-- `ECOLS = MAXW + 2·MMAX` (R15). -/
def Params.ecols (p : Params) : Nat := p.maxW + 2 * MMAX

/-- `EROWS = MAXH + 2·MMAX` (R15). -/
def Params.erows (p : Params) : Nat := p.maxH + 2 * MMAX

/-- The stores whose content reset leaves unspecified (R61). -/
inductive Space where
  | src | slen | dst | ext | elen | xgrid | ring | mid | acc
  deriving DecidableEq, Repr

/-- FREE VALUE (log entry 2): what the element at `addr` of a space holds when nothing has written it since the
`epoch`-th reset (R61, R287; U1, U2, U3, U8, U9). It has no body: no proof can learn a value of it, and it is the same
at every read until the next reset (U2, R77). -/
opaque unspecified (space : Space) (epoch addr : Nat) : Nat

end Sys2Proof.Config
end

