-- ==== Sys2Proof/Machine/State.lean ====
section
/-! DEFINITION. The state of one BFBE instance (spec/10_state.md R30, R40 to R58) together with the agents around it
(the host's script, the actions held by the port, whose turn it is), as plain data; the reasons a step can stop; and
the state after reset (R61). -/

namespace Sys2Proof.Machine

/-- What stops the machine with a fault: nothing. Every error of the block is a validation error that ends a command
and is reported in `STATUS`, a next state (R240, R250); the engine raises no bus error and no arithmetic error (R79,
R154, R156). Safe: no step ends in a fault. -/
inductive Fault : Type
  deriving DecidableEq, Repr

/-- What has no meaning in this model. -/
inductive Refusal where
  /-- Raised by an arm of `exec` whose instruction has no meaning yet; no arm raises it. Safe: it stops. -/
  | notModelled (mnemonic : String)
  /-- Raised by the port when it performs a host access to a memory space or table with an index outside the space:
  the spec does not define it (R78; U7 "refuse"). Never raised by the engine. Safe: it stops. -/
  | hostIndexOutOfRange
  deriving DecidableEq, Repr

/-- The error kinds (R241). -/
inductive ErrKind where
  | invalidInput | invalidRadius | emptyImage | raggedImage | illegalCommand
  deriving DecidableEq, Repr

/-- The sequencer's phases (R52). -/
inductive Phase where
  | idle | check | fill | row
  deriving DecidableEq, Repr

/-- `SEQ = (PHASE, Y)`, the sequencer position (R52). -/
structure Seq where
  phase : Phase
  y     : Nat
  deriving DecidableEq, Repr

/-- The latched operands of the running command (R53). The spec gives their ranges and no widths: they are numbers. -/
structure Latch where
  r       : Nat
  l       : Nat
  wt      : Nat
  w       : Nat
  h       : Nat
  hMargin : Nat
  vMargin : Nat
  deriving DecidableEq, Repr

/-- The six registers (R40). -/
inductive Reg where
  | cap | height | cmd | status | outW | outH
  deriving DecidableEq, Repr

/-- The memory spaces the host can name (R70). -/
inductive MemSpace where
  | src | dst | ext
  deriving DecidableEq, Repr

/-- The element width of a host-visible space (R47, R49, R50). -/
abbrev MemSpace.width : MemSpace → Nat
  | .src => 8
  | .dst => 8
  | .ext => 16

/-- The tables the host can name (R70). -/
inductive Table where
  | slen | elen
  deriving DecidableEq, Repr

/-- The host's actions (R24, R265). A space is written with a value of its element's width (log entry 16); a table
with a register-wide value, whose upper bits the table discards (R48). -/
inductive HostAction where
  | regRead  (reg : Reg)
  | regWrite (reg : Reg) (v : Word)
  | memRead  (space : MemSpace) (y x : Nat)
  | memWrite (space : MemSpace) (y x : Nat) (v : BitVec space.width)
  | tabRead  (table : Table) (y : Nat)
  | tabWrite (table : Table) (y : Nat) (v : Word)
  deriving DecidableEq, Repr

/-- What the outside world does next: a host action; a host that goes on only when the reads it made have returned (log
entry 9); or an assertion of the reset input (R280). -/
inductive Event where
  | act (a : HostAction)
  | await
  | reset
  deriving DecidableEq, Repr

/-- What a performed host read returned: the read, and the number it returned (R71). -/
structure Reply where
  action : HostAction
  value  : Nat
  deriving DecidableEq, Repr

/-- Whose turn it is (log entry 8): the outside world's, or the engine's, for one stage of its command or for all
that remains of it (R296: every division of a command into steps is allowed). -/
inductive Turn where
  | host | stage | command
  deriving DecidableEq, Repr

/-- A store of `w`-bit elements, as the list of the elements written since reset: (key, element) pairs, keys strictly
rising. An unlisted element holds no value the spec gives (R61); the operations that read it answer the free value
(log entry 2). A store of bytes is a list of `Host.Cell`. -/
abbrev Mem (w : Nat) := List (Nat × BitVec w)

/-- The state of one instance and of what surrounds it. -/
structure State where
  /-- The instance's parameters: the content of `CAP` (R41). No step changes them. -/
  params   : Config.Params
  /-- `HEIGHT` (R42). -/
  height   : Word
  /-- `CMD` (R43). -/
  cmd      : Word
  /-- `STATUS` (R44). -/
  status   : Word
  /-- `OUT_W` (R45). -/
  outW     : Word
  /-- `OUT_H` (R46). -/
  outH     : Word
  /-- `SRC` (R47). -/
  src      : Mem 8
  /-- `SLEN` (R48): entries of `XW ≤ 16` bits. -/
  slen     : Mem 16
  /-- `DST` (R49). -/
  dst      : Mem 8
  /-- `EXT` (R50). -/
  ext      : Mem 16
  /-- `ELEN` (R51). -/
  elen     : Mem 17
  /-- `SEQ` (R52). -/
  seq      : Seq
  /-- The latched operands (R53). -/
  latch    : Latch
  /-- `XGRID` (R54). -/
  xgrid    : Mem 16
  /-- `RING` (R55). -/
  ring     : Mem 16
  /-- `RSTART` (R56). -/
  rstart   : BitVec 4
  /-- `MID` (R57). -/
  mid      : Mem 16
  /-- `ACC` (R58). -/
  acc      : Mem 16
  /-- The host actions held by the port, oldest first (R84). -/
  held     : List HostAction
  /-- What the outside world is still to do, next first (the model's own, log entry 8). -/
  script   : List Event
  /-- What the host's reads returned, oldest first (the model's own, log entry 8). -/
  replies  : List Reply
  /-- Whose turn it is, next first (the model's own, log entry 8). -/
  schedule : List Turn
  /-- How many reset events there were: the counter of the free values (the model's own, log entry 4). -/
  epoch    : Nat
  deriving DecidableEq, Repr

/-- The latched operands after reset: unspecified and never observable (R61); zero by DESIGN CHOICE, log entry 3. -/
def Latch.reset : Latch := { r := 0, l := 0, wt := 0, w := 0, h := 0, hMargin := 0, vMargin := 0 }

/-- An instance with parameters `p` right after reset (R61, R280): the registers are 0, the engine is idle, nothing is
held, and no store has an element that was written. -/
def State.resetOf (p : Config.Params) : State :=
  { params := p, height := 0, cmd := 0, status := 0, outW := 0, outH := 0,
    src := [], slen := [], dst := [], ext := [], elen := [],
    seq := { phase := .idle, y := 0 }, latch := Latch.reset, xgrid := [], ring := [], rstart := 0, mid := [], acc := [],
    held := [], script := [], replies := [], schedule := [], epoch := 0 }

/-- The default instance (`XW = YW = 12`, `G = 16`) right after reset (R61; R12, R13 for the defaults). -/
def State.reset : State := State.resetOf Config.Params.default

end Sys2Proof.Machine
end

