-- ==== Sys2Proof/Machine/Flags.lean ====
section
/-! DEFINITION. The status register's fields and the values the life of a command gives them (spec/10_state.md R44;
spec/60_exceptions.md R241, R243, R249, R250, R252). The block has no arithmetic flags (R34). -/

namespace Sys2Proof.Machine

/-- `STATUS.BUSY`, bit 0 (R44). -/
def statusBusy (v : Word) : Bool := v.getLsbD 0

/-- `STATUS.DONE`, bit 1 (R44). -/
def statusDone (v : Word) : Bool := v.getLsbD 1

/-- `STATUS.ERR`, bit 2 (R44). -/
def statusErr (v : Word) : Bool := v.getLsbD 2

/-- `STATUS.ERRCODE`, bits 7:4 (R44). -/
def statusErrCode (v : Word) : BitVec 4 := v.extractLsb' 4 4

/-- The status word of given fields; the reserved bits read 0 (R44). -/
def statusWord (busy done err : Bool) (errCode : BitVec 4) : Word :=
  0#24 ++ errCode ++ 0#1 ++ BitVec.ofBool err ++ BitVec.ofBool done ++ BitVec.ofBool busy

/-- The code of an error kind (R241). -/
def errCode : ErrKind → BitVec 4
  | .invalidInput   => 1
  | .invalidRadius  => 2
  | .emptyImage     => 3
  | .raggedImage    => 4
  | .illegalCommand => 5

/-- Acceptance: `BUSY <- 1`, `DONE <- 0`, `ERR <- 0`, `ERRCODE <- 0` (R243). -/
def statusAccepted : Word := statusWord true false false 0

/-- The successful end: `BUSY <- 0`, `DONE <- 1`; `ERR` and `ERRCODE` stay (R249). -/
def statusEnded (v : Word) : Word := statusWord false true (statusErr v) (statusErrCode v)

/-- The error end: `BUSY <- 0`, `DONE <- 1`, `ERR <- 1`, `ERRCODE <- code(kind)` (R250). -/
def statusError (kind : ErrKind) : Word := statusWord false true true (errCode kind)

/-- `STATUS.BUSY` of a state. -/
def State.busy (s : State) : Bool := statusBusy s.status

/-- The word `CAP` reads as (R41). -/
def capWord (p : Config.Params) : Word :=
  0x10#8 ++ BitVec.ofNat 8 p.log2g.val ++ BitVec.ofNat 8 p.yw ++ BitVec.ofNat 8 p.xw

/-- What `HEIGHT` stores of a written word: the low `YW` bits (R42). -/
def heightStored (p : Config.Params) (v : Word) : Word := BitVec.ofNat 32 (v.toNat % 2 ^ p.yw)

end Sys2Proof.Machine
end

