-- ==== Sys2Proof/Machine/Ops.lean ====
section
/-! DEFINITION. The named operations over stores and registers: reading and writing a store's elements, and the life of
a command on the registers: acceptance (R243), the error end `raise Err` (R250) and the successful end (R249). -/

namespace Sys2Proof.Machine

/-- The element listed at a key, if one was written (log entry 2). -/
def Mem.read {w : Nat} : Mem w → Nat → Option (BitVec w)
  | [],          _ => none
  | (b, u) :: m, a => if b = a then some u else Mem.read m a

/-- Write one element; the keys stay strictly rising. -/
def Mem.write {w : Nat} : Mem w → Nat → BitVec w → Mem w
  | [],          a, v => [(a, v)]
  | (b, u) :: m, a, v =>
    if a < b then (a, v) :: (b, u) :: m
    else if a = b then (a, v) :: m
    else (b, u) :: Mem.write m a v

/-- Write consecutive elements from key `a` on, in rising order. -/
def Mem.writeRow {w : Nat} : Mem w → Nat → List (BitVec w) → Mem w
  | m, _, []      => m
  | m, a, v :: vs => Mem.writeRow (Mem.write m a v) (a + 1) vs

/-- The canonical form: keys strictly rising. An unlisted element has no value of its own, so no listed one equals it
(log entry 2). -/
abbrev Mem.wf {w : Nat} (m : Mem w) : Prop := m.Pairwise (fun a b => a.1 < b.1)

/-- The key distance between two rows of a store: more than any store has columns (log entry 5). -/
def rowPitch : Nat := 2 ^ 17

/-- The key of the element at row (or slot) `y`, column `x` (R71; log entry 5). -/
def key (y x : Nat) : Nat := y * rowPitch + x

/-- Acceptance of the command word `c`, one indivisible step (R243, R43). -/
def accept (c : Word) (s : State) : State :=
  { s with cmd := c, status := statusAccepted, seq := { phase := .check, y := 0 } }

/-- `raise Err(kind)`, the error end, one indivisible step (R250). Only `STATUS` and `SEQ` are written (R242, R254);
there is no handler and no return: the engine is idle and takes the next command (R255). -/
def raiseErr (kind : ErrKind) (s : State) : State :=
  { s with status := statusError kind, seq := { phase := .idle, y := 0 } }

/-- The successful end, one indivisible step (R249): the result registers, `BUSY <- 0`, `DONE <- 1`, `SEQ <- (IDLE, 0)`;
`ERR` and `ERRCODE` stay. -/
def endOk (w h : Word) (s : State) : State :=
  { s with outW := w, outH := h, status := statusEnded s.status, seq := { phase := .idle, y := 0 } }

end Sys2Proof.Machine
end

