-- ==== Sys2Proof/Machine/Operands.lean ====
section
/-! DEFINITION. The operands of the commands: how an element is addressed and read (spec/20_memory.md R89 to R91), the
widening and narrowing of R22, the accumulator's sum, the extended row, and the image a filter command validates
(spec/60_exceptions.md R245). -/

namespace Sys2Proof.Machine

/-- `clamp(i, lo, hi) = max(lo, min(i, hi))` (R23). -/
def clamp (i lo hi : Int) : Int := max lo (min i hi)

/-- The index form of replication, for rows (`srcrow`, R89) and for columns (R90): `clamp(i, 0, n - 1)`. -/
def clampIndex (i : Int) (n : Nat) : Nat := (clamp i 0 ((n : Int) - 1)).toNat

/-- `zext_16` (R22). -/
def zext16 (v : U8) : U16 := v.setWidth 16

/-- `narrow_8(v) = v[7:0]` (R22). -/
def narrow8 (v : U16) : U8 := v.setWidth 8

/-- An accumulator after the additions of a list of elements, from 0, in the list's order (R154, R155). -/
def sum16 (vs : List U16) : U16 := vs.foldl (· + ·) 0

/-- The element read at a key of a store: what was written there, or the free value (R287; log entry 2). -/
def readElem {w : Nat} (space : Config.Space) (s : State) (m : Mem w) (a : Nat) : BitVec w :=
  match m.read a with
  | some v => v
  | none   => BitVec.ofNat w (Config.unspecified space s.epoch a)

/-- `SRC[y][x]` (R47). -/
def srcAt (s : State) (y x : Nat) : U8 := readElem .src s s.src (key y x)

/-- `SLEN[y]`, an `XW`-bit number (R48); so is the value of an entry nothing has written (log entry 19). -/
def slenAt (s : State) (y : Nat) : Nat := (readElem .slen s s.slen y).toNat % 2 ^ s.params.xw

/-- `DST[y][x]` (R49). -/
def dstAt (s : State) (y x : Nat) : U8 := readElem .dst s s.dst (key y x)

/-- `EXT[y][x]` (R50). -/
def extAt (s : State) (y x : Nat) : U16 := readElem .ext s s.ext (key y x)

/-- `ELEN[y]`, a number 0 to `ECOLS` (R51): what was written, or a free value in that range (log entry 19). -/
def elenAt (s : State) (y : Nat) : Nat :=
  match s.elen.read y with
  | some v => v.toNat
  | none   => Config.unspecified .elen s.epoch y % (s.params.ecols + 1)

/-- `XGRID[y][x]` (R54). -/
def xgridAt (s : State) (y x : Nat) : U16 := readElem .xgrid s s.xgrid (key y x)

/-- `RING[slot][e]`, a physical slot (R55, R24). -/
def ringAt (s : State) (slot e : Nat) : U16 := readElem .ring s s.ring (key slot e)

/-- `MID[e]` (R57). -/
def midAt (s : State) (e : Nat) : U16 := readElem .mid s s.mid e

/-- `ACC[i]` (R58). -/
def accAt (s : State) (i : Nat) : U16 := readElem .acc s s.acc i

/-- The row of length `n`, source row `y`, widened and extended by `margin` on both sides, element by element (R90,
R75): `zext_16(SRC[y][clamp(e - margin, 0, n - 1)])` for `e` in `[0, n + 2·margin)`. With the radius as margin it is
`xrow(y)` of R171. -/
def extendedRow (s : State) (y margin n : Nat) : List U16 :=
  (List.range (n + 2 * margin)).map fun (e : Nat) => zext16 (srcAt s y (clampIndex ((e : Int) - margin) n))

/-- The physical slot of logical window position `j` (R91). -/
def slotOf (s : State) (j : Nat) : Nat := (s.rstart.toNat + j) % s.latch.l

/-- The validation the filter commands share, in the order of R245; on success the operands to latch (R53). -/
def validateFilter (radius : Int) (s : State) : Except ErrKind Latch :=
  if radius < 0 ∨ 7 < radius then .error .invalidRadius
  else if s.height.toNat = 0 ∨ slenAt s 0 = 0 then .error .emptyImage
  else if (List.range' 1 (s.height.toNat - 1)).any (fun y => slenAt s y != slenAt s 0) then .error .raggedImage
  else
    let r := radius.toNat
    .ok { s.latch with r := r, l := 2 * r + 1, wt := (2 * r + 1) * (2 * r + 1), w := slenAt s 0, h := s.height.toNat }

end Sys2Proof.Machine
end

