-- ==== Sys2Proof/Machine/Sequencer.lean ====
section
/-! DEFINITION. The sequencer: a command as its stages (spec/10_state.md R52; spec/42_separable_filter.md R184), run as
one step or stage by stage (spec/70_reset_and_hazards.md R296). -/

namespace Sys2Proof.Machine

/-- A loop over `[0, n)` in rising order (R23, R81). -/
def loop {σ : Type} (body : Nat → σ → σ) : Nat → σ → σ
  | 0,     s => s
  | n + 1, s => body n (loop body n s)

/-- A command as its stages: what validation answers, what the set-up loop and the row loop do, how often each runs
for the latched operands, and the two result registers (R52, R184). -/
structure CommandBody where
  /-- Validation in phase `CHECK`: the operands to latch, or the error (R245, R137, R138). -/
  check : State → Except ErrKind Latch
  /-- What the set-up loop does before its first iteration. -/
  start : State → State
  /-- The number of iterations of the set-up loop. -/
  fills : Latch → Nat
  /-- Iteration `k` of the set-up loop, phase `FILL`. -/
  fill  : Nat → State → State
  /-- The command has a row loop: a filter command. An extender command is its set-up loop alone (R52). -/
  hasRows : Bool
  /-- The number of iterations of the row loop. -/
  rows  : Latch → Nat
  /-- Iteration `y` of the row loop, phase `ROW`. -/
  row   : Nat → State → State
  /-- The values of `OUT_W` and `OUT_H` of the end step. -/
  dims  : State → Word × Word

/-- From `CHECK` to `FILL`: the operands are latched (R53) and the set-up loop starts. -/
def enter (b : CommandBody) (l : Latch) (s : State) : State :=
  b.start { s with latch := l, seq := { phase := .fill, y := 0 } }

/-- One iteration of the set-up loop; `Y` counts it (R52). -/
def fillStage (b : CommandBody) (k : Nat) (s : State) : State :=
  { b.fill k s with seq := { phase := .fill, y := k + 1 } }

/-- From the set-up loop to the row loop. -/
def toRows (s : State) : State := { s with seq := { phase := .row, y := 0 } }

/-- After the set-up loop: the row loop of a filter command begins; an extender command stays in `FILL` until its end
step (R52). -/
def leaveFills (b : CommandBody) (s : State) : State :=
  match b.hasRows with
  | true  => toRows s
  | false => s

/-- One iteration of the row loop; `Y` counts it (R52). -/
def rowStage (b : CommandBody) (y : Nat) (s : State) : State :=
  { b.row y s with seq := { phase := .row, y := y + 1 } }

/-- The end step of a command whose loops are done (R249). -/
def finish (b : CommandBody) (s : State) : State := endOk (b.dims s).1 (b.dims s).2 s

/-- The whole command from acceptance to its end: validation, then either the error end or the two loops and the
successful end (R296: the command as one step). -/
def runBody (b : CommandBody) (s : State) : State :=
  match b.check s with
  | .error kind => raiseErr kind s
  | .ok l => finish b (loop (rowStage b) (b.rows l) (leaveFills b (loop (fillStage b) (b.fills l) (enter b l s))))

/-- The stage after the last iteration of the set-up loop: the change of loops, or the end step of a command that has no
row loop (R52). -/
def afterFills (b : CommandBody) (s : State) : State :=
  match b.hasRows with
  | true  => toRows s
  | false => finish b s

/-- One stage of a command, wherever its sequencer stands (R296, R184): validation, one iteration of a loop, the change
of loops, or the end step. An idle sequencer does nothing. -/
def stageBody (b : CommandBody) (s : State) : State :=
  match s.seq.phase with
  | .idle => s
  | .check =>
    match b.check s with
    | .error kind => raiseErr kind s
    | .ok l => enter b l s
  | .fill => if s.seq.y < b.fills s.latch then fillStage b s.seq.y s else afterFills b s
  | .row => if s.seq.y < b.rows s.latch then rowStage b s.seq.y s else finish b s

/-- An upper bound on the stages that remain after `CHECK` from a sequencer position in phase `FILL` or `ROW` (R297). -/
def stagesLeft (b : CommandBody) (s : State) : Nat :=
  match s.seq.phase with
  | .idle => 0
  | .check => 0
  | .fill => (b.fills s.latch - s.seq.y) + 1 + b.rows s.latch + 1
  | .row => (b.rows s.latch - s.seq.y) + 1

/-- All that remains of a command whose loops have begun, as one step (R296). -/
def resumeBody (b : CommandBody) (s : State) : State := loop (fun _ => stageBody b) (stagesLeft b s) s

end Sys2Proof.Machine
end

