-- ==== Sys2Proof/Machine/BorderExtender.lean ====
section
/-! DEFINITION. The BorderExtender unit (spec/40_border_extender.md): the two functions `extend1D` and `extend2D` as the
source states them (R131, R134), and the commands `EXT1D` and `EXT2D` (R137, R138). -/

namespace Sys2Proof.Machine

/-- `extend1D(seq, margin)`: the first element repeated, the sequence, the last element repeated; `InvalidInput` for a
negative margin or an empty sequence (R131, R132). -/
def extend1D {α : Type} (seq : List α) (margin : Int) : Except ErrKind (List α) :=
  if margin < 0 then .error .invalidInput
  else
    match seq with
    | [] => .error .invalidInput
    | v :: vs =>
      .ok (List.replicate margin.toNat v ++ (v :: vs) ++ List.replicate margin.toNat ((v :: vs).getLast (by simp)))

/-- The rows of a grid, each extended by `hMargin`; the first that fails decides (R134). -/
def extendRows {α : Type} (hMargin : Int) : List (List α) → Except ErrKind (List (List α))
  | [] => .ok []
  | row :: rows =>
    match extend1D row hMargin, extendRows hMargin rows with
    | .ok out, .ok outs  => .ok (out :: outs)
    | .error kind, _     => .error kind
    | .ok _, .error kind => .error kind

/-- `extend2D(grid, hMargin, vMargin)`: every row extended, then the sequence of rows extended (R134). -/
def extend2D {α : Type} (grid : List (List α)) (hMargin vMargin : Int) : Except ErrKind (List (List α)) :=
  match extendRows hMargin grid with
  | .error kind => .error kind
  | .ok rows    => extend1D rows vMargin

/-- Validation of `EXT1D` (R137): `m < 0` or `SLEN[0] = 0`. The margin is latched (R53; log entry 14). -/
def ext1dCheck (margin : Int) (s : State) : Except ErrKind Latch :=
  if margin < 0 ∨ slenAt s 0 = 0 then .error .invalidInput
  else .ok { s.latch with hMargin := margin.toNat }

/-- The set-up loop of `EXT1D`, one iteration: row 0 of `EXT` and `ELEN[0]` (R137). -/
def ext1dFill (_ : Nat) (s : State) : State :=
  let n := slenAt s 0
  { s with ext := s.ext.writeRow (key 0 0) (extendedRow s 0 s.latch.hMargin n)
           elen := s.elen.write 0 (BitVec.ofNat 17 (n + 2 * s.latch.hMargin)) }

/-- `EXT1D margin` (R137). -/
def ext1dBody (margin : Int) : CommandBody where
  check := ext1dCheck margin
  start := id
  fills := fun _ => 1
  fill  := ext1dFill
  hasRows := false
  rows  := fun _ => 0
  row   := fun _ s => s
  dims  := fun s => (BitVec.ofNat 32 (elenAt s 0), 1)

/-- Validation of `EXT2D` (R138): no rows, a negative margin, or a row of length 0. The margins and `H` are latched
(R53). -/
def ext2dCheck (hMargin vMargin : Int) (s : State) : Except ErrKind Latch :=
  if s.height.toNat = 0 ∨ vMargin < 0 ∨ hMargin < 0 then .error .invalidInput
  else if (List.range s.height.toNat).any (fun y => slenAt s y == 0) then .error .invalidInput
  else .ok { s.latch with hMargin := hMargin.toNat, vMargin := vMargin.toNat, h := s.height.toNat }

/-- Iteration `j` of the set-up loop of `EXT2D`: row `j` of `EXT` and `ELEN[j]` (R138). -/
def ext2dFill (j : Nat) (s : State) : State :=
  let y := clampIndex ((j : Int) - s.latch.vMargin) s.latch.h
  let n := slenAt s y
  { s with ext := s.ext.writeRow (key j 0) (extendedRow s y s.latch.hMargin n)
           elen := s.elen.write j (BitVec.ofNat 17 (n + 2 * s.latch.hMargin)) }

/-- `EXT2D hMargin, vMargin` (R138). -/
def ext2dBody (hMargin vMargin : Int) : CommandBody where
  check := ext2dCheck hMargin vMargin
  start := id
  fills := fun l => l.h + 2 * l.vMargin
  fill  := ext2dFill
  hasRows := false
  rows  := fun _ => 0
  row   := fun _ s => s
  dims  := fun s => (BitVec.ofNat 32 (elenAt s 0), BitVec.ofNat 32 (s.latch.h + 2 * s.latch.vMargin))

/-- The meaning of `EXT1D` (R137). -/
def execExt1d (margin : Int) (s : State) : Host.Outcome State Fault Refusal := .next (runBody (ext1dBody margin) s)

/-- The meaning of `EXT2D` (R138). -/
def execExt2d (hMargin vMargin : Int) (s : State) : Host.Outcome State Fault Refusal :=
  .next (runBody (ext2dBody hMargin vMargin) s)

end Sys2Proof.Machine
end

