-- ==== Sys2Proof/Machine/NaiveBoxFilter.lean ====
section
/-! DEFINITION. The NaiveBoxFilter unit (spec/41_naive_filter.md): the reference function `box` (R150) and the command
`FNAIVE` (R151). -/

namespace Sys2Proof.Machine

/-- `S(x, y)` of R150 in exact integers, for an image given by its samples, of width `w` and height `h`: the sum of the
`L × L` samples around `(x, y)`, the image's edges replicated. -/
def boxSum (image : Nat → Nat → Nat) (w h r y x : Nat) : Nat :=
  ((List.range (2 * r + 1)).map fun (dy : Nat) =>
    ((List.range (2 * r + 1)).map fun (dx : Nat) =>
      image (clampIndex ((y : Int) + dy - r) h) (clampIndex ((x : Int) + dx - r) w)).sum).sum

/-- `box(x, y) = S(x, y) div (L * L)` of R150. -/
def boxAt (image : Nat → Nat → Nat) (w h r y x : Nat) : Nat :=
  boxSum image w h r y x / ((2 * r + 1) * (2 * r + 1))

/-- The samples of the source image, as numbers (R47, R105). -/
def imageOf (s : State) (y x : Nat) : Nat := (srcAt s y x).toNat

/-- Iteration `j` of the set-up loop of `FNAIVE`: row `j` of the extended image, into `XGRID` (R151, R152). -/
def naiveFill (j : Nat) (s : State) : State :=
  let y := clampIndex ((j : Int) - s.latch.r) s.latch.h
  { s with xgrid := s.xgrid.writeRow (key j 0) (extendedRow s y s.latch.r s.latch.w) }

/-- The `L × L` elements of `XGRID` whose top-left corner is `(x, y)`, rows outer, columns inner (R151, R155). -/
def naiveTaps (s : State) (y x : Nat) : List U16 :=
  (List.range s.latch.l).flatMap fun dy => (List.range s.latch.l).map fun (dx : Nat) => xgridAt s (y + dy) (x + dx)

/-- Division of an accumulator by the weight, narrowed to a sample (R156, R208). -/
def meanOf (s : State) (sum : U16) : U8 := narrow8 (sum / BitVec.ofNat 16 s.latch.wt)

/-- Iteration `y` of the row loop of `FNAIVE`: output row `y`, into `DST` (R151). -/
def naiveRow (y : Nat) (s : State) : State :=
  { s with dst := s.dst.writeRow (key y 0) ((List.range s.latch.w).map fun x => meanOf s (sum16 (naiveTaps s y x))) }

/-- The values of `OUT_W` and `OUT_H` after a filter command: the image's dimensions (R151, R45, R46). -/
def filterDims (s : State) : Word × Word := (BitVec.ofNat 32 s.latch.w, BitVec.ofNat 32 s.latch.h)

/-- `FNAIVE radius` (R151). -/
def naiveBody (radius : Int) : CommandBody where
  check := validateFilter radius
  start := id
  fills := fun l => l.h + 2 * l.r
  fill  := naiveFill
  hasRows := true
  rows  := fun l => l.h
  row   := naiveRow
  dims  := filterDims

/-- The meaning of `FNAIVE` (R151). -/
def execFnaive (radius : Int) (s : State) : Host.Outcome State Fault Refusal := .next (runBody (naiveBody radius) s)

end Sys2Proof.Machine
end

