-- ==== Sys2Proof/Machine/SeparableBoxFilter.lean ====
section
/-! DEFINITION. The SeparableBoxFilter unit (spec/42_separable_filter.md): the ring of extended rows (R172 to R174, R180)
and the command `FSEP` (R171). -/

namespace Sys2Proof.Machine

/-- `RSTART <- 0` before the set-up loop (R56, R171). -/
def ringStart (s : State) : State := { s with rstart := 0 }

/-- Step 1, iteration `k`: slot `k` is filled with the row for source index `clamp(k - R, 0, H - 1)` (R172). -/
def ringFill (k : Nat) (s : State) : State :=
  let y := clampIndex ((k : Int) - s.latch.r) s.latch.h
  { s with ring := s.ring.writeRow (key k 0) (extendedRow s y s.latch.r s.latch.w) }

/-- Step (a): the newest row, for source index `clamp(y + R, 0, H - 1)`, at logical position `L - 1` (R173). -/
def ringAppend (y : Nat) (s : State) : State :=
  let ys := clampIndex ((y : Int) + s.latch.r) s.latch.h
  { s with ring := s.ring.writeRow (key (slotOf s (s.latch.l - 1)) 0) (extendedRow s ys s.latch.r s.latch.w) }

/-- The elements at column `e` of the slots in use, oldest row first (R176). -/
def columnTaps (s : State) (e : Nat) : List U16 := (List.range s.latch.l).map fun j => ringAt s (slotOf s j) e

/-- Step (b), the vertical pass: `MID[e]` for `e` in `[0, W + 2R)` (R176). -/
def verticalPass (s : State) : State :=
  { s with mid := s.mid.writeRow 0 ((List.range (s.latch.w + 2 * s.latch.r)).map fun e => sum16 (columnTaps s e)) }

/-- The `L` consecutive elements of `MID` from `x` on (R177). -/
def rowTaps (s : State) (x : Nat) : List U16 := (List.range s.latch.l).map fun j => midAt s (x + j)

/-- Step (c), the horizontal pass: row `y` of `DST` (R177). -/
def horizontalPass (y : Nat) (s : State) : State :=
  { s with dst := s.dst.writeRow (key y 0) ((List.range s.latch.w).map fun x => meanOf s (sum16 (rowTaps s x))) }

/-- Step (d), rotate: `RSTART <- (RSTART + 1) mod L` (R180). -/
def ringRotate (s : State) : State := { s with rstart := BitVec.ofNat 4 ((s.rstart.toNat + 1) % s.latch.l) }

/-- Iteration `y` of the row loop of `FSEP`: steps (a) to (d) (R171, R175). -/
def sepRow (y : Nat) (s : State) : State := ringRotate (horizontalPass y (verticalPass (ringAppend y s)))

/-- `FSEP radius` (R171). -/
def sepBody (radius : Int) : CommandBody where
  check := validateFilter radius
  start := ringStart
  fills := fun l => l.l - 1
  fill  := ringFill
  hasRows := true
  rows  := fun l => l.h
  row   := sepRow
  dims  := filterDims

/-- The meaning of `FSEP` (R171). -/
def execFsep (radius : Int) (s : State) : Host.Outcome State Fault Refusal := .next (runBody (sepBody radius) s)

end Sys2Proof.Machine
end

