-- ==== Sys2Proof/Machine/VectorizedBoxFilter.lean ====
section
/-! DEFINITION. The VectorizedSeparableBoxFilter unit (spec/43_vectorized_filter.md): groups of columns (R203), lane
operations (R206 to R208) and the command `FVEC` (R201). -/

namespace Sys2Proof.Machine

/-- A group: its offset and its number of active lanes (R203). -/
abbrev Group := Nat × Nat

/-- `groups(n)` for `g` lanes (R203): one masked group when `n < g` (R205), else the aligned groups and, when `n` is not
a multiple of `g`, the group anchored at the last `g` columns (R204). -/
def groups (g n : Nat) : List Group :=
  if n < g then [(0, n)]
  else
    ((List.range (n / g)).map fun i => (i * g, g)) ++ (if n % g = 0 then [] else [(n - g, g)])

/-- One operation on the active lanes `[0, a)`: lane `i` takes the value `f i`, the inactive lanes keep theirs (R200,
R205). -/
def lanesSet (a : Nat) (f : Nat → U16) (s : State) : State :=
  { s with acc := s.acc.writeRow 0 ((List.range a).map f) }

/-- `ACC[i] <- 0` in the active lanes (R201). -/
def lanesClear (a : Nat) (s : State) : State := lanesSet a (fun _ => 0) s

/-- Tap `j` of a vertical group: every active lane adds its column's element of window row `j` (R201, R206). -/
def verticalTap (grp : Group) (j : Nat) (s : State) : State :=
  lanesSet grp.2 (fun i => accAt s i + ringAt s (slotOf s j) (grp.1 + i)) s

/-- One vertical group step (R206). -/
def verticalGroup (grp : Group) (s : State) : State :=
  let t := loop (verticalTap grp) s.latch.l (lanesClear grp.2 s)
  { t with mid := t.mid.writeRow grp.1 ((List.range grp.2).map (accAt t)) }

/-- Tap `j` of a horizontal group: every active lane adds the element of `MID` `j` places on (R201, R207). -/
def horizontalTap (grp : Group) (j : Nat) (s : State) : State :=
  lanesSet grp.2 (fun i => accAt s i + midAt s (grp.1 + i + j)) s

/-- Division of every active lane by the broadcast weight (R208). -/
def lanesDivide (a : Nat) (s : State) : State :=
  lanesSet a (fun i => accAt s i / BitVec.ofNat 16 s.latch.wt) s

/-- One horizontal group step of output row `y` (R207, R208). -/
def horizontalGroup (y : Nat) (grp : Group) (s : State) : State :=
  let t := lanesDivide grp.2 (loop (horizontalTap grp) s.latch.l (lanesClear grp.2 s))
  { t with dst := t.dst.writeRow (key y grp.1) ((List.range grp.2).map fun i => narrow8 (accAt t i)) }

/-- The vertical pass over `W + 2R` columns, group by group (R201 step (b)). -/
def verticalGroups (s : State) : State :=
  (groups s.params.lanes (s.latch.w + 2 * s.latch.r)).foldl (fun t grp => verticalGroup grp t) s

/-- The horizontal pass over `W` columns, group by group (R201 step (c)). -/
def horizontalGroups (y : Nat) (s : State) : State :=
  (groups s.params.lanes s.latch.w).foldl (fun t grp => horizontalGroup y grp t) s

/-- Iteration `y` of the row loop of `FVEC`: steps (a) to (d), the passes grouped (R201, R212, R214). -/
def vecRow (y : Nat) (s : State) : State := ringRotate (horizontalGroups y (verticalGroups (ringAppend y s)))

/-- `FVEC radius` (R201). -/
def vecBody (radius : Int) : CommandBody where
  check := validateFilter radius
  start := ringStart
  fills := fun l => l.l - 1
  fill  := ringFill
  hasRows := true
  rows  := fun l => l.h
  row   := vecRow
  dims  := filterDims

/-- The meaning of `FVEC` (R201). -/
def execFvec (radius : Int) (s : State) : Host.Outcome State Fault Refusal := .next (runBody (vecBody radius) s)

end Sys2Proof.Machine
end

