-- ==== Sys2Proof/Machine/Dispatch.lean ====
section
/-! DEFINITION. The meaning of every instruction, one arm per constructor of `Instr`: the whole command, from its
acceptance to its end, as one step (R296). -/

namespace Sys2Proof.Machine

def exec (i : Instr) (s : State) : Host.Outcome State Fault Refusal :=
  match i with
  | .ext1d margin => Sys2Proof.Machine.execExt1d margin s
  | .ext2d hMargin vMargin => Sys2Proof.Machine.execExt2d hMargin vMargin s
  | .fnaive radius => Sys2Proof.Machine.execFnaive radius s
  | .fsep radius => Sys2Proof.Machine.execFsep radius s
  | .fvec radius => Sys2Proof.Machine.execFvec radius s

end Sys2Proof.Machine
end

