-- ==== Sys2Proof/Machine/Engine.lean ====
section
/-! DEFINITION. The engine (spec/00_scope.md R21): it decodes the word in `CMD` and runs the command, whole or stage by
stage (spec/70_reset_and_hazards.md R296; spec/60_exceptions.md R243, R244). -/

namespace Sys2Proof.Machine

/-- The stages of an instruction: those its meaning runs. -/
def bodyOf : Instr → CommandBody
  | .ext1d margin          => ext1dBody margin
  | .ext2d hMargin vMargin => ext2dBody hMargin vMargin
  | .fnaive radius         => naiveBody radius
  | .fsep radius           => sepBody radius
  | .fvec radius           => vecBody radius

/-- The engine has a command in progress (R52). -/
def engineReady (s : State) : Bool := s.seq.phase ≠ .idle

/-- All that remains of the command in `CMD`, as one step. An accepted command (phase `CHECK`) is the meaning of its
instruction; an illegal word ends with `IllegalCommand` before any other check (R244). -/
def engineCommand (s : State) : Host.Outcome State Fault Refusal :=
  match decode s.cmd with
  | .error _ => .next (raiseErr .illegalCommand s)
  | .ok i =>
    match s.seq.phase with
    | .idle  => .next s
    | .check => exec i s
    | .fill  => .next (resumeBody (bodyOf i) s)
    | .row   => .next (resumeBody (bodyOf i) s)

/-- One stage of the command in `CMD` (R184, R218, R296). -/
def engineStage (s : State) : State :=
  match s.seq.phase with
  | .idle => s
  | _ =>
    match decode s.cmd with
    | .error _ => raiseErr .illegalCommand s
    | .ok i    => stageBody (bodyOf i) s

end Sys2Proof.Machine
end

