-- ==== Sys2Proof/Machine/Port.lean ====
section
/-! DEFINITION. The host's side of the block: the register map (spec/10_state.md R40), what each host action does when it
is performed (spec/20_memory.md R70, R77), the hold rule (R84), and the reset input (spec/70_reset_and_hazards.md R280,
R281). -/

namespace Sys2Proof.Machine

/-- The byte offset of a register from `REG_BASE` (R40). -/
def Reg.offset : Reg → Nat
  | .cap    => 0x00
  | .height => 0x04
  | .cmd    => 0x08
  | .status => 0x0C
  | .outW   => 0x10
  | .outH   => 0x14

/-- What a host read of a register returns (R41 to R46). -/
def regValue (s : State) : Reg → Word
  | .cap    => capWord s.params
  | .height => s.height
  | .cmd    => s.cmd
  | .status => s.status
  | .outW   => s.outW
  | .outH   => s.outH

/-- A host write of a register while the engine is idle: `HEIGHT` keeps its low `YW` bits (R42), `CMD` issues the command
(R43, R243), a read-only register is not changed (R40). -/
def regWrite (reg : Reg) (v : Word) (s : State) : State :=
  match reg with
  | .height => { s with height := heightStored s.params v }
  | .cmd    => accept v s
  | .cap    => s
  | .status => s
  | .outW   => s
  | .outH   => s

/-- The index range of a host-visible space (R47, R49, R50). -/
def inSpace (p : Config.Params) (space : MemSpace) (y x : Nat) : Bool :=
  match space with
  | .src => y < 2 ^ p.yw && x < 2 ^ p.xw
  | .dst => y < 2 ^ p.yw && x < 2 ^ p.xw
  | .ext => y < p.erows && x < p.ecols

/-- The index range of a table (R48, R51). -/
def inTable (p : Config.Params) (table : Table) (y : Nat) : Bool :=
  match table with
  | .slen => y < 2 ^ p.yw
  | .elen => y < p.erows

/-- What a host read of a space returns, as a number (R71). -/
def memValue (s : State) (space : MemSpace) (y x : Nat) : Nat :=
  match space with
  | .src => (srcAt s y x).toNat
  | .dst => (dstAt s y x).toNat
  | .ext => (extAt s y x).toNat

/-- What a host read of a table returns. -/
def tabValue (s : State) (table : Table) (y : Nat) : Nat :=
  match table with
  | .slen => slenAt s y
  | .elen => elenAt s y

/-- A host write of a space: `SRC` takes the element; a write of `DST` or `EXT` has no effect (R70). -/
def memWrite (space : MemSpace) (y x : Nat) (v : BitVec space.width) (s : State) : State :=
  match space, v with
  | .src, v => { s with src := s.src.write (key y x) v }
  | .dst, _ => s
  | .ext, _ => s

/-- A host write of a table: `SLEN` keeps the low `XW` bits (R48); a write of `ELEN` has no effect (R70). -/
def tabWrite (table : Table) (y : Nat) (v : Word) (s : State) : State :=
  match table with
  | .slen => { s with slen := s.slen.write y (BitVec.ofNat 16 (v.toNat % 2 ^ s.params.xw)) }
  | .elen => s

/-- A performed read returns its value to the host and changes nothing else (R77). -/
def answer (a : HostAction) (value : Nat) (s : State) : State :=
  { s with replies := s.replies ++ [{ action := a, value := value }] }

/-- A host action at the moment it is performed: the engine is idle, or the action is a register read (R84). An index
outside its space or table has no meaning (R78, U7; log entry 12). -/
def perform (a : HostAction) (s : State) : Host.Outcome State Fault Refusal :=
  match a with
  | .regRead reg => .next (answer (.regRead reg) (regValue s reg).toNat s)
  | .regWrite reg v => .next (regWrite reg v s)
  | .memRead space y x =>
    if inSpace s.params space y x then .next (answer (.memRead space y x) (memValue s space y x) s)
    else .refused .hostIndexOutOfRange
  | .memWrite space y x v =>
    if inSpace s.params space y x then .next (memWrite space y x v s) else .refused .hostIndexOutOfRange
  | .tabRead table y =>
    if inTable s.params table y then .next (answer (.tabRead table y) (tabValue s table y) s)
    else .refused .hostIndexOutOfRange
  | .tabWrite table y v =>
    if inTable s.params table y then .next (tabWrite table y v s) else .refused .hostIndexOutOfRange

/-- The action is a register read, which is never held (R84). -/
def HostAction.isRegRead : HostAction → Bool
  | .regRead _        => true
  | .regWrite _ _     => false
  | .memRead _ _ _    => false
  | .memWrite _ _ _ _ => false
  | .tabRead _ _      => false
  | .tabWrite _ _ _   => false

/-- The action returns a value to the host. -/
def HostAction.isRead : HostAction → Bool
  | .regRead _        => true
  | .regWrite _ _     => false
  | .memRead _ _ _    => true
  | .memWrite _ _ _ _ => false
  | .tabRead _ _      => true
  | .tabWrite _ _ _   => false

/-- A read the host made is still held: it has returned nothing yet (R84). -/
def awaiting (s : State) : Bool := s.held.any HostAction.isRead

/-- The reset input (R280, R281): every register at its reset value, every store's content unspecified (a fresh epoch of
the free value, log entries 2 and 15), held actions dropped. What the outside world still does, and what it has
received, is not the block's. -/
def resetBlock (s : State) : State :=
  { State.resetOf s.params with
    script := s.script, replies := s.replies, schedule := s.schedule, epoch := s.epoch + 1 }

/-- The host makes an action (R84): a register read is performed at once; anything else is held while the engine is busy
or earlier actions are still held (log entry 10), and performed at once otherwise. -/
def make (a : HostAction) (s : State) : Host.Outcome State Fault Refusal :=
  if a.isRegRead then perform a s
  else if s.busy || !s.held.isEmpty then .next { s with held := s.held ++ [a] }
  else perform a s

/-- The port can move: an action is held and the engine is idle. -/
def portReady (s : State) : Bool := !s.busy && !s.held.isEmpty

/-- The outside world can move. A reset can come at any moment (R281). The host can act at any moment, also while actions
of its own are held (R265), but not between the end of a command and the held actions, which are performed at the
moment `BUSY` is 0 (R84): the port goes first. A host that waits goes on when no read of its own is held. -/
def hostReady (s : State) : Bool :=
  match s.script with
  | []          => false
  | .reset :: _ => true
  | .act _ :: _ => !portReady s
  | .await :: _ => !portReady s && !awaiting s

/-- The outside world's next event. -/
def hostMove (s : State) : Host.Outcome State Fault Refusal :=
  match s.script with
  | []              => .next s
  | .reset :: rest  => .next (resetBlock { s with script := rest })
  | .act a :: rest  => make a { s with script := rest }
  | .await :: rest  => .next { s with script := rest }

/-- The port performs the oldest held action (R84: in the order the host made them). -/
def portMove (s : State) : Host.Outcome State Fault Refusal :=
  match s.held with
  | []        => .next s
  | a :: rest => perform a { s with held := rest }

end Sys2Proof.Machine
end

