-- ==== Sys2Proof/Machine/Schedule.lean ====
section
/-! DEFINITION. Who moves in a step: the outside world, the engine (one stage or the whole command), the port, or nobody
(spec/00_scope.md R20, R21; spec/70_reset_and_hazards.md R296, R299; log entry 8). -/

namespace Sys2Proof.Machine

/-- What one step does. -/
inductive Move where
  | host | stage | command | port | rest
  deriving DecidableEq, Repr

/-- The move when it is not the host's turn: the engine's, else the port's, else the host's, else nobody's. -/
def blockFirst (engine : Move) (s : State) : Move :=
  if engineReady s then engine
  else if portReady s then .port
  else if hostReady s then .host
  else .rest

/-- The move of the next step. The schedule's first entry gives the turn; an agent that cannot move leaves it to the
others; with no entry the engine runs its command to the end (R297: the engine is given steps). -/
def nextMove (s : State) : Move :=
  match s.schedule with
  | []            => blockFirst .command s
  | .command :: _ => blockFirst .command s
  | .stage :: _   => blockFirst .stage s
  | .host :: _    => if hostReady s then .host else blockFirst .command s

/-- The turn is used up. -/
def popTurn (s : State) : State := { s with schedule := s.schedule.tail }

/-- A move made. Nobody's move changes nothing: the idle engine waits indefinitely and keeps all state (R263). -/
def makeMove (m : Move) (s : State) : Host.Outcome State Fault Refusal :=
  match m with
  | .host    => hostMove s
  | .stage   => .next (engineStage s)
  | .command => engineCommand s
  | .port    => portMove s
  | .rest    => .next s

/-- The command word `c` accepted, and the next turn the engine's (log entry 11). -/
def issued (c : Word) (s : State) : State :=
  { accept c s with schedule := .command :: s.schedule }

end Sys2Proof.Machine
end

