-- ==== Sys2Proof/Machine/Step.lean ====
section
/-! DEFINITION. One step of the block and what surrounds it, and the state in which the next step runs a given command. -/

namespace Sys2Proof.Machine

/-- One step: the move whose turn it is. -/
def step (s : State) : Host.Outcome State Fault Refusal := makeMove (nextMove s) (popTurn s)

/-- The state in which the next step runs the command of the opcode table's word `w`: the word is in `CMD`, accepted
(R243), and the turn is the engine's. It stands for the host's write to `CMD` having been performed (log entry 11). -/
def State.withFetchWord (s : State) (nbits w : Nat) : State := issued (tableWord nbits w) s

end Sys2Proof.Machine
end

