-- ==== Sys2Proof/Safety.lean ====
section
/-! DEFINITION. What counts as a well-kept state (the invariant every step keeps), what a host can see, and when a run is
over, in the terms the statements use. -/

namespace Sys2Proof.Machine

/-- Every listed element of a two-dimensional store lies inside it (R79). -/
abbrev Mem.within {w : Nat} (rows cols : Nat) (m : Mem w) : Prop :=
  ∀ p ∈ m, p.1 / rowPitch < rows ∧ p.1 % rowPitch < cols

/-- Every listed element of a one-dimensional store lies inside it (R79). -/
abbrev Mem.below {w : Nat} (n : Nat) (m : Mem w) : Prop := ∀ p ∈ m, p.1 < n

/-- Every listed entry of a table is at most `bound` (R48, R51). -/
abbrev Mem.atMost {w : Nat} (bound : Nat) (m : Mem w) : Prop := ∀ p ∈ m, p.2.toNat ≤ bound

/-- The eight values of `STATUS` (R252). -/
def legalStatus : List Word := [0x0, 0x1, 0x2, 0x16, 0x26, 0x36, 0x46, 0x56]

/-- Every store is in canonical form (log entry 2). -/
structure StoresCanonical (s : State) : Prop where
  src   : s.src.wf
  slen  : s.slen.wf
  dst   : s.dst.wf
  ext   : s.ext.wf
  elen  : s.elen.wf
  xgrid : s.xgrid.wf
  ring  : s.ring.wf
  mid   : s.mid.wf
  acc   : s.acc.wf

/-- No store lists an element outside its space, and no table an entry above its range (R47 to R51, R54, R55, R57, R58,
R79). -/
structure StoresInRange (s : State) : Prop where
  src     : s.src.within (2 ^ s.params.yw) (2 ^ s.params.xw)
  slen    : s.slen.below (2 ^ s.params.yw)
  slenMax : s.slen.atMost s.params.maxW
  dst     : s.dst.within (2 ^ s.params.yw) (2 ^ s.params.xw)
  ext     : s.ext.within s.params.erows s.params.ecols
  elen    : s.elen.below s.params.erows
  elenMax : s.elen.atMost s.params.ecols
  xgrid   : s.xgrid.within s.params.xrows s.params.xcols
  ring    : s.ring.within 15 s.params.xcols
  mid     : s.mid.below s.params.xcols
  acc     : s.acc.below s.params.lanes

/-- The filter commands (R28) with radius `r`. -/
def isFilter (i : Instr) (r : Int) : Prop := i = .fnaive r ∨ i = .fsep r ∨ i = .fvec r

/-- In the phases `FILL` and `ROW` the command in `CMD` is legal, its validation passes, its operands are latched and
`Y` is within the running loop; `ROW` is a filter command's (R52, R53). -/
def Latched (s : State) : Prop :=
  ∃ i, decode s.cmd = .ok i ∧ (bodyOf i).check s = .ok s.latch ∧
    (s.seq.phase = .fill → s.seq.y ≤ (bodyOf i).fills s.latch) ∧
    (s.seq.phase = .row → (∃ r, isFilter i r) ∧ s.seq.y ≤ (bodyOf i).rows s.latch)

/-- The invariant of the block: what holds at reset and after every step. -/
structure Inv (s : State) : Prop where
  /-- `HEIGHT[31:YW]` reads 0 (R42). -/
  height    : s.height.toNat < 2 ^ s.params.yw
  /-- `STATUS` has a legal value (R252). -/
  status    : s.status ∈ legalStatus
  /-- `BUSY = 1` exactly when `PHASE ≠ IDLE` (R52). -/
  busy      : s.busy = true ↔ s.seq.phase ≠ .idle
  /-- `Y` is 0 in the phases without a loop (R243, R249, R250). -/
  counter   : s.seq.phase = .idle ∨ s.seq.phase = .check → s.seq.y = 0
  /-- A running loop has its operands latched (R53). -/
  latched   : s.seq.phase = .fill ∨ s.seq.phase = .row → Latched s
  /-- `RSTART` numbers a slot (R55, R56). -/
  rstart    : s.rstart.toNat < 15
  canonical : StoresCanonical s
  inRange   : StoresInRange s
  /-- A register read is never held (R84). -/
  heldKind  : ∀ a ∈ s.held, a.isRegRead = false

/-- Two states a host cannot tell apart by its accesses and with the same parameters and agents: they differ in hidden
working state at most (R30 (c), R60). `SEQ` is compared as well. -/
structure SameButHidden (s t : State) : Prop where
  params   : s.params = t.params
  height   : s.height = t.height
  cmd      : s.cmd = t.cmd
  status   : s.status = t.status
  outW     : s.outW = t.outW
  outH     : s.outH = t.outH
  src      : s.src = t.src
  slen     : s.slen = t.slen
  dst      : s.dst = t.dst
  ext      : s.ext = t.ext
  elen     : s.elen = t.elen
  seq      : s.seq = t.seq
  held     : s.held = t.held
  script   : s.script = t.script
  replies  : s.replies = t.replies
  schedule : s.schedule = t.schedule
  epoch    : s.epoch = t.epoch

/-- The source grid is a legal image for a filter command (R245): at least one row, row 0 not empty, all rows of the
length of row 0. -/
def LegalImage (s : State) : Prop :=
  s.height.toNat ≠ 0 ∧ slenAt s 0 ≠ 0 ∧ ∀ y, 1 ≤ y → y < s.height.toNat → slenAt s y = slenAt s 0

/-- A legal grid for `EXT2D` (R138): at least one row and no row of length 0. -/
def LegalGrid (s : State) : Prop := s.height.toNat ≠ 0 ∧ ∀ y, y < s.height.toNat → slenAt s y ≠ 0

/-- Two states agree on what the command `i` reads (R284): the row `EXT1D` extends, or the row count, the row lengths and
the samples of the source grid. -/
def SameReadSet (i : Instr) (s t : State) : Prop :=
  match i with
  | .ext1d _ => slenAt s 0 = slenAt t 0 ∧ ∀ x, x < slenAt s 0 → srcAt s 0 x = srcAt t 0 x
  | _ =>
    s.height = t.height ∧ (∀ y, y < s.height.toNat → slenAt s y = slenAt t y) ∧
      ∀ y x, y < s.height.toNat → x < slenAt s y → srcAt s y x = srcAt t y x

/-- Two states hold the same result of the command `i` (R45, R46, R49, R50): the result registers, and every element of
the result they cover. -/
def SameResult (i : Instr) (s t : State) : Prop :=
  s.outW = t.outW ∧ s.outH = t.outH ∧
    match i with
    | .ext1d _   => elenAt s 0 = elenAt t 0 ∧ ∀ e, e < elenAt s 0 → extAt s 0 e = extAt t 0 e
    | .ext2d _ _ => ∀ j, j < s.outH.toNat → elenAt s j = elenAt t j ∧ ∀ e, e < elenAt s j → extAt s j e = extAt t j e
    | _          => ∀ y x, y < s.outH.toNat → x < s.outW.toNat → dstAt s y x = dstAt t y x

/-- The index of the source element that element `e` of a sequence of length `n`, extended by `m`, copies (R131). -/
def copiedFrom (m n e : Nat) : Nat := if e < m then 0 else if e < m + n then e - m else n - 1

/-- Right after acceptance of the command `i` (R243): the word of `i` is in `CMD`, `STATUS` reads 1, the sequencer is at
`(CHECK, 0)`. -/
def Accepted (i : Instr) (s : State) : Prop :=
  decode s.cmd = .ok i ∧ s.status = 1 ∧ s.seq = { phase := .check, y := 0 }

/-- The run is over (R299): the outside world has performed its last action and `BUSY = 0`. -/
def RunOver (s : State) : Prop := s.script = [] ∧ s.held = [] ∧ s.busy = false

end Sys2Proof.Machine
end

