-- ==== Sys2Proof/Certificates/Slice0/Obligations.lean ====
section
/-! DEFINITION. The statements for the provers, from the numbered rules of spec/. -/

open Sys2Proof Sys2Proof.Machine

/-! ### Encoding (spec/30_encoding.md) -/

/-- T40's round trip: decoding an encoded well-formed command gives it back, every operand at every value its field
admits. -/
def Obligations.DecodeEncodeRoundTrip : Prop :=
  ∀ i : Instr, i.WellFormed → decode (encode i) = .ok i

/-- T40's other direction: a legal word is the encoding of the command it decodes to, so no bit of it is dropped. -/
def Obligations.EncodeDecodeRoundTrip : Prop :=
  ∀ (c : Word) (i : Instr), decode c = .ok i → i.WellFormed ∧ encode i = c

/-- R107, in numbers: what each word decodes to, and the word of each command. -/
def Obligations.DecodeAndEncodeInNumbers : Prop :=
  (∀ c : Word,
    let n := c.toNat
    let a := (BitVec.ofNat 8 (n / 2 ^ 8)).toInt
    let b := (BitVec.ofNat 8 (n / 2 ^ 16)).toInt
    (n % 2 ^ 4 = 1 → n / 2 ^ 16 = 0 → n / 2 ^ 4 % 2 ^ 4 = 0 → decode c = .ok (.ext1d a)) ∧
    (n % 2 ^ 4 = 4 → n / 2 ^ 16 = 0 → n / 2 ^ 4 % 2 ^ 4 = 0 → decode c = .ok (.fnaive a)) ∧
    (n % 2 ^ 4 = 5 → n / 2 ^ 16 = 0 → n / 2 ^ 4 % 2 ^ 4 = 0 → decode c = .ok (.fsep a)) ∧
    (n % 2 ^ 4 = 6 → n / 2 ^ 16 = 0 → n / 2 ^ 4 % 2 ^ 4 = 0 → decode c = .ok (.fvec a)) ∧
    (n % 2 ^ 4 = 2 → n / 2 ^ 24 = 0 → n / 2 ^ 4 % 2 ^ 4 = 0 → decode c = .ok (.ext2d a b)) ∧
    (n % 2 ^ 4 ∈ [1, 4, 5, 6] → n / 2 ^ 16 ≠ 0 ∨ n / 2 ^ 4 % 2 ^ 4 ≠ 0 → ∃ e, decode c = .error e) ∧
    (n % 2 ^ 4 = 2 → n / 2 ^ 24 ≠ 0 ∨ n / 2 ^ 4 % 2 ^ 4 ≠ 0 → ∃ e, decode c = .error e) ∧
    (n % 2 ^ 4 ∉ [1, 2, 4, 5, 6] → ∃ e, decode c = .error e)) ∧
  ∀ v w : Int, operandFits v → operandFits w →
    (encode (.ext1d v)).toNat = (v % 256).toNat * 2 ^ 8 + 1 ∧
    (encode (.ext2d v w)).toNat = (w % 256).toNat * 2 ^ 16 + (v % 256).toNat * 2 ^ 8 + 2 ∧
    (encode (.fnaive v)).toNat = (v % 256).toNat * 2 ^ 8 + 4 ∧
    (encode (.fsep v)).toNat = (v % 256).toNat * 2 ^ 8 + 5 ∧
    (encode (.fvec v)).toNat = (v % 256).toNat * 2 ^ 8 + 6

/-- R106: a word is a command exactly when its masked bits are the command's match, and the remaining bits are the
operand fields. -/
def Obligations.OpcodeMapMatchAndMask : Prop :=
  ∀ (c : Word) (v w : Int),
    let a := (BitVec.ofNat 8 (c.toNat / 2 ^ 8)).toInt
    let b := (BitVec.ofNat 8 (c.toNat / 2 ^ 16)).toInt
    (decode c = .ok (.ext1d v) ↔ c &&& 0xFFFF00FF = 0x00000001 ∧ v = a) ∧
    (decode c = .ok (.ext2d v w) ↔ c &&& 0xFF0000FF = 0x00000002 ∧ v = a ∧ w = b) ∧
    (decode c = .ok (.fnaive v) ↔ c &&& 0xFFFF00FF = 0x00000004 ∧ v = a) ∧
    (decode c = .ok (.fsep v) ↔ c &&& 0xFFFF00FF = 0x00000005 ∧ v = a) ∧
    (decode c = .ok (.fvec v) ↔ c &&& 0xFFFF00FF = 0x00000006 ∧ v = a)

/-- R108, R244: a word is illegal exactly when its opcode is reserved or a must-be-zero field is not 0; issued, it ends
at once with `IllegalCommand` and nothing else is written; the word 0 is illegal when written and is not executed for
being the reset value of `CMD`. -/
def Obligations.IllegalWordsEndWithIllegalCommand : Prop :=
  (∀ c : Word, (∃ e, decode c = .error e) ↔
    (c.toNat % 2 ^ 4 ∉ [1, 2, 4, 5, 6] ∨
      c.toNat % 2 ^ 4 = 2 ∧ (c.toNat / 2 ^ 24 ≠ 0 ∨ c.toNat / 2 ^ 4 % 2 ^ 4 ≠ 0) ∨
      c.toNat % 2 ^ 4 ∈ [1, 4, 5, 6] ∧ (c.toNat / 2 ^ 16 ≠ 0 ∨ c.toNat / 2 ^ 4 % 2 ^ 4 ≠ 0))) ∧
  (∀ (c : Word) (e : DecodeError) (s : State), decode c = .error e →
    step (issued c s) =
      .next { s with cmd := c, status := 0x56, seq := { phase := .idle, y := 0 } }) ∧
  (∀ s : State, step (issued 0 s) =
      .next { s with cmd := 0, status := 0x56, seq := { phase := .idle, y := 0 } }) ∧
  step State.reset = .next State.reset

/-- R111: the words of the examples decode to the commands written beside them. -/
def Obligations.WrittenOutWordsDecode : Prop :=
  decodeTableWord 32 0x00000301 = some (.ext1d 3) ∧
  decodeTableWord 32 0x00010202 = some (.ext2d 2 1) ∧
  decodeTableWord 32 0x00000104 = some (.fnaive 1) ∧
  decodeTableWord 32 0x00000705 = some (.fsep 7) ∧
  decodeTableWord 32 0x00000806 = some (.fvec 8) ∧
  decodeTableWord 32 0x0000FF05 = some (.fsep (-1)) ∧
  decodeTableWord 32 0x0000FF01 = some (.ext1d (-1))

/-! ### The step and the sequencer (spec/10_state.md R52, spec/60_exceptions.md, spec/70_reset_and_hazards.md R296) -/

/-- A step runs the decoded command. When an accepted command's word decodes to `i` and the turn is not the outside
world's and not a single stage's, the step is `exec i`, the turn used up; the same of the state `withFetchWord` makes. With
the turn for a single stage, the step of an engine in progress is one stage. From the middle of the loops, the step that
runs all that remains is a number of stages, after which the engine is idle. -/
def Obligations.StepRunsTheDecodedCommand : Prop :=
  (∀ (s : State) (i : Instr), decode s.cmd = .ok i → s.seq.phase = .check →
    s.schedule.head? = none ∨ s.schedule.head? = some .command → step s = exec i (popTurn s)) ∧
  (∀ (s : State) (w : Nat) (i : Instr), decodeTableWord 32 w = some i →
    step (s.withFetchWord 32 w) = exec i (accept (BitVec.ofNat 32 w) s)) ∧
  (∀ s : State, s.seq.phase ≠ .idle → s.schedule.head? = some .stage → step s = .next (engineStage (popTurn s))) ∧
  ∀ (s : State) (i : Instr), decode s.cmd = .ok i → s.seq.phase = .fill ∨ s.seq.phase = .row →
    s.schedule.head? = none ∨ s.schedule.head? = some .command →
    ∃ n, step s = .next (loop (fun _ => engineStage) n (popTurn s)) ∧
      (loop (fun _ => engineStage) n (popTurn s)).seq = { phase := .idle, y := 0 }

/-- R243: the write of a word to `CMD`, performed, is acceptance: `CMD` and `STATUS = 1`, `SEQ = (CHECK, 0)`, nothing
else; and the engine's next stage decodes and validates the word. -/
def Obligations.AcceptanceOfACommand : Prop :=
  ∀ (c : Word) (s : State),
    perform (.regWrite .cmd c) s =
      .next { s with cmd := c, status := 1, seq := { phase := .check, y := 0 } } ∧
    (∀ e, decode c = .error e → engineStage (accept c s) = raiseErr .illegalCommand (accept c s)) ∧
    (∀ i kind, decode c = .ok i → (bodyOf i).check (accept c s) = .error kind →
      engineStage (accept c s) = raiseErr kind (accept c s)) ∧
    (∀ i l, decode c = .ok i → (bodyOf i).check (accept c s) = .ok l →
      (engineStage (accept c s)).latch = l ∧ (engineStage (accept c s)).seq = { phase := .fill, y := 0 })

/-- R249, R296: stage by stage the engine reaches what the whole command reaches, in a bounded number of stages; until the
end `STATUS` reads 1 and the registers read what they read after acceptance. -/
def Obligations.StagesReachTheWholeCommand : Prop :=
  ∀ (i : Instr) (s t : State), Accepted i s → exec i s = .next t →
    ∃ n, n ≤ 2 * s.height.toNat + 257 ∧ loop (fun _ => engineStage) n s = t ∧
      ∀ k, k < n →
        let u := loop (fun _ => engineStage) k s
        u.status = 1 ∧ u.outW = s.outW ∧ u.outH = s.outH ∧ u.height = s.height ∧ u.cmd = s.cmd ∧ u.params = s.params

/-- R297: a command in progress ends when the engine is given its turn, also from the middle of its loops; what was held
is still held. -/
def Obligations.EveryAcceptedCommandEnds : Prop :=
  ∀ s : State, Inv s → s.busy = true → s.schedule = [] →
    ∃ t, step s = .next t ∧ t.busy = false ∧ statusDone t.status = true ∧
      t.seq = { phase := .idle, y := 0 } ∧ t.held = s.held ∧ t.script = s.script

/-- R252: `STATUS` changes at acceptance, at a command's end and at reset only, and as the rule says. -/
def Obligations.LifeOfTheFlags : Prop :=
  ∀ s t : State, Inv s → step s = .next t → t.status ∈ legalStatus ∧
    (t.status = s.status ∨
      (t.status = 1 ∧ t.seq = { phase := .check, y := 0 }) ∨
      (s.busy = true ∧ t.busy = false ∧ statusDone t.status = true ∧ t.seq = { phase := .idle, y := 0 }) ∨
      (t.status = 0 ∧ s.script.head? = some .reset))

/-- R263, R299: when the run is over a step changes nothing but the turn; and a step from a state with nothing in the
schedule that changes nothing is one where the run is over. -/
def Obligations.RunIsOverWhenNothingMoves : Prop :=
  (∀ s : State, Inv s → RunOver s → step s = .next (popTurn s)) ∧
  ∀ s : State, Inv s → s.schedule = [] → step s = .next s → RunOver s

/-! ### Errors (spec/60_exceptions.md) -/

/-- R250: a command whose validation fails is the error end: `STATUS` reads `0x6 | (code << 4)`, the engine is idle,
nothing else is written; the five values. -/
def Obligations.ErrorEnd : Prop :=
  (∀ (i : Instr) (s : State) (kind : ErrKind), (bodyOf i).check s = .error kind →
    exec i s = .next { s with
      status := 0x6 ||| ((errCode kind).setWidth 32 <<< 4), seq := { phase := .idle, y := 0 } }) ∧
  (∀ s : State,
    (raiseErr .invalidInput s).status = 0x16 ∧ (raiseErr .invalidRadius s).status = 0x26 ∧
    (raiseErr .emptyImage s).status = 0x36 ∧ (raiseErr .raggedImage s).status = 0x46 ∧
    (raiseErr .illegalCommand s).status = 0x56)

/-- R245 (R246, R247, R248): the validation of the filter commands, in order; the first check that fails decides the
error, and a legal image runs with its operands latched. -/
def Obligations.FilterValidationOrder : Prop :=
  ∀ (i : Instr) (r : Int) (s : State), isFilter i r →
    (r < 0 ∨ 7 < r → exec i s = .next { s with status := 0x26, seq := { phase := .idle, y := 0 } }) ∧
    (0 ≤ r → r ≤ 7 → s.height.toNat = 0 ∨ slenAt s 0 = 0 →
      exec i s = .next { s with status := 0x36, seq := { phase := .idle, y := 0 } }) ∧
    (0 ≤ r → r ≤ 7 → s.height.toNat ≠ 0 → slenAt s 0 ≠ 0 →
      (∃ y, 1 ≤ y ∧ y < s.height.toNat ∧ slenAt s y ≠ slenAt s 0) →
      exec i s = .next { s with status := 0x46, seq := { phase := .idle, y := 0 } }) ∧
    (0 ≤ r → r ≤ 7 → LegalImage s →
      ∃ t, exec i s = .next t ∧ (t.latch.r : Int) = r ∧ (t.latch.l : Int) = 2 * r + 1 ∧
        t.latch.wt = t.latch.l * t.latch.l ∧ t.latch.w = slenAt s 0 ∧ t.latch.h = s.height.toNat ∧
        1 ≤ t.latch.w ∧ t.latch.w ≤ s.params.maxW ∧ 1 ≤ t.latch.h ∧
        (s.height.toNat < 2 ^ s.params.yw → t.latch.h ≤ s.params.maxH))

/-- R251: `InvalidInput` is raised by the extender commands exactly under the conditions of R137 and R138, and by no
other command. -/
def Obligations.InvalidInputIsTheExtendersError : Prop :=
  (∀ (m : Int) (s t : State), s.status = 1 → exec (.ext1d m) s = .next t →
    (t.status = 0x16 ↔ m < 0 ∨ slenAt s 0 = 0) ∧ (t.status = 2 ↔ 0 ≤ m ∧ slenAt s 0 ≠ 0)) ∧
  (∀ (hm vm : Int) (s t : State), s.status = 1 → exec (.ext2d hm vm) s = .next t →
    (t.status = 0x16 ↔
      s.height.toNat = 0 ∨ vm < 0 ∨ hm < 0 ∨ ∃ y, y < s.height.toNat ∧ slenAt s y = 0) ∧
    (t.status = 2 ↔ 0 ≤ hm ∧ 0 ≤ vm ∧ LegalGrid s)) ∧
  (∀ (i : Instr) (r : Int) (s t : State), s.status = 1 → isFilter i r → exec i s = .next t → t.status ≠ 0x16) ∧
  ∀ (c : Word) (e : DecodeError) (s t : State), decode c = .error e → step (issued c s) = .next t → t.status ≠ 0x16

/-- R254: the state after a command that ended with an error differs from the state before it was issued only in `CMD`
and `STATUS`. -/
def Obligations.ErrorsArePrecise : Prop :=
  ∀ (c : Word) (s t : State), s.seq = { phase := .idle, y := 0 } → engineCommand (accept c s) = .next t →
    statusErr t.status = true → t = { s with cmd := c, status := t.status }

/-! ### The BorderExtender (spec/40_border_extender.md) -/

/-- R131, R132, R133: the length and the elements of `extend1D`, by part and by clamp, and where it has no result. -/
def Obligations.Extend1dOfASequence : Prop :=
  ∀ (α : Type) (seq : List α) (m : Int),
    (0 ≤ m → seq ≠ [] →
      ∃ out, extend1D seq m = .ok out ∧ out.length = seq.length + 2 * m.toNat ∧
        (∀ e, e < m.toNat → out[e]? = seq.head?) ∧
        (∀ k, k < seq.length → out[m.toNat + k]? = seq[k]?) ∧
        (∀ e, m.toNat + seq.length ≤ e → e < seq.length + 2 * m.toNat → out[e]? = seq.getLast?) ∧
        (∀ e, e < seq.length + 2 * m.toNat → out[e]? = seq[clampIndex ((e : Int) - m) seq.length]?)) ∧
    (m < 0 ∨ seq = [] → extend1D seq m = .error .invalidInput)

/-- R134, R135: the rows of `extend2D`, of a ragged grid too, and exactly where it has no result. -/
def Obligations.Extend2dOfAGrid : Prop :=
  ∀ (α : Type) (grid : List (List α)) (hm vm : Int),
    (0 ≤ hm → 0 ≤ vm → grid ≠ [] → (∀ row ∈ grid, row ≠ []) →
      ∃ out, extend2D grid hm vm = .ok out ∧ out.length = grid.length + 2 * vm.toNat ∧
        ∀ j, j < grid.length + 2 * vm.toNat →
          ∃ row ext, grid[clampIndex ((j : Int) - vm) grid.length]? = some row ∧
            extend1D row hm = .ok ext ∧ out[j]? = some ext ∧ ext.length = row.length + 2 * hm.toNat ∧
            ∀ e, e < row.length + 2 * hm.toNat → ext[e]? = row[clampIndex ((e : Int) - hm) row.length]?) ∧
    (extend2D grid hm vm = .error .invalidInput ↔
      grid = [] ∨ vm < 0 ∨ hm < 0 ∨ ∃ row ∈ grid, row = [])

/-- R90 with R131: the row the engine builds element by element is `extend1D` of the widened source row. -/
def Obligations.ExtendedRowIsExtend1d : Prop :=
  ∀ (s : State) (y m n : Nat), n ≠ 0 →
    extend1D ((List.range n).map fun x => zext16 (srcAt s y x)) (m : Int) = .ok (extendedRow s y m n)

/-- R137: `EXT1D` completes on a margin in 0 to 127 and a row that is not empty, whatever `HEIGHT` holds: the result, its
length, the result registers, and the frame. Otherwise it ends with `InvalidInput` and writes nothing else. -/
def Obligations.Ext1dResult : Prop :=
  (∀ (m : Nat) (s : State), m ≤ 127 → slenAt s 0 ≠ 0 →
    let n := slenAt s 0
    ∃ t, exec (.ext1d m) s = .next t ∧
      (∀ e, e < n + 2 * m → (extAt t 0 e).toNat = (srcAt s 0 (copiedFrom m n e)).toNat) ∧
      elenAt t 0 = n + 2 * m ∧ t.outW.toNat = n + 2 * m ∧ t.outH.toNat = 1 ∧
      (s.status = 1 → t.status = 2) ∧ t.seq = { phase := .idle, y := 0 } ∧
      (∀ a, (∀ e, e < n + 2 * m → a ≠ key 0 e) → t.ext.read a = s.ext.read a) ∧
      (∀ a, a ≠ 0 → t.elen.read a = s.elen.read a) ∧
      t = { s with ext := t.ext, elen := t.elen, latch := t.latch, outW := t.outW, outH := t.outH,
                   status := t.status, seq := t.seq }) ∧
  ∀ (m : Int) (s : State), m < 0 ∨ slenAt s 0 = 0 →
    exec (.ext1d m) s = .next { s with status := 0x16, seq := { phase := .idle, y := 0 } }

/-- R138: `EXT2D` completes on margins in 0 to 127 and a grid with rows, none of them empty, ragged or not: the result,
the row lengths, the result registers, and the frame. Otherwise it ends with `InvalidInput` and writes nothing else. -/
def Obligations.Ext2dResult : Prop :=
  (∀ (hm vm : Nat) (s : State), hm ≤ 127 → vm ≤ 127 → LegalGrid s →
    let h := s.height.toNat
    let row := copiedFrom vm h
    ∃ t, exec (.ext2d hm vm) s = .next t ∧
      (∀ j, j < h + 2 * vm → elenAt t j = slenAt s (row j) + 2 * hm ∧
        ∀ e, e < slenAt s (row j) + 2 * hm →
          (extAt t j e).toNat = (srcAt s (row j) (copiedFrom hm (slenAt s (row j)) e)).toNat) ∧
      t.outW.toNat = elenAt t 0 ∧ t.outH = BitVec.ofNat 32 (h + 2 * vm) ∧
      (s.status = 1 → t.status = 2) ∧ t.seq = { phase := .idle, y := 0 } ∧
      t.latch = { s.latch with hMargin := hm, vMargin := vm, h := h } ∧
      (∀ a, (∀ j e, j < h + 2 * vm → e < slenAt s (row j) + 2 * hm → a ≠ key j e) → t.ext.read a = s.ext.read a) ∧
      (∀ a, h + 2 * vm ≤ a → t.elen.read a = s.elen.read a) ∧
      t = { s with ext := t.ext, elen := t.elen, latch := t.latch, outW := t.outW, outH := t.outH,
                   status := t.status, seq := t.seq }) ∧
  ∀ (hm vm : Int) (s : State),
    s.height.toNat = 0 ∨ vm < 0 ∨ hm < 0 ∨ (∃ y, y < s.height.toNat ∧ slenAt s y = 0) →
    exec (.ext2d hm vm) s = .next { s with status := 0x16, seq := { phase := .idle, y := 0 } }

/-- R53: the extender commands latch their operands: `EXT1D` its margin, `EXT2D` both margins and `H`; the other latched
operands keep what they held. That `EXT1D` latches no `H` is the model's choice (log entry 14). -/
def Obligations.ExtendersLatchTheirOperands : Prop :=
  (∀ (m : Int) (s : State), 0 ≤ m → slenAt s 0 ≠ 0 →
    ∃ t, exec (.ext1d m) s = .next t ∧ t.latch = { s.latch with hMargin := m.toNat }) ∧
  ∀ (hm vm : Int) (s : State), 0 ≤ hm → 0 ≤ vm → LegalGrid s →
    ∃ t, exec (.ext2d hm vm) s = .next t ∧
      t.latch = { s.latch with hMargin := hm.toNat, vMargin := vm.toNat, h := s.height.toNat }

/-- R140: on a one-row grid `EXT2D m, 0` and `EXT1D m` write the same result and fail in the same cases. -/
def Obligations.Ext2dOfOneRowIsExt1d : Prop :=
  ∀ (m : Int) (s t u : State), s.height.toNat = 1 → exec (.ext2d m 0) s = .next t → exec (.ext1d m) s = .next u →
    t.status = u.status ∧ t.outW = u.outW ∧ t.outH = u.outH ∧
      (∀ a, t.ext.read a = u.ext.read a) ∧ ∀ a, t.elen.read a = u.elen.read a

/-! ### The filters (spec/41_naive_filter.md, 42, 43) -/

/-- R151 with R150: `FNAIVE` completes on a radius in 0 to 7 and a legal image; `DST` holds `box` of it; the frame. -/
def Obligations.FnaiveComputesBox : Prop :=
  ∀ (r : Nat) (s : State), r ≤ 7 → LegalImage s →
    let w := slenAt s 0
    let h := s.height.toNat
    ∃ t, exec (.fnaive r) s = .next t ∧
      (∀ y x, y < h → x < w → (dstAt t y x).toNat = boxAt (imageOf s) w h r y x) ∧
      t.outW.toNat = w ∧ t.outH.toNat = h ∧ (s.status = 1 → t.status = 2) ∧ t.seq = { phase := .idle, y := 0 } ∧
      (∀ a, (∀ y x, y < h → x < w → a ≠ key y x) → t.dst.read a = s.dst.read a) ∧
      (∀ a, (∀ j e, j < h + 2 * r → e < w + 2 * r → a ≠ key j e) → t.xgrid.read a = s.xgrid.read a) ∧
      t = { s with dst := t.dst, xgrid := t.xgrid, latch := t.latch, outW := t.outW, outH := t.outH,
                   status := t.status, seq := t.seq }

/-- R171 with R150 and R170: `FSEP` completes on a radius in 0 to 7 and a legal image; `DST` holds `box` of it; the
frame. -/
def Obligations.FsepComputesBox : Prop :=
  ∀ (r : Nat) (s : State), r ≤ 7 → LegalImage s →
    let w := slenAt s 0
    let h := s.height.toNat
    ∃ t, exec (.fsep r) s = .next t ∧
      (∀ y x, y < h → x < w → (dstAt t y x).toNat = boxAt (imageOf s) w h r y x) ∧
      t.outW.toNat = w ∧ t.outH.toNat = h ∧ (s.status = 1 → t.status = 2) ∧ t.seq = { phase := .idle, y := 0 } ∧
      t.rstart.toNat = h % (2 * r + 1) ∧
      (∀ a, (∀ y x, y < h → x < w → a ≠ key y x) → t.dst.read a = s.dst.read a) ∧
      (∀ a, (∀ k e, k < 2 * r + 1 → e < w + 2 * r → a ≠ key k e) → t.ring.read a = s.ring.read a) ∧
      (∀ a, w + 2 * r ≤ a → t.mid.read a = s.mid.read a) ∧
      t = { s with dst := t.dst, ring := t.ring, rstart := t.rstart, mid := t.mid, latch := t.latch,
                   outW := t.outW, outH := t.outH, status := t.status, seq := t.seq }

/-- R201 with R150: `FVEC` completes on a radius in 0 to 7 and a legal image, for every lane width; `DST` holds `box` of
it; the frame. -/
def Obligations.FvecComputesBox : Prop :=
  ∀ (r : Nat) (s : State), r ≤ 7 → LegalImage s →
    let w := slenAt s 0
    let h := s.height.toNat
    ∃ t, exec (.fvec r) s = .next t ∧
      (∀ y x, y < h → x < w → (dstAt t y x).toNat = boxAt (imageOf s) w h r y x) ∧
      t.outW.toNat = w ∧ t.outH.toNat = h ∧ (s.status = 1 → t.status = 2) ∧ t.seq = { phase := .idle, y := 0 } ∧
      t.rstart.toNat = h % (2 * r + 1) ∧
      (∀ a, (∀ y x, y < h → x < w → a ≠ key y x) → t.dst.read a = s.dst.read a) ∧
      (∀ a, (∀ k e, k < 2 * r + 1 → e < w + 2 * r → a ≠ key k e) → t.ring.read a = s.ring.read a) ∧
      (∀ a, w + 2 * r ≤ a → t.mid.read a = s.mid.read a) ∧
      (∀ a, s.params.lanes ≤ a → t.acc.read a = s.acc.read a) ∧
      t = { s with dst := t.dst, ring := t.ring, rstart := t.rstart, mid := t.mid, acc := t.acc, latch := t.latch,
                   outW := t.outW, outH := t.outH, status := t.status, seq := t.seq }

/-- R182, R215: for every source grid and every operand the three filter commands end with the same `STATUS`, `OUT_W`,
`OUT_H` and the same content of `DST`. -/
def Obligations.FiltersAreBitIdentical : Prop :=
  ∀ (r : Int) (s : State),
    ∃ t u v, exec (.fnaive r) s = .next t ∧ exec (.fsep r) s = .next u ∧ exec (.fvec r) s = .next v ∧
      u.status = t.status ∧ v.status = t.status ∧ u.outW = t.outW ∧ v.outW = t.outW ∧
      u.outH = t.outH ∧ v.outH = t.outH ∧ (∀ a, u.dst.read a = t.dst.read a) ∧ ∀ a, v.dst.read a = t.dst.read a

/-- R216: no result depends on the lane width: two instances that differ in `LOG2G` end every command with the same
`STATUS`, `OUT_W`, `OUT_H` and the same content of the result spaces. -/
def Obligations.NoResultDependsOnTheLaneWidth : Prop :=
  ∀ (i : Instr) (s : State) (g : Fin 9),
    ∃ t u, exec i s = .next t ∧ exec i { s with params := { s.params with log2g := g } } = .next u ∧
      u.status = t.status ∧ u.outW = t.outW ∧ u.outH = t.outH ∧ (∀ a, u.dst.read a = t.dst.read a) ∧
      (∀ a, u.ext.read a = t.ext.read a) ∧ ∀ a, u.elen.read a = t.elen.read a

/-- R158: radius 0 leaves every pixel unchanged. -/
def Obligations.RadiusZeroIsIdentity : Prop :=
  ∀ (i : Instr) (s : State), isFilter i 0 → LegalImage s →
    ∃ t, exec i s = .next t ∧
      ∀ y x, y < s.height.toNat → x < slenAt s 0 → dstAt t y x = srcAt s y x

/-- R159, R160: a constant-valued image is returned at any radius, and the result has the image's dimensions. -/
def Obligations.UniformImageIsInvariant : Prop :=
  ∀ (i : Instr) (r : Int) (s : State) (v : U8), isFilter i r → 0 ≤ r → r ≤ 7 → LegalImage s →
    (∀ y x, y < s.height.toNat → x < slenAt s 0 → srcAt s y x = v) →
    ∃ t, exec i s = .next t ∧ t.outW.toNat = slenAt s 0 ∧ t.outH.toNat = s.height.toNat ∧
      ∀ y x, y < s.height.toNat → x < slenAt s 0 → dstAt t y x = v

/-- R152: `FNAIVE` materialises the extended image in `XGRID`, rows `[0, H + 2R)`, columns `[0, W + 2R)`, and leaves
`EXT` alone. -/
def Obligations.FnaiveMaterialisesTheExtendedImage : Prop :=
  ∀ (r : Nat) (s : State), r ≤ 7 → LegalImage s →
    let w := slenAt s 0
    let h := s.height.toNat
    ∃ t, exec (.fnaive r) s = .next t ∧ t.ext = s.ext ∧
      (∀ j e, j < h + 2 * r → e < w + 2 * r →
        (xgridAt t j e).toNat = (srcAt s (copiedFrom r h j) (copiedFrom r w e)).toNat) ∧
      ∀ a, (∀ j e, j < h + 2 * r → e < w + 2 * r → a ≠ key j e) → t.xgrid.read a = s.xgrid.read a

/-- R174 (R172, R173, R180): the window invariant of `FSEP` and of `FVEC`. After step (a) of output row `y`, `RSTART` is
`y mod L`, and for every logical position `j` the physical slot `(y + j) mod L` holds the extended row of source row
`clamp(y - R + j, 0, H - 1)`; the rest of the row iteration leaves the ring as it is. -/
def Obligations.RingWindow : Prop :=
  ∀ (b : CommandBody) (r : Nat) (s : State) (y : Nat), b = sepBody r ∨ b = vecBody r → r ≤ 7 → LegalImage s →
    y < s.height.toNat →
    let w := slenAt s 0
    let h := s.height.toNat
    let l := 2 * r + 1
    ∃ lt, b.check s = .ok lt ∧
      let before := loop (rowStage b) y (toRows (loop (fillStage b) (b.fills lt) (enter b lt s)))
      let t := ringAppend y before
      t.rstart.toNat = y % l ∧
      (∀ j, j < l → slotOf t j = (y + j) % l ∧ ∀ e, e < w + 2 * r →
        (ringAt t ((y + j) % l) e).toNat =
          (srcAt s (clampIndex ((y : Int) - r + j) h) (copiedFrom r w e)).toNat) ∧
      (verticalPass t).ring = t.ring ∧ (verticalPass t).rstart = t.rstart ∧
      (horizontalPass y (verticalPass t)).ring = t.ring ∧ (horizontalPass y (verticalPass t)).rstart = t.rstart ∧
      (verticalGroups t).ring = t.ring ∧ (verticalGroups t).rstart = t.rstart ∧
      (horizontalGroups y (verticalGroups t)).ring = t.ring ∧ (horizontalGroups y (verticalGroups t)).rstart = t.rstart ∧
      (b.row y before).ring = t.ring ∧ (b.row y before).rstart.toNat = (y + 1) % l

/-- R180 (with R173, R295): the rotation adds 1 to `RSTART` modulo `L`; it renames the window's positions and copies no row: position `j + 1` becomes `j`, the
oldest row's slot becomes position `L - 1`, which step (a) writes next, and step (a) writes no other slot. -/
def Obligations.RotationMakesTheOldestSlotNext : Prop :=
  ∀ s : State, 1 ≤ s.latch.l → s.latch.l ≤ 15 → s.rstart.toNat < s.latch.l →
    (ringRotate s).rstart.toNat = (s.rstart.toNat + 1) % s.latch.l ∧
    slotOf (ringRotate s) (s.latch.l - 1) = slotOf s 0 ∧
    (∀ j, j + 1 < s.latch.l → slotOf (ringRotate s) j = slotOf s (j + 1)) ∧
    (ringRotate s).ring = s.ring ∧ (ringRotate s).rstart.toNat < s.latch.l ∧
    ∀ y a, (∀ e, e < s.latch.w + 2 * s.latch.r → a ≠ key (slotOf s 0) e) →
      (ringAppend y (ringRotate s)).ring.read a = s.ring.read a

/-- R203 (R204, R205): the groups of a pass of length `n`: one masked group when `n < g`, else the aligned groups and,
when `n` is no multiple of `g`, the anchored one; their column ranges are exactly `[0, n)`. -/
def Obligations.GroupsCoverTheRow : Prop :=
  ∀ g n : Nat, 1 ≤ g → 1 ≤ n →
    (∀ o a, (o, a) ∈ groups g n ↔
      (n < g ∧ o = 0 ∧ a = n) ∨
      (g ≤ n ∧ a = g ∧ ((o % g = 0 ∧ o + g ≤ n) ∨ (n % g ≠ 0 ∧ o + g = n)))) ∧
    ∀ e, e < n ↔ ∃ o a, (o, a) ∈ groups g n ∧ o ≤ e ∧ e < o + a

/-- R206, R207, R208, R210: a grouped pass leaves what the scalar pass leaves, columns covered twice included. -/
def Obligations.GroupedPassesEqualScalarPasses : Prop :=
  (∀ (s : State) (a : Nat), (verticalGroups s).mid.read a = (verticalPass s).mid.read a) ∧
  ∀ (s : State) (y a : Nat), (horizontalGroups y s).dst.read a = (horizontalPass y s).dst.read a

/-- R154: a sum of up to `L` samples is at most 3825, of up to `L²` samples at most 57375, and so is a sum of up to `L` of
the first (the horizontal pass over `MID`); an accumulator holds each exactly: no partial sum of a command wraps. -/
def Obligations.SumsNeverWrap : Prop :=
  ∀ (r : Nat) (vs : List U8), r ≤ 7 →
    (vs.length ≤ 2 * r + 1 →
      (sum16 (vs.map zext16)).toNat = (vs.map BitVec.toNat).sum ∧ (vs.map BitVec.toNat).sum ≤ 3825) ∧
    (vs.length ≤ (2 * r + 1) * (2 * r + 1) →
      (sum16 (vs.map zext16)).toNat = (vs.map BitVec.toNat).sum ∧ (vs.map BitVec.toNat).sum ≤ 57375) ∧
    ∀ ms : List U16, ms.length ≤ 2 * r + 1 → (∀ m ∈ ms, m.toNat ≤ (2 * r + 1) * 255) →
      (sum16 ms).toNat = (ms.map BitVec.toNat).sum ∧ (ms.map BitVec.toNat).sum ≤ 57375

/-- R155: on the values of R154 addition is exact, and the order in which the samples are added does not affect the
sum. -/
def Obligations.SumOrderIsFree : Prop :=
  ∀ (r : Nat) (vs us : List U8), r ≤ 7 → vs.length ≤ (2 * r + 1) * (2 * r + 1) → vs.Perm us →
    (sum16 (vs.map zext16)).toNat = (vs.map BitVec.toNat).sum ∧ sum16 (us.map zext16) = sum16 (vs.map zext16)

/-- R156: the weight is in 1 to 225, and the stored value is the truncated quotient, exactly: the narrowing loses
nothing. -/
def Obligations.DivisionIsExact : Prop :=
  ∀ (r : Nat) (s : State) (sum : U16), r ≤ 7 → s.latch.wt = (2 * r + 1) * (2 * r + 1) →
    sum.toNat ≤ s.latch.wt * 255 →
    1 ≤ s.latch.wt ∧ s.latch.wt ≤ 225 ∧ (meanOf s sum).toNat = sum.toNat / s.latch.wt ∧ sum.toNat / s.latch.wt ≤ 255

/-! ### State across commands (spec/10_state.md R31, spec/20_memory.md R70, spec/60_exceptions.md R264) -/

/-- R31 (R292): hidden working state never influences a result: two states that differ in hidden state at most differ, after
the same command, in hidden state at most. -/
def Obligations.HiddenStateNeverInfluences : Prop :=
  ∀ (i : Instr) (s u : State), SameButHidden s u →
    ∃ t v, exec i s = .next t ∧ exec i u = .next v ∧ SameButHidden t v

/-- R264: the outcome of a command is a function of the operands and of what it reads: two states that agree on those end
with the same `STATUS` and, on success, the same result. -/
def Obligations.CommandsAreFunctionsOfTheirReadSet : Prop :=
  ∀ (i : Instr) (s u : State), i.WellFormed → s.status = 1 → u.status = 1 → SameReadSet i s u →
    ∃ t v, exec i s = .next t ∧ exec i u = .next v ∧ t.status = v.status ∧
      (t.status = 2 → SameResult i t v)

/-- R70, R87: no command changes the image, `HEIGHT`, `CMD`, the parameters or the agents around the block; the extenders
leave `DST` alone and the filters `EXT` and `ELEN`. -/
def Obligations.CommandsLeaveTheirOperandsAlone : Prop :=
  ∀ (i : Instr) (s t : State), exec i s = .next t →
    t.src = s.src ∧ t.slen = s.slen ∧ t.height = s.height ∧ t.cmd = s.cmd ∧ t.params = s.params ∧
    t.held = s.held ∧ t.script = s.script ∧ t.replies = s.replies ∧ t.schedule = s.schedule ∧ t.epoch = s.epoch ∧
    (∀ m, i = .ext1d m → t.dst = s.dst) ∧ (∀ hm vm, i = .ext2d hm vm → t.dst = s.dst) ∧
    (∀ r, isFilter i r → t.ext = s.ext ∧ t.elen = s.elen)

/-! ### The host's side (spec/10_state.md R40 to R48, spec/20_memory.md R70, R77, R84) -/

/-- R40: the offsets of the six registers, what they read after reset, that every register can be read, that `HEIGHT` and
`CMD` can be written, a write of `CMD` issuing the command, and that a write to a read-only register has no effect. -/
def Obligations.RegisterMap : Prop :=
  ([Reg.cap, .height, .cmd, .status, .outW, .outH].map Reg.offset = [0x00, 0x04, 0x08, 0x0C, 0x10, 0x14]) ∧
  (∀ (p : Config.Params), [Reg.height, .cmd, .status, .outW, .outH].map (regValue (State.resetOf p)) = [0, 0, 0, 0, 0] ∧
    regValue (State.resetOf p) .cap = capWord p) ∧
  (∀ (reg : Reg) (s : State), perform (.regRead reg) s =
    .next { s with replies := s.replies ++ [{ action := .regRead reg, value := (regValue s reg).toNat }] }) ∧
  (∀ (v : Word) (s : State), ∃ t, perform (.regWrite .height v) s = .next t ∧
    (regValue t .height).toNat = v.toNat % 2 ^ s.params.yw) ∧
  (∀ (v : Word) (s : State), ∃ t, perform (.regWrite .cmd v) s = .next t ∧ regValue t .cmd = v ∧ t.busy = true) ∧
  ∀ (reg : Reg) (v : Word) (s : State), reg ∈ [Reg.cap, .status, .outW, .outH] → perform (.regWrite reg v) s = .next s

/-- R41: the fields of `CAP`, its default value, and that it never changes. -/
def Obligations.CapIsConstant : Prop :=
  (∀ s : State,
    let v := (regValue s .cap).toNat
    v % 2 ^ 8 = s.params.xw ∧ v / 2 ^ 8 % 2 ^ 8 = s.params.yw ∧ v / 2 ^ 16 % 2 ^ 8 = s.params.log2g.val ∧
      v / 2 ^ 24 = 0x10) ∧
  regValue State.reset .cap = 0x10040C0C ∧
  ∀ s t : State, step s = .next t → regValue t .cap = regValue s .cap

/-- R77: a performed read changes nothing and, made again, returns the same; a performed write to `HEIGHT`, `SRC` or
`SLEN` changes only the register or element written, `HEIGHT` and `SLEN` keeping the low bits that exist (with R42, R48);
the one access with a side effect is the write to `CMD`, which issues a command. A read of a space or table in range
returns the element or entry (R47 to R51, R70, R71). -/
def Obligations.HostAccessesHaveNoSideEffect : Prop :=
  (∀ (a : HostAction) (s t : State), a.isRead = true → perform a s = .next t →
    ∃ v, t = answer a v s ∧ perform a t = .next (answer a v t)) ∧
  (∀ (a : HostAction) (v : Nat) (s : State),
    answer a v s = { s with replies := s.replies ++ [{ action := a, value := v }] }) ∧
  (∀ (y x : Nat) (s : State), y < 2 ^ s.params.yw → x < 2 ^ s.params.xw →
    perform (.memRead .src y x) s = .next (answer (.memRead .src y x) (srcAt s y x).toNat s) ∧
    perform (.memRead .dst y x) s = .next (answer (.memRead .dst y x) (dstAt s y x).toNat s)) ∧
  (∀ (y x : Nat) (s : State), y < s.params.erows → x < s.params.ecols →
    perform (.memRead .ext y x) s = .next (answer (.memRead .ext y x) (extAt s y x).toNat s)) ∧
  (∀ (y : Nat) (s : State), y < 2 ^ s.params.yw →
    perform (.tabRead .slen y) s = .next (answer (.tabRead .slen y) (slenAt s y) s)) ∧
  (∀ (y : Nat) (s : State), y < s.params.erows →
    perform (.tabRead .elen y) s = .next (answer (.tabRead .elen y) (elenAt s y) s)) ∧
  (∀ (c : Word) (s : State), perform (.regWrite .cmd c) s = .next (accept c s)) ∧
  (∀ (v : Word) (s : State), ∃ t, perform (.regWrite .height v) s = .next t ∧
    t.height.toNat = v.toNat % 2 ^ s.params.yw ∧ t = { s with height := t.height }) ∧
  (∀ (y x : Nat) (v : U8) (s : State), y < 2 ^ s.params.yw → x < 2 ^ s.params.xw →
    ∃ t, perform (.memWrite .src y x v) s = .next t ∧ srcAt t y x = v ∧
      (∀ a, a ≠ key y x → t.src.read a = s.src.read a) ∧ t = { s with src := t.src }) ∧
  ∀ (y : Nat) (v : Word) (s : State), y < 2 ^ s.params.yw →
    ∃ t, perform (.tabWrite .slen y v) s = .next t ∧ slenAt t y = v.toNat % 2 ^ s.params.xw ∧
      (∀ a, a ≠ y → t.slen.read a = s.slen.read a) ∧ t = { s with slen := t.slen }

/-- R70: a host write to `DST`, `EXT` or `ELEN` has no effect; R78 with U7: a read or write with an index outside its space
or table has no meaning, and the model stops by name (its own choice, log entry 12). -/
def Obligations.HostWritesOutsideTheHostsRights : Prop :=
  (∀ (y x : Nat) (s : State), y < 2 ^ s.params.yw → x < 2 ^ s.params.xw →
    ∀ v, perform (.memWrite .dst y x v) s = .next s) ∧
  (∀ (y x : Nat) (s : State), y < s.params.erows → x < s.params.ecols →
    ∀ v, perform (.memWrite .ext y x v) s = .next s) ∧
  (∀ (y : Nat) (s : State), y < s.params.erows → ∀ v, perform (.tabWrite .elen y v) s = .next s) ∧
  (∀ (y x : Nat) (s : State), 2 ^ s.params.yw ≤ y ∨ 2 ^ s.params.xw ≤ x →
    perform (.memRead .src y x) s = .refused .hostIndexOutOfRange ∧
    perform (.memRead .dst y x) s = .refused .hostIndexOutOfRange ∧
    (∀ v, perform (.memWrite .src y x v) s = .refused .hostIndexOutOfRange) ∧
    ∀ v, perform (.memWrite .dst y x v) s = .refused .hostIndexOutOfRange) ∧
  (∀ (y x : Nat) (s : State), s.params.erows ≤ y ∨ s.params.ecols ≤ x →
    perform (.memRead .ext y x) s = .refused .hostIndexOutOfRange ∧
    ∀ v, perform (.memWrite .ext y x v) s = .refused .hostIndexOutOfRange) ∧
  (∀ (y : Nat) (s : State), 2 ^ s.params.yw ≤ y →
    perform (.tabRead .slen y) s = .refused .hostIndexOutOfRange ∧
    ∀ v, perform (.tabWrite .slen y v) s = .refused .hostIndexOutOfRange) ∧
  ∀ (y : Nat) (s : State), s.params.erows ≤ y →
    perform (.tabRead .elen y) s = .refused .hostIndexOutOfRange ∧
    ∀ v, perform (.tabWrite .elen y v) s = .refused .hostIndexOutOfRange

/-- R84 (R80, R265): while the engine is busy, an action the host makes on its turn is held behind those already held, with
no effect, unless it is a register read, which is answered at once, held reads or not. When `BUSY` is 0 and actions are
held, the next step performs the oldest, whoever's turn it is, unless a reset comes first; no host action is made in
between. When `BUSY` is 0 and nothing is held, the host's next action is performed, none is dropped. An action made with
held ones left is queued behind them (log entry 10). A host that waits for its reads goes on when none is held (log
entry 9). -/
def Obligations.HoldRule : Prop :=
  (∀ (s : State) (a : HostAction) (rest : List Event), s.busy = true → s.script = .act a :: rest →
    s.schedule.head? = some .host → a.isRegRead = false →
    step s = .next { popTurn s with script := rest, held := s.held ++ [a] }) ∧
  (∀ (s : State) (reg : Reg) (rest : List Event), s.busy = true ∨ s.held = [] → s.script = .act (.regRead reg) :: rest →
    s.schedule.head? = some .host →
    step s = .next { popTurn s with
      script := rest, replies := s.replies ++ [{ action := .regRead reg, value := (regValue s reg).toNat }] }) ∧
  (∀ (s : State) (a : HostAction) (rest : List HostAction), Inv s → s.busy = false → s.held = a :: rest →
    (s.schedule.head? = some .host → s.script.head? ≠ some .reset) →
    step s = perform a { popTurn s with held := rest }) ∧
  (∀ (s : State) (a : HostAction) (rest : List Event), s.busy = false → s.held = [] → s.script = .act a :: rest →
    s.schedule.head? = some .host ∨ Inv s → step s = perform a { popTurn s with script := rest }) ∧
  (∀ (s : State) (a : HostAction), a.isRegRead = false → s.held ≠ [] →
    make a s = .next { s with held := s.held ++ [a] }) ∧
  ∀ (s : State) (rest : List Event), s.script = .await :: rest → s.schedule.head? = some .host →
    (s.busy = true ∨ s.held = [] → s.held.any HostAction.isRead = false →
      step s = .next { popTurn s with script := rest }) ∧
    (s.held.any HostAction.isRead = true → nextMove s ≠ .host)

/-- R85: while a command runs, a step that is the outside world's, and no reset, leaves everything but the held actions, the
script, the replies and the turns as it is; so no operand of a running command changes and no result is seen. -/
def Obligations.HostCannotDisturbARunningCommand : Prop :=
  ∀ s t : State, s.busy = true → nextMove s = .host → s.script.head? ≠ some .reset → step s = .next t →
    t = { s with held := t.held, script := t.script, replies := t.replies, schedule := t.schedule } ∧
      (∀ rep ∈ t.replies, rep ∈ s.replies ∨ rep.action.isRegRead = true)

/-! ### Reset and the invariant (spec/10_state.md R61, spec/70_reset_and_hazards.md) -/

/-- R61, R280: what reset leaves in the registers and the sequencer. -/
def Obligations.RegistersAfterReset : Prop :=
  ∀ p : Config.Params,
    let s := State.resetOf p
    s.height = 0 ∧ s.cmd = 0 ∧ s.status = 0 ∧ s.outW = 0 ∧ s.outH = 0 ∧ s.seq = { phase := .idle, y := 0 } ∧
      s.rstart = 0 ∧ s.params = p

/-- R280, R281: a reset event, also during a command: every register takes its reset value, `CAP` keeps its constant, the
engine is idle, held actions are dropped, and no element of a store keeps a value the host could rely on. -/
def Obligations.ResetEvent : Prop :=
  ∀ (s : State) (rest : List Event), s.script = .reset :: rest → s.schedule.head? = some .host →
    ∃ t, step s = .next t ∧ t.height = 0 ∧ t.cmd = 0 ∧ t.status = 0 ∧ t.outW = 0 ∧ t.outH = 0 ∧
      t.seq = { phase := .idle, y := 0 } ∧ t.rstart = 0 ∧ t.params = s.params ∧ t.held = [] ∧ t.script = rest ∧
      (∀ a, t.src.read a = none ∧ t.slen.read a = none ∧ t.dst.read a = none ∧ t.ext.read a = none ∧
        t.elen.read a = none ∧ t.xgrid.read a = none ∧ t.ring.read a = none ∧ t.mid.read a = none ∧
        t.acc.read a = none) ∧
      t.epoch ≠ s.epoch

/-- R283: commands issued right after reset, before the host has written anything. The last clause is the model's choice:
`EXT1D` reads the unspecified `SLEN[0]`, for which the model takes a free value (log entry 2), and ends as that decides. -/
def Obligations.CommandsRightAfterReset : Prop :=
  ∀ (p : Config.Params) (i : Instr), decode (encode i) = .ok i →
    (∀ r, isFilter i r → r < 0 ∨ 7 < r →
      ∃ t, step (issued (encode i) (State.resetOf p)) = .next t ∧ t.status = 0x26) ∧
    (∀ r, isFilter i r → 0 ≤ r → r ≤ 7 →
      ∃ t, step (issued (encode i) (State.resetOf p)) = .next t ∧ t.status = 0x36) ∧
    (∀ hm vm, i = .ext2d hm vm → ∃ t, step (issued (encode i) (State.resetOf p)) = .next t ∧ t.status = 0x16) ∧
    ∀ m, i = .ext1d m → 0 ≤ m →
      ∃ t, step (issued (encode i) (State.resetOf p)) = .next t ∧
        t.status = if slenAt (State.resetOf p) 0 = 0 then 0x16 else 2

/-- The invariant holds right after reset, for every instance. -/
def Obligations.ResetHasTheInvariant : Prop := ∀ p : Config.Params, Inv (State.resetOf p)

/-- Every step keeps the invariant: `STATUS` legal and in step with the sequencer (R52, R252), operands latched while a
loop runs (R53), every store canonical and inside its space (R79), no register read held (R84). -/
def Obligations.StepKeepsTheInvariant : Prop := ∀ s t : State, Inv s → step s = .next t → Inv t
end

