-- ==== Sys2Proof/Laws/Memory.lean ====
section
/-! SUPPORT. The laws of a store: a read after a write, what a row of writes leaves, and that every write keeps the
canonical form. -/

namespace Sys2Proof.Machine

variable {w : Nat}

@[simp] theorem Mem.read_nil (a : Nat) : Mem.read ([] : Mem w) a = none := rfl

/-- A read after a write to the same key gives the element written. -/
@[simp] theorem Mem.read_write_same (m : Mem w) (a : Nat) (v : BitVec w) : (Mem.write m a v).read a = some v := by
  induction m with
  | nil => simp [Mem.write, Mem.read]
  | cons p m ih =>
    obtain ⟨b, u⟩ := p
    simp only [Mem.write]
    split
    · simp [Mem.read]
    · split
      · simp [Mem.read]
      · rename_i _ hab
        simp [Mem.read, Ne.symm hab, ih]

/-- A write leaves every other key alone. -/
theorem Mem.read_write_other (m : Mem w) {a c : Nat} (v : BitVec w) (h : c ≠ a) :
    (Mem.write m a v).read c = m.read c := by
  induction m with
  | nil => simp [Mem.write, Mem.read, Ne.symm h]
  | cons p m ih =>
    obtain ⟨b, u⟩ := p
    simp only [Mem.write]
    split
    · simp [Mem.read, Ne.symm h]
    · split
      · rename_i _ hab
        subst hab
        simp [Mem.read, Ne.symm h]
      · simp only [Mem.read, ih]

/-- What a row of writes leaves at every key: the row's element inside it, the old one outside. -/
theorem Mem.read_writeRow (m : Mem w) (a : Nat) (vs : List (BitVec w)) (c : Nat) :
    (Mem.writeRow m a vs).read c = if h : a ≤ c ∧ c < a + vs.length then some (vs[c - a]'(by omega)) else m.read c := by
  induction vs generalizing m a with
  | nil => rw [dif_neg (by simp)]; rfl
  | cons v vs ih =>
    rw [Mem.writeRow, ih]
    by_cases hc : c = a
    · subst hc
      rw [dif_neg (by omega), dif_pos (by simp)]
      simp
    · by_cases hr : a + 1 ≤ c ∧ c < a + 1 + vs.length
      · rw [dif_pos hr, dif_pos (by simp; omega)]
        simp [List.getElem_cons, show c - a ≠ 0 by omega, show c - (a + 1) = c - a - 1 by omega]
      · rw [dif_neg hr, dif_neg (by simp; omega), Mem.read_write_other _ _ hc]

/-- Inside the row. -/
theorem Mem.read_writeRow_in (m : Mem w) (a : Nat) (vs : List (BitVec w)) {k : Nat} (h : k < vs.length) :
    (Mem.writeRow m a vs).read (a + k) = some vs[k] := by
  rw [Mem.read_writeRow, dif_pos (by omega)]
  simp

/-- Outside the row. -/
theorem Mem.read_writeRow_out (m : Mem w) (a : Nat) (vs : List (BitVec w)) {c : Nat}
    (h : ∀ k, k < vs.length → c ≠ a + k) : (Mem.writeRow m a vs).read c = m.read c := by
  rw [Mem.read_writeRow, dif_neg]
  intro hc
  exact h (c - a) (by omega) (by omega)

/-- Every entry of a written store is the new one or an old one. -/
theorem Mem.mem_write {m : Mem w} {a : Nat} {v : BitVec w} {p : Nat × BitVec w} (h : p ∈ Mem.write m a v) :
    p = (a, v) ∨ p ∈ m := by
  induction m with
  | nil => exact .inl (by simpa [Mem.write] using h)
  | cons q m ih =>
    obtain ⟨b, u⟩ := q
    simp only [Mem.write] at h
    split at h
    · simpa using h
    · split at h
      · rcases List.mem_cons.1 h with h | h
        · exact .inl h
        · exact .inr (List.mem_cons_of_mem _ h)
      · rcases List.mem_cons.1 h with h | h
        · exact .inr (by simp [h])
        · exact (ih h).imp id (List.mem_cons_of_mem _)

/-- Every entry of a store after a row of writes is one of the row or an old one. -/
theorem Mem.mem_writeRow {m : Mem w} {a : Nat} {vs : List (BitVec w)} {p : Nat × BitVec w}
    (h : p ∈ Mem.writeRow m a vs) : (∃ k, ∃ hk : k < vs.length, p = (a + k, vs[k])) ∨ p ∈ m := by
  induction vs generalizing m a with
  | nil => exact .inr h
  | cons v vs ih =>
    rcases ih h with ⟨k, hk, rfl⟩ | h
    · exact .inl ⟨k + 1, by simpa using hk, by simp; omega⟩
    · rcases Mem.mem_write h with rfl | h
      · exact .inl ⟨0, by simp, by simp⟩
      · exact .inr h

/-- The store of which nothing was written, which is every store after reset, is in canonical form. -/
theorem Mem.wf_nil : Mem.wf ([] : Mem w) := List.Pairwise.nil

/-- A write keeps the canonical form. -/
theorem Mem.wf_write {m : Mem w} (h : m.wf) (a : Nat) (v : BitVec w) : (Mem.write m a v).wf := by
  induction m with
  | nil => simp [Mem.write, Mem.wf]
  | cons p m ih =>
    obtain ⟨b, u⟩ := p
    obtain ⟨hb, hm⟩ := List.pairwise_cons.1 h
    simp only [Mem.write]
    split
    · rename_i hab
      refine List.pairwise_cons.2 ⟨fun q hq => ?_, h⟩
      rcases List.mem_cons.1 hq with rfl | hq
      · exact hab
      · exact Nat.lt_trans hab (hb q hq)
    · split
      · rename_i _ hab
        subst hab
        exact List.pairwise_cons.2 ⟨hb, hm⟩
      · refine List.pairwise_cons.2 ⟨fun q hq => ?_, ih hm⟩
        rcases Mem.mem_write hq with rfl | hq
        · show b < a
          omega
        · exact hb q hq

/-- A row of writes keeps the canonical form. -/
theorem Mem.wf_writeRow {m : Mem w} (h : m.wf) (a : Nat) (vs : List (BitVec w)) : (Mem.writeRow m a vs).wf := by
  induction vs generalizing m a with
  | nil => exact h
  | cons v vs ih => exact ih (Mem.wf_write h a v) (a + 1)

end Sys2Proof.Machine
end

