-- ==== Sys2Proof/Laws/State.lean ====
section
/-! SUPPORT. What each named update of State leaves in each field it does not compute from a store: one lemma per field
per update, so that no proof unfolds a record update. (The stores' new contents are in the other files of Laws.) -/

namespace Sys2Proof.Machine

@[simp] theorem accept_params (c : Word) (s : State) : (accept c s).params = s.params := rfl
@[simp] theorem accept_height (c : Word) (s : State) : (accept c s).height = s.height := rfl
@[simp] theorem accept_cmd (c : Word) (s : State) : (accept c s).cmd = c := rfl
@[simp] theorem accept_status (c : Word) (s : State) : (accept c s).status = statusAccepted := rfl
@[simp] theorem accept_outW (c : Word) (s : State) : (accept c s).outW = s.outW := rfl
@[simp] theorem accept_outH (c : Word) (s : State) : (accept c s).outH = s.outH := rfl
@[simp] theorem accept_src (c : Word) (s : State) : (accept c s).src = s.src := rfl
@[simp] theorem accept_slen (c : Word) (s : State) : (accept c s).slen = s.slen := rfl
@[simp] theorem accept_dst (c : Word) (s : State) : (accept c s).dst = s.dst := rfl
@[simp] theorem accept_ext (c : Word) (s : State) : (accept c s).ext = s.ext := rfl
@[simp] theorem accept_elen (c : Word) (s : State) : (accept c s).elen = s.elen := rfl
@[simp] theorem accept_seq (c : Word) (s : State) : (accept c s).seq = { phase := .check, y := 0 } := rfl
@[simp] theorem accept_latch (c : Word) (s : State) : (accept c s).latch = s.latch := rfl
@[simp] theorem accept_xgrid (c : Word) (s : State) : (accept c s).xgrid = s.xgrid := rfl
@[simp] theorem accept_ring (c : Word) (s : State) : (accept c s).ring = s.ring := rfl
@[simp] theorem accept_rstart (c : Word) (s : State) : (accept c s).rstart = s.rstart := rfl
@[simp] theorem accept_mid (c : Word) (s : State) : (accept c s).mid = s.mid := rfl
@[simp] theorem accept_acc (c : Word) (s : State) : (accept c s).acc = s.acc := rfl
@[simp] theorem accept_held (c : Word) (s : State) : (accept c s).held = s.held := rfl
@[simp] theorem accept_script (c : Word) (s : State) : (accept c s).script = s.script := rfl
@[simp] theorem accept_replies (c : Word) (s : State) : (accept c s).replies = s.replies := rfl
@[simp] theorem accept_schedule (c : Word) (s : State) : (accept c s).schedule = s.schedule := rfl
@[simp] theorem accept_epoch (c : Word) (s : State) : (accept c s).epoch = s.epoch := rfl

@[simp] theorem raiseErr_params (kind : ErrKind) (s : State) : (raiseErr kind s).params = s.params := rfl
@[simp] theorem raiseErr_height (kind : ErrKind) (s : State) : (raiseErr kind s).height = s.height := rfl
@[simp] theorem raiseErr_cmd (kind : ErrKind) (s : State) : (raiseErr kind s).cmd = s.cmd := rfl
@[simp] theorem raiseErr_status (kind : ErrKind) (s : State) : (raiseErr kind s).status = statusError kind := rfl
@[simp] theorem raiseErr_outW (kind : ErrKind) (s : State) : (raiseErr kind s).outW = s.outW := rfl
@[simp] theorem raiseErr_outH (kind : ErrKind) (s : State) : (raiseErr kind s).outH = s.outH := rfl
@[simp] theorem raiseErr_src (kind : ErrKind) (s : State) : (raiseErr kind s).src = s.src := rfl
@[simp] theorem raiseErr_slen (kind : ErrKind) (s : State) : (raiseErr kind s).slen = s.slen := rfl
@[simp] theorem raiseErr_dst (kind : ErrKind) (s : State) : (raiseErr kind s).dst = s.dst := rfl
@[simp] theorem raiseErr_ext (kind : ErrKind) (s : State) : (raiseErr kind s).ext = s.ext := rfl
@[simp] theorem raiseErr_elen (kind : ErrKind) (s : State) : (raiseErr kind s).elen = s.elen := rfl
@[simp] theorem raiseErr_seq (kind : ErrKind) (s : State) : (raiseErr kind s).seq = { phase := .idle, y := 0 } := rfl
@[simp] theorem raiseErr_latch (kind : ErrKind) (s : State) : (raiseErr kind s).latch = s.latch := rfl
@[simp] theorem raiseErr_xgrid (kind : ErrKind) (s : State) : (raiseErr kind s).xgrid = s.xgrid := rfl
@[simp] theorem raiseErr_ring (kind : ErrKind) (s : State) : (raiseErr kind s).ring = s.ring := rfl
@[simp] theorem raiseErr_rstart (kind : ErrKind) (s : State) : (raiseErr kind s).rstart = s.rstart := rfl
@[simp] theorem raiseErr_mid (kind : ErrKind) (s : State) : (raiseErr kind s).mid = s.mid := rfl
@[simp] theorem raiseErr_acc (kind : ErrKind) (s : State) : (raiseErr kind s).acc = s.acc := rfl
@[simp] theorem raiseErr_held (kind : ErrKind) (s : State) : (raiseErr kind s).held = s.held := rfl
@[simp] theorem raiseErr_script (kind : ErrKind) (s : State) : (raiseErr kind s).script = s.script := rfl
@[simp] theorem raiseErr_replies (kind : ErrKind) (s : State) : (raiseErr kind s).replies = s.replies := rfl
@[simp] theorem raiseErr_schedule (kind : ErrKind) (s : State) : (raiseErr kind s).schedule = s.schedule := rfl
@[simp] theorem raiseErr_epoch (kind : ErrKind) (s : State) : (raiseErr kind s).epoch = s.epoch := rfl

@[simp] theorem endOk_params (w h : Word) (s : State) : (endOk w h s).params = s.params := rfl
@[simp] theorem endOk_height (w h : Word) (s : State) : (endOk w h s).height = s.height := rfl
@[simp] theorem endOk_cmd (w h : Word) (s : State) : (endOk w h s).cmd = s.cmd := rfl
@[simp] theorem endOk_status (w h : Word) (s : State) : (endOk w h s).status = statusEnded s.status := rfl
@[simp] theorem endOk_outW (w h : Word) (s : State) : (endOk w h s).outW = w := rfl
@[simp] theorem endOk_outH (w h : Word) (s : State) : (endOk w h s).outH = h := rfl
@[simp] theorem endOk_src (w h : Word) (s : State) : (endOk w h s).src = s.src := rfl
@[simp] theorem endOk_slen (w h : Word) (s : State) : (endOk w h s).slen = s.slen := rfl
@[simp] theorem endOk_dst (w h : Word) (s : State) : (endOk w h s).dst = s.dst := rfl
@[simp] theorem endOk_ext (w h : Word) (s : State) : (endOk w h s).ext = s.ext := rfl
@[simp] theorem endOk_elen (w h : Word) (s : State) : (endOk w h s).elen = s.elen := rfl
@[simp] theorem endOk_seq (w h : Word) (s : State) : (endOk w h s).seq = { phase := .idle, y := 0 } := rfl
@[simp] theorem endOk_latch (w h : Word) (s : State) : (endOk w h s).latch = s.latch := rfl
@[simp] theorem endOk_xgrid (w h : Word) (s : State) : (endOk w h s).xgrid = s.xgrid := rfl
@[simp] theorem endOk_ring (w h : Word) (s : State) : (endOk w h s).ring = s.ring := rfl
@[simp] theorem endOk_rstart (w h : Word) (s : State) : (endOk w h s).rstart = s.rstart := rfl
@[simp] theorem endOk_mid (w h : Word) (s : State) : (endOk w h s).mid = s.mid := rfl
@[simp] theorem endOk_acc (w h : Word) (s : State) : (endOk w h s).acc = s.acc := rfl
@[simp] theorem endOk_held (w h : Word) (s : State) : (endOk w h s).held = s.held := rfl
@[simp] theorem endOk_script (w h : Word) (s : State) : (endOk w h s).script = s.script := rfl
@[simp] theorem endOk_replies (w h : Word) (s : State) : (endOk w h s).replies = s.replies := rfl
@[simp] theorem endOk_schedule (w h : Word) (s : State) : (endOk w h s).schedule = s.schedule := rfl
@[simp] theorem endOk_epoch (w h : Word) (s : State) : (endOk w h s).epoch = s.epoch := rfl

@[simp] theorem toRows_params (s : State) : (toRows s).params = s.params := rfl
@[simp] theorem toRows_height (s : State) : (toRows s).height = s.height := rfl
@[simp] theorem toRows_cmd (s : State) : (toRows s).cmd = s.cmd := rfl
@[simp] theorem toRows_status (s : State) : (toRows s).status = s.status := rfl
@[simp] theorem toRows_outW (s : State) : (toRows s).outW = s.outW := rfl
@[simp] theorem toRows_outH (s : State) : (toRows s).outH = s.outH := rfl
@[simp] theorem toRows_src (s : State) : (toRows s).src = s.src := rfl
@[simp] theorem toRows_slen (s : State) : (toRows s).slen = s.slen := rfl
@[simp] theorem toRows_dst (s : State) : (toRows s).dst = s.dst := rfl
@[simp] theorem toRows_ext (s : State) : (toRows s).ext = s.ext := rfl
@[simp] theorem toRows_elen (s : State) : (toRows s).elen = s.elen := rfl
@[simp] theorem toRows_seq (s : State) : (toRows s).seq = { phase := .row, y := 0 } := rfl
@[simp] theorem toRows_latch (s : State) : (toRows s).latch = s.latch := rfl
@[simp] theorem toRows_xgrid (s : State) : (toRows s).xgrid = s.xgrid := rfl
@[simp] theorem toRows_ring (s : State) : (toRows s).ring = s.ring := rfl
@[simp] theorem toRows_rstart (s : State) : (toRows s).rstart = s.rstart := rfl
@[simp] theorem toRows_mid (s : State) : (toRows s).mid = s.mid := rfl
@[simp] theorem toRows_acc (s : State) : (toRows s).acc = s.acc := rfl
@[simp] theorem toRows_held (s : State) : (toRows s).held = s.held := rfl
@[simp] theorem toRows_script (s : State) : (toRows s).script = s.script := rfl
@[simp] theorem toRows_replies (s : State) : (toRows s).replies = s.replies := rfl
@[simp] theorem toRows_schedule (s : State) : (toRows s).schedule = s.schedule := rfl
@[simp] theorem toRows_epoch (s : State) : (toRows s).epoch = s.epoch := rfl

@[simp] theorem popTurn_params (s : State) : (popTurn s).params = s.params := rfl
@[simp] theorem popTurn_height (s : State) : (popTurn s).height = s.height := rfl
@[simp] theorem popTurn_cmd (s : State) : (popTurn s).cmd = s.cmd := rfl
@[simp] theorem popTurn_status (s : State) : (popTurn s).status = s.status := rfl
@[simp] theorem popTurn_outW (s : State) : (popTurn s).outW = s.outW := rfl
@[simp] theorem popTurn_outH (s : State) : (popTurn s).outH = s.outH := rfl
@[simp] theorem popTurn_src (s : State) : (popTurn s).src = s.src := rfl
@[simp] theorem popTurn_slen (s : State) : (popTurn s).slen = s.slen := rfl
@[simp] theorem popTurn_dst (s : State) : (popTurn s).dst = s.dst := rfl
@[simp] theorem popTurn_ext (s : State) : (popTurn s).ext = s.ext := rfl
@[simp] theorem popTurn_elen (s : State) : (popTurn s).elen = s.elen := rfl
@[simp] theorem popTurn_seq (s : State) : (popTurn s).seq = s.seq := rfl
@[simp] theorem popTurn_latch (s : State) : (popTurn s).latch = s.latch := rfl
@[simp] theorem popTurn_xgrid (s : State) : (popTurn s).xgrid = s.xgrid := rfl
@[simp] theorem popTurn_ring (s : State) : (popTurn s).ring = s.ring := rfl
@[simp] theorem popTurn_rstart (s : State) : (popTurn s).rstart = s.rstart := rfl
@[simp] theorem popTurn_mid (s : State) : (popTurn s).mid = s.mid := rfl
@[simp] theorem popTurn_acc (s : State) : (popTurn s).acc = s.acc := rfl
@[simp] theorem popTurn_held (s : State) : (popTurn s).held = s.held := rfl
@[simp] theorem popTurn_script (s : State) : (popTurn s).script = s.script := rfl
@[simp] theorem popTurn_replies (s : State) : (popTurn s).replies = s.replies := rfl
@[simp] theorem popTurn_schedule (s : State) : (popTurn s).schedule = s.schedule.tail := rfl
@[simp] theorem popTurn_epoch (s : State) : (popTurn s).epoch = s.epoch := rfl

@[simp] theorem answer_params (a : HostAction) (v : Nat) (s : State) : (answer a v s).params = s.params := rfl
@[simp] theorem answer_height (a : HostAction) (v : Nat) (s : State) : (answer a v s).height = s.height := rfl
@[simp] theorem answer_cmd (a : HostAction) (v : Nat) (s : State) : (answer a v s).cmd = s.cmd := rfl
@[simp] theorem answer_status (a : HostAction) (v : Nat) (s : State) : (answer a v s).status = s.status := rfl
@[simp] theorem answer_outW (a : HostAction) (v : Nat) (s : State) : (answer a v s).outW = s.outW := rfl
@[simp] theorem answer_outH (a : HostAction) (v : Nat) (s : State) : (answer a v s).outH = s.outH := rfl
@[simp] theorem answer_src (a : HostAction) (v : Nat) (s : State) : (answer a v s).src = s.src := rfl
@[simp] theorem answer_slen (a : HostAction) (v : Nat) (s : State) : (answer a v s).slen = s.slen := rfl
@[simp] theorem answer_dst (a : HostAction) (v : Nat) (s : State) : (answer a v s).dst = s.dst := rfl
@[simp] theorem answer_ext (a : HostAction) (v : Nat) (s : State) : (answer a v s).ext = s.ext := rfl
@[simp] theorem answer_elen (a : HostAction) (v : Nat) (s : State) : (answer a v s).elen = s.elen := rfl
@[simp] theorem answer_seq (a : HostAction) (v : Nat) (s : State) : (answer a v s).seq = s.seq := rfl
@[simp] theorem answer_latch (a : HostAction) (v : Nat) (s : State) : (answer a v s).latch = s.latch := rfl
@[simp] theorem answer_xgrid (a : HostAction) (v : Nat) (s : State) : (answer a v s).xgrid = s.xgrid := rfl
@[simp] theorem answer_ring (a : HostAction) (v : Nat) (s : State) : (answer a v s).ring = s.ring := rfl
@[simp] theorem answer_rstart (a : HostAction) (v : Nat) (s : State) : (answer a v s).rstart = s.rstart := rfl
@[simp] theorem answer_mid (a : HostAction) (v : Nat) (s : State) : (answer a v s).mid = s.mid := rfl
@[simp] theorem answer_acc (a : HostAction) (v : Nat) (s : State) : (answer a v s).acc = s.acc := rfl
@[simp] theorem answer_held (a : HostAction) (v : Nat) (s : State) : (answer a v s).held = s.held := rfl
@[simp] theorem answer_script (a : HostAction) (v : Nat) (s : State) : (answer a v s).script = s.script := rfl
@[simp] theorem answer_replies (a : HostAction) (v : Nat) (s : State) : (answer a v s).replies = s.replies ++ [{ action := a, value := v }] := rfl
@[simp] theorem answer_schedule (a : HostAction) (v : Nat) (s : State) : (answer a v s).schedule = s.schedule := rfl
@[simp] theorem answer_epoch (a : HostAction) (v : Nat) (s : State) : (answer a v s).epoch = s.epoch := rfl

@[simp] theorem ringStart_params (s : State) : (ringStart s).params = s.params := rfl
@[simp] theorem ringStart_height (s : State) : (ringStart s).height = s.height := rfl
@[simp] theorem ringStart_cmd (s : State) : (ringStart s).cmd = s.cmd := rfl
@[simp] theorem ringStart_status (s : State) : (ringStart s).status = s.status := rfl
@[simp] theorem ringStart_outW (s : State) : (ringStart s).outW = s.outW := rfl
@[simp] theorem ringStart_outH (s : State) : (ringStart s).outH = s.outH := rfl
@[simp] theorem ringStart_src (s : State) : (ringStart s).src = s.src := rfl
@[simp] theorem ringStart_slen (s : State) : (ringStart s).slen = s.slen := rfl
@[simp] theorem ringStart_dst (s : State) : (ringStart s).dst = s.dst := rfl
@[simp] theorem ringStart_ext (s : State) : (ringStart s).ext = s.ext := rfl
@[simp] theorem ringStart_elen (s : State) : (ringStart s).elen = s.elen := rfl
@[simp] theorem ringStart_seq (s : State) : (ringStart s).seq = s.seq := rfl
@[simp] theorem ringStart_latch (s : State) : (ringStart s).latch = s.latch := rfl
@[simp] theorem ringStart_xgrid (s : State) : (ringStart s).xgrid = s.xgrid := rfl
@[simp] theorem ringStart_ring (s : State) : (ringStart s).ring = s.ring := rfl
@[simp] theorem ringStart_rstart (s : State) : (ringStart s).rstart = 0 := rfl
@[simp] theorem ringStart_mid (s : State) : (ringStart s).mid = s.mid := rfl
@[simp] theorem ringStart_acc (s : State) : (ringStart s).acc = s.acc := rfl
@[simp] theorem ringStart_held (s : State) : (ringStart s).held = s.held := rfl
@[simp] theorem ringStart_script (s : State) : (ringStart s).script = s.script := rfl
@[simp] theorem ringStart_replies (s : State) : (ringStart s).replies = s.replies := rfl
@[simp] theorem ringStart_schedule (s : State) : (ringStart s).schedule = s.schedule := rfl
@[simp] theorem ringStart_epoch (s : State) : (ringStart s).epoch = s.epoch := rfl

@[simp] theorem ringRotate_params (s : State) : (ringRotate s).params = s.params := rfl
@[simp] theorem ringRotate_height (s : State) : (ringRotate s).height = s.height := rfl
@[simp] theorem ringRotate_cmd (s : State) : (ringRotate s).cmd = s.cmd := rfl
@[simp] theorem ringRotate_status (s : State) : (ringRotate s).status = s.status := rfl
@[simp] theorem ringRotate_outW (s : State) : (ringRotate s).outW = s.outW := rfl
@[simp] theorem ringRotate_outH (s : State) : (ringRotate s).outH = s.outH := rfl
@[simp] theorem ringRotate_src (s : State) : (ringRotate s).src = s.src := rfl
@[simp] theorem ringRotate_slen (s : State) : (ringRotate s).slen = s.slen := rfl
@[simp] theorem ringRotate_dst (s : State) : (ringRotate s).dst = s.dst := rfl
@[simp] theorem ringRotate_ext (s : State) : (ringRotate s).ext = s.ext := rfl
@[simp] theorem ringRotate_elen (s : State) : (ringRotate s).elen = s.elen := rfl
@[simp] theorem ringRotate_seq (s : State) : (ringRotate s).seq = s.seq := rfl
@[simp] theorem ringRotate_latch (s : State) : (ringRotate s).latch = s.latch := rfl
@[simp] theorem ringRotate_xgrid (s : State) : (ringRotate s).xgrid = s.xgrid := rfl
@[simp] theorem ringRotate_ring (s : State) : (ringRotate s).ring = s.ring := rfl
@[simp] theorem ringRotate_rstart (s : State) : (ringRotate s).rstart = BitVec.ofNat 4 ((s.rstart.toNat + 1) % s.latch.l) := rfl
@[simp] theorem ringRotate_mid (s : State) : (ringRotate s).mid = s.mid := rfl
@[simp] theorem ringRotate_acc (s : State) : (ringRotate s).acc = s.acc := rfl
@[simp] theorem ringRotate_held (s : State) : (ringRotate s).held = s.held := rfl
@[simp] theorem ringRotate_script (s : State) : (ringRotate s).script = s.script := rfl
@[simp] theorem ringRotate_replies (s : State) : (ringRotate s).replies = s.replies := rfl
@[simp] theorem ringRotate_schedule (s : State) : (ringRotate s).schedule = s.schedule := rfl
@[simp] theorem ringRotate_epoch (s : State) : (ringRotate s).epoch = s.epoch := rfl

@[simp] theorem ringFill_params (k : Nat) (s : State) : (ringFill k s).params = s.params := rfl
@[simp] theorem ringFill_height (k : Nat) (s : State) : (ringFill k s).height = s.height := rfl
@[simp] theorem ringFill_cmd (k : Nat) (s : State) : (ringFill k s).cmd = s.cmd := rfl
@[simp] theorem ringFill_status (k : Nat) (s : State) : (ringFill k s).status = s.status := rfl
@[simp] theorem ringFill_outW (k : Nat) (s : State) : (ringFill k s).outW = s.outW := rfl
@[simp] theorem ringFill_outH (k : Nat) (s : State) : (ringFill k s).outH = s.outH := rfl
@[simp] theorem ringFill_src (k : Nat) (s : State) : (ringFill k s).src = s.src := rfl
@[simp] theorem ringFill_slen (k : Nat) (s : State) : (ringFill k s).slen = s.slen := rfl
@[simp] theorem ringFill_dst (k : Nat) (s : State) : (ringFill k s).dst = s.dst := rfl
@[simp] theorem ringFill_ext (k : Nat) (s : State) : (ringFill k s).ext = s.ext := rfl
@[simp] theorem ringFill_elen (k : Nat) (s : State) : (ringFill k s).elen = s.elen := rfl
@[simp] theorem ringFill_seq (k : Nat) (s : State) : (ringFill k s).seq = s.seq := rfl
@[simp] theorem ringFill_latch (k : Nat) (s : State) : (ringFill k s).latch = s.latch := rfl
@[simp] theorem ringFill_xgrid (k : Nat) (s : State) : (ringFill k s).xgrid = s.xgrid := rfl
@[simp] theorem ringFill_rstart (k : Nat) (s : State) : (ringFill k s).rstart = s.rstart := rfl
@[simp] theorem ringFill_mid (k : Nat) (s : State) : (ringFill k s).mid = s.mid := rfl
@[simp] theorem ringFill_acc (k : Nat) (s : State) : (ringFill k s).acc = s.acc := rfl
@[simp] theorem ringFill_held (k : Nat) (s : State) : (ringFill k s).held = s.held := rfl
@[simp] theorem ringFill_script (k : Nat) (s : State) : (ringFill k s).script = s.script := rfl
@[simp] theorem ringFill_replies (k : Nat) (s : State) : (ringFill k s).replies = s.replies := rfl
@[simp] theorem ringFill_schedule (k : Nat) (s : State) : (ringFill k s).schedule = s.schedule := rfl
@[simp] theorem ringFill_epoch (k : Nat) (s : State) : (ringFill k s).epoch = s.epoch := rfl

@[simp] theorem ringAppend_params (y : Nat) (s : State) : (ringAppend y s).params = s.params := rfl
@[simp] theorem ringAppend_height (y : Nat) (s : State) : (ringAppend y s).height = s.height := rfl
@[simp] theorem ringAppend_cmd (y : Nat) (s : State) : (ringAppend y s).cmd = s.cmd := rfl
@[simp] theorem ringAppend_status (y : Nat) (s : State) : (ringAppend y s).status = s.status := rfl
@[simp] theorem ringAppend_outW (y : Nat) (s : State) : (ringAppend y s).outW = s.outW := rfl
@[simp] theorem ringAppend_outH (y : Nat) (s : State) : (ringAppend y s).outH = s.outH := rfl
@[simp] theorem ringAppend_src (y : Nat) (s : State) : (ringAppend y s).src = s.src := rfl
@[simp] theorem ringAppend_slen (y : Nat) (s : State) : (ringAppend y s).slen = s.slen := rfl
@[simp] theorem ringAppend_dst (y : Nat) (s : State) : (ringAppend y s).dst = s.dst := rfl
@[simp] theorem ringAppend_ext (y : Nat) (s : State) : (ringAppend y s).ext = s.ext := rfl
@[simp] theorem ringAppend_elen (y : Nat) (s : State) : (ringAppend y s).elen = s.elen := rfl
@[simp] theorem ringAppend_seq (y : Nat) (s : State) : (ringAppend y s).seq = s.seq := rfl
@[simp] theorem ringAppend_latch (y : Nat) (s : State) : (ringAppend y s).latch = s.latch := rfl
@[simp] theorem ringAppend_xgrid (y : Nat) (s : State) : (ringAppend y s).xgrid = s.xgrid := rfl
@[simp] theorem ringAppend_rstart (y : Nat) (s : State) : (ringAppend y s).rstart = s.rstart := rfl
@[simp] theorem ringAppend_mid (y : Nat) (s : State) : (ringAppend y s).mid = s.mid := rfl
@[simp] theorem ringAppend_acc (y : Nat) (s : State) : (ringAppend y s).acc = s.acc := rfl
@[simp] theorem ringAppend_held (y : Nat) (s : State) : (ringAppend y s).held = s.held := rfl
@[simp] theorem ringAppend_script (y : Nat) (s : State) : (ringAppend y s).script = s.script := rfl
@[simp] theorem ringAppend_replies (y : Nat) (s : State) : (ringAppend y s).replies = s.replies := rfl
@[simp] theorem ringAppend_schedule (y : Nat) (s : State) : (ringAppend y s).schedule = s.schedule := rfl
@[simp] theorem ringAppend_epoch (y : Nat) (s : State) : (ringAppend y s).epoch = s.epoch := rfl

@[simp] theorem verticalPass_params (s : State) : (verticalPass s).params = s.params := rfl
@[simp] theorem verticalPass_height (s : State) : (verticalPass s).height = s.height := rfl
@[simp] theorem verticalPass_cmd (s : State) : (verticalPass s).cmd = s.cmd := rfl
@[simp] theorem verticalPass_status (s : State) : (verticalPass s).status = s.status := rfl
@[simp] theorem verticalPass_outW (s : State) : (verticalPass s).outW = s.outW := rfl
@[simp] theorem verticalPass_outH (s : State) : (verticalPass s).outH = s.outH := rfl
@[simp] theorem verticalPass_src (s : State) : (verticalPass s).src = s.src := rfl
@[simp] theorem verticalPass_slen (s : State) : (verticalPass s).slen = s.slen := rfl
@[simp] theorem verticalPass_dst (s : State) : (verticalPass s).dst = s.dst := rfl
@[simp] theorem verticalPass_ext (s : State) : (verticalPass s).ext = s.ext := rfl
@[simp] theorem verticalPass_elen (s : State) : (verticalPass s).elen = s.elen := rfl
@[simp] theorem verticalPass_seq (s : State) : (verticalPass s).seq = s.seq := rfl
@[simp] theorem verticalPass_latch (s : State) : (verticalPass s).latch = s.latch := rfl
@[simp] theorem verticalPass_xgrid (s : State) : (verticalPass s).xgrid = s.xgrid := rfl
@[simp] theorem verticalPass_ring (s : State) : (verticalPass s).ring = s.ring := rfl
@[simp] theorem verticalPass_rstart (s : State) : (verticalPass s).rstart = s.rstart := rfl
@[simp] theorem verticalPass_acc (s : State) : (verticalPass s).acc = s.acc := rfl
@[simp] theorem verticalPass_held (s : State) : (verticalPass s).held = s.held := rfl
@[simp] theorem verticalPass_script (s : State) : (verticalPass s).script = s.script := rfl
@[simp] theorem verticalPass_replies (s : State) : (verticalPass s).replies = s.replies := rfl
@[simp] theorem verticalPass_schedule (s : State) : (verticalPass s).schedule = s.schedule := rfl
@[simp] theorem verticalPass_epoch (s : State) : (verticalPass s).epoch = s.epoch := rfl

@[simp] theorem horizontalPass_params (y : Nat) (s : State) : (horizontalPass y s).params = s.params := rfl
@[simp] theorem horizontalPass_height (y : Nat) (s : State) : (horizontalPass y s).height = s.height := rfl
@[simp] theorem horizontalPass_cmd (y : Nat) (s : State) : (horizontalPass y s).cmd = s.cmd := rfl
@[simp] theorem horizontalPass_status (y : Nat) (s : State) : (horizontalPass y s).status = s.status := rfl
@[simp] theorem horizontalPass_outW (y : Nat) (s : State) : (horizontalPass y s).outW = s.outW := rfl
@[simp] theorem horizontalPass_outH (y : Nat) (s : State) : (horizontalPass y s).outH = s.outH := rfl
@[simp] theorem horizontalPass_src (y : Nat) (s : State) : (horizontalPass y s).src = s.src := rfl
@[simp] theorem horizontalPass_slen (y : Nat) (s : State) : (horizontalPass y s).slen = s.slen := rfl
@[simp] theorem horizontalPass_ext (y : Nat) (s : State) : (horizontalPass y s).ext = s.ext := rfl
@[simp] theorem horizontalPass_elen (y : Nat) (s : State) : (horizontalPass y s).elen = s.elen := rfl
@[simp] theorem horizontalPass_seq (y : Nat) (s : State) : (horizontalPass y s).seq = s.seq := rfl
@[simp] theorem horizontalPass_latch (y : Nat) (s : State) : (horizontalPass y s).latch = s.latch := rfl
@[simp] theorem horizontalPass_xgrid (y : Nat) (s : State) : (horizontalPass y s).xgrid = s.xgrid := rfl
@[simp] theorem horizontalPass_ring (y : Nat) (s : State) : (horizontalPass y s).ring = s.ring := rfl
@[simp] theorem horizontalPass_rstart (y : Nat) (s : State) : (horizontalPass y s).rstart = s.rstart := rfl
@[simp] theorem horizontalPass_mid (y : Nat) (s : State) : (horizontalPass y s).mid = s.mid := rfl
@[simp] theorem horizontalPass_acc (y : Nat) (s : State) : (horizontalPass y s).acc = s.acc := rfl
@[simp] theorem horizontalPass_held (y : Nat) (s : State) : (horizontalPass y s).held = s.held := rfl
@[simp] theorem horizontalPass_script (y : Nat) (s : State) : (horizontalPass y s).script = s.script := rfl
@[simp] theorem horizontalPass_replies (y : Nat) (s : State) : (horizontalPass y s).replies = s.replies := rfl
@[simp] theorem horizontalPass_schedule (y : Nat) (s : State) : (horizontalPass y s).schedule = s.schedule := rfl
@[simp] theorem horizontalPass_epoch (y : Nat) (s : State) : (horizontalPass y s).epoch = s.epoch := rfl

@[simp] theorem naiveFill_params (j : Nat) (s : State) : (naiveFill j s).params = s.params := rfl
@[simp] theorem naiveFill_height (j : Nat) (s : State) : (naiveFill j s).height = s.height := rfl
@[simp] theorem naiveFill_cmd (j : Nat) (s : State) : (naiveFill j s).cmd = s.cmd := rfl
@[simp] theorem naiveFill_status (j : Nat) (s : State) : (naiveFill j s).status = s.status := rfl
@[simp] theorem naiveFill_outW (j : Nat) (s : State) : (naiveFill j s).outW = s.outW := rfl
@[simp] theorem naiveFill_outH (j : Nat) (s : State) : (naiveFill j s).outH = s.outH := rfl
@[simp] theorem naiveFill_src (j : Nat) (s : State) : (naiveFill j s).src = s.src := rfl
@[simp] theorem naiveFill_slen (j : Nat) (s : State) : (naiveFill j s).slen = s.slen := rfl
@[simp] theorem naiveFill_dst (j : Nat) (s : State) : (naiveFill j s).dst = s.dst := rfl
@[simp] theorem naiveFill_ext (j : Nat) (s : State) : (naiveFill j s).ext = s.ext := rfl
@[simp] theorem naiveFill_elen (j : Nat) (s : State) : (naiveFill j s).elen = s.elen := rfl
@[simp] theorem naiveFill_seq (j : Nat) (s : State) : (naiveFill j s).seq = s.seq := rfl
@[simp] theorem naiveFill_latch (j : Nat) (s : State) : (naiveFill j s).latch = s.latch := rfl
@[simp] theorem naiveFill_ring (j : Nat) (s : State) : (naiveFill j s).ring = s.ring := rfl
@[simp] theorem naiveFill_rstart (j : Nat) (s : State) : (naiveFill j s).rstart = s.rstart := rfl
@[simp] theorem naiveFill_mid (j : Nat) (s : State) : (naiveFill j s).mid = s.mid := rfl
@[simp] theorem naiveFill_acc (j : Nat) (s : State) : (naiveFill j s).acc = s.acc := rfl
@[simp] theorem naiveFill_held (j : Nat) (s : State) : (naiveFill j s).held = s.held := rfl
@[simp] theorem naiveFill_script (j : Nat) (s : State) : (naiveFill j s).script = s.script := rfl
@[simp] theorem naiveFill_replies (j : Nat) (s : State) : (naiveFill j s).replies = s.replies := rfl
@[simp] theorem naiveFill_schedule (j : Nat) (s : State) : (naiveFill j s).schedule = s.schedule := rfl
@[simp] theorem naiveFill_epoch (j : Nat) (s : State) : (naiveFill j s).epoch = s.epoch := rfl

@[simp] theorem naiveRow_params (y : Nat) (s : State) : (naiveRow y s).params = s.params := rfl
@[simp] theorem naiveRow_height (y : Nat) (s : State) : (naiveRow y s).height = s.height := rfl
@[simp] theorem naiveRow_cmd (y : Nat) (s : State) : (naiveRow y s).cmd = s.cmd := rfl
@[simp] theorem naiveRow_status (y : Nat) (s : State) : (naiveRow y s).status = s.status := rfl
@[simp] theorem naiveRow_outW (y : Nat) (s : State) : (naiveRow y s).outW = s.outW := rfl
@[simp] theorem naiveRow_outH (y : Nat) (s : State) : (naiveRow y s).outH = s.outH := rfl
@[simp] theorem naiveRow_src (y : Nat) (s : State) : (naiveRow y s).src = s.src := rfl
@[simp] theorem naiveRow_slen (y : Nat) (s : State) : (naiveRow y s).slen = s.slen := rfl
@[simp] theorem naiveRow_ext (y : Nat) (s : State) : (naiveRow y s).ext = s.ext := rfl
@[simp] theorem naiveRow_elen (y : Nat) (s : State) : (naiveRow y s).elen = s.elen := rfl
@[simp] theorem naiveRow_seq (y : Nat) (s : State) : (naiveRow y s).seq = s.seq := rfl
@[simp] theorem naiveRow_latch (y : Nat) (s : State) : (naiveRow y s).latch = s.latch := rfl
@[simp] theorem naiveRow_xgrid (y : Nat) (s : State) : (naiveRow y s).xgrid = s.xgrid := rfl
@[simp] theorem naiveRow_ring (y : Nat) (s : State) : (naiveRow y s).ring = s.ring := rfl
@[simp] theorem naiveRow_rstart (y : Nat) (s : State) : (naiveRow y s).rstart = s.rstart := rfl
@[simp] theorem naiveRow_mid (y : Nat) (s : State) : (naiveRow y s).mid = s.mid := rfl
@[simp] theorem naiveRow_acc (y : Nat) (s : State) : (naiveRow y s).acc = s.acc := rfl
@[simp] theorem naiveRow_held (y : Nat) (s : State) : (naiveRow y s).held = s.held := rfl
@[simp] theorem naiveRow_script (y : Nat) (s : State) : (naiveRow y s).script = s.script := rfl
@[simp] theorem naiveRow_replies (y : Nat) (s : State) : (naiveRow y s).replies = s.replies := rfl
@[simp] theorem naiveRow_schedule (y : Nat) (s : State) : (naiveRow y s).schedule = s.schedule := rfl
@[simp] theorem naiveRow_epoch (y : Nat) (s : State) : (naiveRow y s).epoch = s.epoch := rfl

@[simp] theorem ext1dFill_params (k : Nat) (s : State) : (ext1dFill k s).params = s.params := rfl
@[simp] theorem ext1dFill_height (k : Nat) (s : State) : (ext1dFill k s).height = s.height := rfl
@[simp] theorem ext1dFill_cmd (k : Nat) (s : State) : (ext1dFill k s).cmd = s.cmd := rfl
@[simp] theorem ext1dFill_status (k : Nat) (s : State) : (ext1dFill k s).status = s.status := rfl
@[simp] theorem ext1dFill_outW (k : Nat) (s : State) : (ext1dFill k s).outW = s.outW := rfl
@[simp] theorem ext1dFill_outH (k : Nat) (s : State) : (ext1dFill k s).outH = s.outH := rfl
@[simp] theorem ext1dFill_src (k : Nat) (s : State) : (ext1dFill k s).src = s.src := rfl
@[simp] theorem ext1dFill_slen (k : Nat) (s : State) : (ext1dFill k s).slen = s.slen := rfl
@[simp] theorem ext1dFill_dst (k : Nat) (s : State) : (ext1dFill k s).dst = s.dst := rfl
@[simp] theorem ext1dFill_seq (k : Nat) (s : State) : (ext1dFill k s).seq = s.seq := rfl
@[simp] theorem ext1dFill_latch (k : Nat) (s : State) : (ext1dFill k s).latch = s.latch := rfl
@[simp] theorem ext1dFill_xgrid (k : Nat) (s : State) : (ext1dFill k s).xgrid = s.xgrid := rfl
@[simp] theorem ext1dFill_ring (k : Nat) (s : State) : (ext1dFill k s).ring = s.ring := rfl
@[simp] theorem ext1dFill_rstart (k : Nat) (s : State) : (ext1dFill k s).rstart = s.rstart := rfl
@[simp] theorem ext1dFill_mid (k : Nat) (s : State) : (ext1dFill k s).mid = s.mid := rfl
@[simp] theorem ext1dFill_acc (k : Nat) (s : State) : (ext1dFill k s).acc = s.acc := rfl
@[simp] theorem ext1dFill_held (k : Nat) (s : State) : (ext1dFill k s).held = s.held := rfl
@[simp] theorem ext1dFill_script (k : Nat) (s : State) : (ext1dFill k s).script = s.script := rfl
@[simp] theorem ext1dFill_replies (k : Nat) (s : State) : (ext1dFill k s).replies = s.replies := rfl
@[simp] theorem ext1dFill_schedule (k : Nat) (s : State) : (ext1dFill k s).schedule = s.schedule := rfl
@[simp] theorem ext1dFill_epoch (k : Nat) (s : State) : (ext1dFill k s).epoch = s.epoch := rfl

@[simp] theorem ext2dFill_params (j : Nat) (s : State) : (ext2dFill j s).params = s.params := rfl
@[simp] theorem ext2dFill_height (j : Nat) (s : State) : (ext2dFill j s).height = s.height := rfl
@[simp] theorem ext2dFill_cmd (j : Nat) (s : State) : (ext2dFill j s).cmd = s.cmd := rfl
@[simp] theorem ext2dFill_status (j : Nat) (s : State) : (ext2dFill j s).status = s.status := rfl
@[simp] theorem ext2dFill_outW (j : Nat) (s : State) : (ext2dFill j s).outW = s.outW := rfl
@[simp] theorem ext2dFill_outH (j : Nat) (s : State) : (ext2dFill j s).outH = s.outH := rfl
@[simp] theorem ext2dFill_src (j : Nat) (s : State) : (ext2dFill j s).src = s.src := rfl
@[simp] theorem ext2dFill_slen (j : Nat) (s : State) : (ext2dFill j s).slen = s.slen := rfl
@[simp] theorem ext2dFill_dst (j : Nat) (s : State) : (ext2dFill j s).dst = s.dst := rfl
@[simp] theorem ext2dFill_seq (j : Nat) (s : State) : (ext2dFill j s).seq = s.seq := rfl
@[simp] theorem ext2dFill_latch (j : Nat) (s : State) : (ext2dFill j s).latch = s.latch := rfl
@[simp] theorem ext2dFill_xgrid (j : Nat) (s : State) : (ext2dFill j s).xgrid = s.xgrid := rfl
@[simp] theorem ext2dFill_ring (j : Nat) (s : State) : (ext2dFill j s).ring = s.ring := rfl
@[simp] theorem ext2dFill_rstart (j : Nat) (s : State) : (ext2dFill j s).rstart = s.rstart := rfl
@[simp] theorem ext2dFill_mid (j : Nat) (s : State) : (ext2dFill j s).mid = s.mid := rfl
@[simp] theorem ext2dFill_acc (j : Nat) (s : State) : (ext2dFill j s).acc = s.acc := rfl
@[simp] theorem ext2dFill_held (j : Nat) (s : State) : (ext2dFill j s).held = s.held := rfl
@[simp] theorem ext2dFill_script (j : Nat) (s : State) : (ext2dFill j s).script = s.script := rfl
@[simp] theorem ext2dFill_replies (j : Nat) (s : State) : (ext2dFill j s).replies = s.replies := rfl
@[simp] theorem ext2dFill_schedule (j : Nat) (s : State) : (ext2dFill j s).schedule = s.schedule := rfl
@[simp] theorem ext2dFill_epoch (j : Nat) (s : State) : (ext2dFill j s).epoch = s.epoch := rfl

@[simp] theorem lanesSet_params (a : Nat) (f : Nat → U16) (s : State) : (lanesSet a f s).params = s.params := rfl
@[simp] theorem lanesSet_height (a : Nat) (f : Nat → U16) (s : State) : (lanesSet a f s).height = s.height := rfl
@[simp] theorem lanesSet_cmd (a : Nat) (f : Nat → U16) (s : State) : (lanesSet a f s).cmd = s.cmd := rfl
@[simp] theorem lanesSet_status (a : Nat) (f : Nat → U16) (s : State) : (lanesSet a f s).status = s.status := rfl
@[simp] theorem lanesSet_outW (a : Nat) (f : Nat → U16) (s : State) : (lanesSet a f s).outW = s.outW := rfl
@[simp] theorem lanesSet_outH (a : Nat) (f : Nat → U16) (s : State) : (lanesSet a f s).outH = s.outH := rfl
@[simp] theorem lanesSet_src (a : Nat) (f : Nat → U16) (s : State) : (lanesSet a f s).src = s.src := rfl
@[simp] theorem lanesSet_slen (a : Nat) (f : Nat → U16) (s : State) : (lanesSet a f s).slen = s.slen := rfl
@[simp] theorem lanesSet_dst (a : Nat) (f : Nat → U16) (s : State) : (lanesSet a f s).dst = s.dst := rfl
@[simp] theorem lanesSet_ext (a : Nat) (f : Nat → U16) (s : State) : (lanesSet a f s).ext = s.ext := rfl
@[simp] theorem lanesSet_elen (a : Nat) (f : Nat → U16) (s : State) : (lanesSet a f s).elen = s.elen := rfl
@[simp] theorem lanesSet_seq (a : Nat) (f : Nat → U16) (s : State) : (lanesSet a f s).seq = s.seq := rfl
@[simp] theorem lanesSet_latch (a : Nat) (f : Nat → U16) (s : State) : (lanesSet a f s).latch = s.latch := rfl
@[simp] theorem lanesSet_xgrid (a : Nat) (f : Nat → U16) (s : State) : (lanesSet a f s).xgrid = s.xgrid := rfl
@[simp] theorem lanesSet_ring (a : Nat) (f : Nat → U16) (s : State) : (lanesSet a f s).ring = s.ring := rfl
@[simp] theorem lanesSet_rstart (a : Nat) (f : Nat → U16) (s : State) : (lanesSet a f s).rstart = s.rstart := rfl
@[simp] theorem lanesSet_mid (a : Nat) (f : Nat → U16) (s : State) : (lanesSet a f s).mid = s.mid := rfl
@[simp] theorem lanesSet_held (a : Nat) (f : Nat → U16) (s : State) : (lanesSet a f s).held = s.held := rfl
@[simp] theorem lanesSet_script (a : Nat) (f : Nat → U16) (s : State) : (lanesSet a f s).script = s.script := rfl
@[simp] theorem lanesSet_replies (a : Nat) (f : Nat → U16) (s : State) : (lanesSet a f s).replies = s.replies := rfl
@[simp] theorem lanesSet_schedule (a : Nat) (f : Nat → U16) (s : State) : (lanesSet a f s).schedule = s.schedule := rfl
@[simp] theorem lanesSet_epoch (a : Nat) (f : Nat → U16) (s : State) : (lanesSet a f s).epoch = s.epoch := rfl

@[simp] theorem sepRow_params (y : Nat) (s : State) : (sepRow y s).params = s.params := by simp [sepRow]
@[simp] theorem sepRow_height (y : Nat) (s : State) : (sepRow y s).height = s.height := by simp [sepRow]
@[simp] theorem sepRow_cmd (y : Nat) (s : State) : (sepRow y s).cmd = s.cmd := by simp [sepRow]
@[simp] theorem sepRow_status (y : Nat) (s : State) : (sepRow y s).status = s.status := by simp [sepRow]
@[simp] theorem sepRow_outW (y : Nat) (s : State) : (sepRow y s).outW = s.outW := by simp [sepRow]
@[simp] theorem sepRow_outH (y : Nat) (s : State) : (sepRow y s).outH = s.outH := by simp [sepRow]
@[simp] theorem sepRow_src (y : Nat) (s : State) : (sepRow y s).src = s.src := by simp [sepRow]
@[simp] theorem sepRow_slen (y : Nat) (s : State) : (sepRow y s).slen = s.slen := by simp [sepRow]
@[simp] theorem sepRow_ext (y : Nat) (s : State) : (sepRow y s).ext = s.ext := by simp [sepRow]
@[simp] theorem sepRow_elen (y : Nat) (s : State) : (sepRow y s).elen = s.elen := by simp [sepRow]
@[simp] theorem sepRow_seq (y : Nat) (s : State) : (sepRow y s).seq = s.seq := by simp [sepRow]
@[simp] theorem sepRow_latch (y : Nat) (s : State) : (sepRow y s).latch = s.latch := by simp [sepRow]
@[simp] theorem sepRow_xgrid (y : Nat) (s : State) : (sepRow y s).xgrid = s.xgrid := by simp [sepRow]
@[simp] theorem sepRow_acc (y : Nat) (s : State) : (sepRow y s).acc = s.acc := by simp [sepRow]
@[simp] theorem sepRow_held (y : Nat) (s : State) : (sepRow y s).held = s.held := by simp [sepRow]
@[simp] theorem sepRow_script (y : Nat) (s : State) : (sepRow y s).script = s.script := by simp [sepRow]
@[simp] theorem sepRow_replies (y : Nat) (s : State) : (sepRow y s).replies = s.replies := by simp [sepRow]
@[simp] theorem sepRow_schedule (y : Nat) (s : State) : (sepRow y s).schedule = s.schedule := by simp [sepRow]
@[simp] theorem sepRow_epoch (y : Nat) (s : State) : (sepRow y s).epoch = s.epoch := by simp [sepRow]

/-- Two states with the same fields are equal. -/
theorem state_eq {s t : State}
    (params : s.params = t.params) (height : s.height = t.height) (cmd : s.cmd = t.cmd)
    (status : s.status = t.status) (outW : s.outW = t.outW) (outH : s.outH = t.outH) (src : s.src = t.src)
    (slen : s.slen = t.slen) (dst : s.dst = t.dst) (ext : s.ext = t.ext) (elen : s.elen = t.elen)
    (seq : s.seq = t.seq) (latch : s.latch = t.latch) (xgrid : s.xgrid = t.xgrid) (ring : s.ring = t.ring)
    (rstart : s.rstart = t.rstart) (mid : s.mid = t.mid) (acc : s.acc = t.acc) (held : s.held = t.held)
    (script : s.script = t.script) (replies : s.replies = t.replies) (schedule : s.schedule = t.schedule)
    (epoch : s.epoch = t.epoch) : s = t := by
  cases s; cases t
  simp_all

end Sys2Proof.Machine
end

