-- ==== Sys2Proof/Laws/Operands.lean ====
section
/-! SUPPORT. What the operand functions say: keys, clamped indices, lengths, the validation of a filter command, and an
accumulator's sum. -/

namespace Sys2Proof.Machine

theorem rowPitch_eq : rowPitch = 131072 := rfl

/-- The column and the row of a key, for columns a store can have. -/
theorem key_div {y x : Nat} (h : x < rowPitch) : key y x / rowPitch = y := by
  rw [key, Nat.mul_comm, Nat.mul_add_div (by rw [rowPitch_eq]; omega), Nat.div_eq_of_lt h, Nat.add_zero]

theorem key_mod {y x : Nat} (h : x < rowPitch) : key y x % rowPitch = x := by
  rw [key, Nat.mul_comm, Nat.mul_add_mod, Nat.mod_eq_of_lt h]

/-- Keys of in-range elements are distinct. -/
theorem key_inj {y x y' x' : Nat} (h : x < rowPitch) (h' : x' < rowPitch) :
    key y x = key y' x' ↔ y = y' ∧ x = x' := by
  constructor
  · intro hk
    exact ⟨by rw [← key_div (y := y) h, hk, key_div h'], by rw [← key_mod (y := y) h, hk, key_mod h']⟩
  · rintro ⟨rfl, rfl⟩; rfl

theorem key_add (y x k : Nat) : key y (x + k) = key y x + k := by simp [key, Nat.add_assoc]

/-- A clamped index is inside the sequence (R79, R89). -/
theorem clampIndex_lt (i : Int) {n : Nat} (h : n ≠ 0) : clampIndex i n < n := by
  unfold clampIndex clamp; omega

theorem clampIndex_of_lt {k n : Nat} (h : k < n) : clampIndex (k : Int) n = k := by
  unfold clampIndex clamp; omega

/-- The clamped index by parts, as `extend1D` has it (R131). -/
theorem clampIndex_sub (e m n : Nat) :
    clampIndex ((e : Int) - m) n = if e < m then 0 else if e < m + n then e - m else n - 1 := by
  unfold clampIndex clamp
  split
  · omega
  · split <;> omega

@[simp] theorem extendedRow_length (s : State) (y m n : Nat) : (extendedRow s y m n).length = n + 2 * m := by
  simp [extendedRow]

@[simp] theorem extendedRow_getElem (s : State) (y m n e : Nat) (h : e < (extendedRow s y m n).length) :
    (extendedRow s y m n)[e] = zext16 (srcAt s y (clampIndex ((e : Int) - m) n)) := by
  simp [extendedRow]

@[simp] theorem zext16_toNat (v : U8) : (zext16 v).toNat = v.toNat := by
  rw [zext16, BitVec.toNat_setWidth]
  exact Nat.mod_eq_of_lt (by have := v.isLt; omega)

/-- A row length is an `XW`-bit number (R48). -/
theorem slenAt_lt (s : State) (y : Nat) : slenAt s y < 2 ^ s.params.xw := Nat.mod_lt _ (Nat.two_pow_pos _)

/-- `XW` and `YW` are in 1 to 16 (R13). -/
theorem xw_range (p : Config.Params) : 1 ≤ p.xw ∧ p.xw ≤ 16 := by
  unfold Config.Params.xw; omega

theorem yw_range (p : Config.Params) : 1 ≤ p.yw ∧ p.yw ≤ 16 := by
  unfold Config.Params.yw; omega

/-- A row length is below 2^16. -/
theorem slenAt_lt_max (s : State) (y : Nat) : slenAt s y < 65536 :=
  Nat.lt_of_lt_of_le (slenAt_lt s y) (Nat.pow_le_pow_right (by omega) (xw_range s.params).2)

/-- A read of a store answers the element listed, wherever the rest of the state stands. -/
theorem readElem_some {w : Nat} {space : Config.Space} {s : State} {m : Mem w} {a : Nat} {v : BitVec w}
    (h : m.read a = some v) : readElem space s m a = v := by simp [readElem, h]

/-- Two reads of stores that agree at a key agree, in the same epoch. -/
theorem readElem_congr {w : Nat} {space : Config.Space} {s t : State} {m m' : Mem w} {a : Nat}
    (he : s.epoch = t.epoch) (h : m.read a = m'.read a) : readElem space s m a = readElem space t m' a := by
  simp [readElem, h, he]

/-- The source is read the same from two states with the same `SRC` in the same epoch. -/
theorem srcAt_congr {s t : State} (he : s.epoch = t.epoch) (h : s.src = t.src) (y x : Nat) : srcAt s y x = srcAt t y x :=
  readElem_congr he (by rw [h])

theorem slenAt_congr {s t : State} (he : s.epoch = t.epoch) (h : s.slen = t.slen) (hp : s.params = t.params) (y : Nat) :
    slenAt s y = slenAt t y := by
  unfold slenAt
  rw [readElem_congr he (by rw [h]), hp]

theorem extendedRow_congr {s t : State} (he : s.epoch = t.epoch) (h : s.src = t.src) (y m n : Nat) :
    extendedRow s y m n = extendedRow t y m n := by
  simp [extendedRow, srcAt_congr he h]

/-- Validation of a filter command passes exactly on a radius in 0 to 7 and a legal image, and latches the operands
(R245, R53). -/
theorem validateFilter_ok {radius : Int} {s : State} {l : Latch} (h : validateFilter radius s = .ok l) :
    0 ≤ radius ∧ radius ≤ 7 ∧ s.height.toNat ≠ 0 ∧ slenAt s 0 ≠ 0 ∧
      (∀ y, 1 ≤ y → y < s.height.toNat → slenAt s y = slenAt s 0) ∧
      l = { s.latch with r := radius.toNat, l := 2 * radius.toNat + 1,
                         wt := (2 * radius.toNat + 1) * (2 * radius.toNat + 1),
                         w := slenAt s 0, h := s.height.toNat } := by
  unfold validateFilter at h
  split at h
  · cases h
  · split at h
    · cases h
    · split at h
      · cases h
      · rename_i h1 h2 h3
        injection h with h
        refine ⟨by omega, by omega, by omega, by omega, fun y hy hy' => ?_, h.symm⟩
        by_contra hne
        exact h3 (List.any_eq_true.2 ⟨y, List.mem_range'_1.2 (by omega), by simpa using hne⟩)

/-- Validation passes on a radius in 0 to 7 and a legal image. -/
theorem validateFilter_of_legal {r : Nat} {s : State} (hr : r ≤ 7) (hh : s.height.toNat ≠ 0) (hw : slenAt s 0 ≠ 0)
    (hrag : ∀ y, 1 ≤ y → y < s.height.toNat → slenAt s y = slenAt s 0) :
    validateFilter (r : Int) s = .ok { s.latch with r := r, l := 2 * r + 1, wt := (2 * r + 1) * (2 * r + 1),
                                                    w := slenAt s 0, h := s.height.toNat } := by
  unfold validateFilter
  rw [if_neg (by omega), if_neg (by omega), if_neg]
  · simp
  · intro h
    obtain ⟨y, hy, hne⟩ := List.any_eq_true.1 h
    have := List.mem_range'_1.1 hy
    exact absurd (hrag y (by omega) (by omega)) (by simpa using hne)

/-- An accumulator after additions, in exact numbers modulo 2^16. -/
theorem foldl_add_toNat (vs : List U16) (a : U16) :
    (vs.foldl (· + ·) a).toNat = (a.toNat + (vs.map BitVec.toNat).sum) % 65536 := by
  induction vs generalizing a with
  | nil => simp [Nat.mod_eq_of_lt a.isLt]
  | cons v vs ih => simp [ih, BitVec.toNat_add]; omega

/-- A sum that fits 16 bits is exact (R154). -/
theorem sum16_toNat {vs : List U16} (h : (vs.map BitVec.toNat).sum < 65536) :
    (sum16 vs).toNat = (vs.map BitVec.toNat).sum := by
  rw [sum16, foldl_add_toNat]
  simp [Nat.mod_eq_of_lt h]

/-- One more tap. -/
theorem sum16_append (vs : List U16) (v : U16) : sum16 (vs ++ [v]) = sum16 vs + v := by simp [sum16]

end Sys2Proof.Machine
end

