-- ==== Sys2Proof/Laws/Sequencer.lean ====
section
/-! SUPPORT. Loops, and what a command as its stages can do. -/

namespace Sys2Proof.Machine

@[simp] theorem loop_zero {σ : Type} (f : Nat → σ → σ) (s : σ) : loop f 0 s = s := rfl

@[simp] theorem loop_succ {σ : Type} (f : Nat → σ → σ) (n : Nat) (s : σ) : loop f (n + 1) s = f n (loop f n s) := rfl

/-- The induction over a loop, once: what holds before it and is kept by each iteration holds after it. -/
theorem loop_induct {σ : Type} {f : Nat → σ → σ} (P : Nat → σ → Prop) {n : Nat} {s : σ} (h0 : P 0 s)
    (hs : ∀ k t, k < n → P k t → P (k + 1) (f k t)) : P n (loop f n s) := by
  induction n with
  | zero => exact h0
  | succ n ih => exact hs n _ (Nat.lt_succ_self n) (ih fun k t hk => hs k t (Nat.lt_succ_of_lt hk))

/-- What an iteration does not touch, the loop does not touch. -/
theorem loop_const {σ α : Type} {f : Nat → σ → σ} (g : σ → α) (hf : ∀ k t, g (f k t) = g t) (n : Nat) (s : σ) :
    g (loop f n s) = g s := by
  induction n with
  | zero => rfl
  | succ n ih => rw [loop_succ, hf, ih]

/-- The first iterations, then the others. -/
theorem loop_add {σ : Type} (f : σ → σ) (m n : Nat) (s : σ) :
    loop (fun _ => f) (m + n) s = loop (fun _ => f) n (loop (fun _ => f) m s) := by
  induction n with
  | zero => rfl
  | succ n ih => rw [← Nat.add_assoc, loop_succ, loop_succ, ih]

@[simp] theorem fillStage_seq (b : CommandBody) (k : Nat) (s : State) :
    (fillStage b k s).seq = { phase := .fill, y := k + 1 } := rfl

@[simp] theorem rowStage_seq (b : CommandBody) (y : Nat) (s : State) :
    (rowStage b y s).seq = { phase := .row, y := y + 1 } := rfl

/-- The state in which the end step of a command stands: its loops done. -/
def doneLoops (b : CommandBody) (l : Latch) (s : State) : State :=
  loop (rowStage b) (b.rows l) (leaveFills b (loop (fillStage b) (b.fills l) (enter b l s)))

/-- The change of loops touches the sequencer at most. -/
theorem leaveFills_const {α : Type} (g : State → α) (hseq : ∀ t q, g { t with seq := q } = g t) (b : CommandBody)
    (s : State) : g (leaveFills b s) = g s := by
  unfold leaveFills
  cases b.hasRows
  · rfl
  · exact hseq s _

/-- A filter command goes on to its row loop. -/
theorem leaveFills_rows {b : CommandBody} (h : b.hasRows = true) (s : State) : leaveFills b s = toRows s := by
  simp [leaveFills, h]

/-- A whole command ends in one of two ways: the error end, nothing else done; or the successful end of its loops. -/
theorem runBody_cases (b : CommandBody) (s : State) :
    (∃ kind, b.check s = .error kind ∧ runBody b s = raiseErr kind s) ∨
    (∃ l, b.check s = .ok l ∧ runBody b s = finish b (doneLoops b l s)) := by
  unfold runBody
  cases h : b.check s with
  | error kind => exact .inl ⟨kind, rfl, rfl⟩
  | ok l => exact .inr ⟨l, rfl, rfl⟩

theorem runBody_error {b : CommandBody} {s : State} {kind : ErrKind} (h : b.check s = .error kind) :
    runBody b s = raiseErr kind s := by simp [runBody, h]

theorem runBody_ok {b : CommandBody} {s : State} {l : Latch} (h : b.check s = .ok l) :
    runBody b s = finish b (doneLoops b l s) := by
  simp [runBody, h, doneLoops]

/-- What no part of a command touches, the command does not touch: its part of the frame of every command. -/
theorem runBody_const {α : Type} (g : State → α) {b : CommandBody} {s : State} (hstart : ∀ t, g (b.start t) = g t)
    (hfill : ∀ k t, g (b.fill k t) = g t) (hrow : ∀ k t, g (b.row k t) = g t)
    (hseq : ∀ t q, g { t with seq := q } = g t) (hlatch : ∀ t l, g { t with latch := l } = g t)
    (herr : ∀ kind t, g (raiseErr kind t) = g t) (hend : ∀ w h t, g (endOk w h t) = g t) : g (runBody b s) = g s := by
  rcases runBody_cases b s with ⟨kind, -, h⟩ | ⟨l, -, h⟩
  · rw [h, herr]
  · have h1 : g (enter b l s) = g s := by rw [enter, hstart, hseq { s with latch := l }, hlatch]
    have h2 : ∀ n t, g (loop (fillStage b) n t) = g t := fun n t =>
      loop_const (f := fillStage b) g (fun k u => by rw [fillStage, hseq, hfill]) n t
    have h3 : ∀ n t, g (loop (rowStage b) n t) = g t := fun n t =>
      loop_const (f := rowStage b) g (fun k u => by rw [rowStage, hseq, hrow]) n t
    rw [h, finish, hend, doneLoops, h3, leaveFills_const g hseq, h2, h1]

/-- What the loops of a command do not touch keeps the value it has after entry; so the operands stay latched (R53). -/
theorem doneLoops_const {α : Type} (g : State → α) {b : CommandBody} {l : Latch} {s : State}
    (hfill : ∀ k t, g (b.fill k t) = g t) (hrow : ∀ k t, g (b.row k t) = g t)
    (hseq : ∀ t q, g { t with seq := q } = g t) : g (doneLoops b l s) = g (enter b l s) := by
  have h2 : ∀ n t, g (loop (fillStage b) n t) = g t := fun n t =>
    loop_const (f := fillStage b) g (fun k u => by rw [fillStage, hseq, hfill]) n t
  have h3 : ∀ n t, g (loop (rowStage b) n t) = g t := fun n t =>
    loop_const (f := rowStage b) g (fun k u => by rw [rowStage, hseq, hrow]) n t
  rw [doneLoops, h3, leaveFills_const g hseq, h2]

/-- Either way the sequencer is idle at the end (R249, R250). -/
theorem runBody_seq (b : CommandBody) (s : State) : (runBody b s).seq = { phase := .idle, y := 0 } := by
  rcases runBody_cases b s with ⟨kind, -, h⟩ | ⟨l, -, h⟩ <;> rw [h] <;> rfl

/-- One stage: nothing, the error end, the entry, an iteration, the change of loops (of a filter
command only), or the end step. -/
theorem stageBody_cases (b : CommandBody) (s : State) :
    (s.seq.phase = .idle ∧ stageBody b s = s) ∨
    (∃ kind, s.seq.phase = .check ∧ b.check s = .error kind ∧ stageBody b s = raiseErr kind s) ∨
    (∃ l, s.seq.phase = .check ∧ b.check s = .ok l ∧ stageBody b s = enter b l s) ∨
    (s.seq.phase = .fill ∧ s.seq.y < b.fills s.latch ∧ stageBody b s = fillStage b s.seq.y s) ∨
    (s.seq.phase = .fill ∧ b.fills s.latch ≤ s.seq.y ∧ b.hasRows = true ∧ stageBody b s = toRows s) ∨
    (s.seq.phase = .fill ∧ b.fills s.latch ≤ s.seq.y ∧ b.hasRows = false ∧ stageBody b s = finish b s) ∨
    (s.seq.phase = .row ∧ s.seq.y < b.rows s.latch ∧ stageBody b s = rowStage b s.seq.y s) ∨
    (s.seq.phase = .row ∧ b.rows s.latch ≤ s.seq.y ∧ stageBody b s = finish b s) := by
  unfold stageBody
  cases hp : s.seq.phase with
  | idle => simp
  | check => cases hc : b.check s <;> simp
  | fill =>
    by_cases h : s.seq.y < b.fills s.latch
    · simp [h]
    · cases hr : b.hasRows <;> simp [h, Nat.le_of_not_lt h, hr, afterFills]
  | row =>
    by_cases h : s.seq.y < b.rows s.latch
    · simp [h]
    · simp [h, Nat.le_of_not_lt h]

/-- The stages of the set-up loop, one by one, are the loop, when no iteration touches the latched operands. -/
theorem stages_fill {b : CommandBody} (hl : ∀ k t, (b.fill k t).latch = t.latch) {s : State}
    (hs : s.seq = { phase := .fill, y := 0 }) {n : Nat} (hn : n ≤ b.fills s.latch) :
    loop (fun _ => stageBody b) n s = loop (fillStage b) n s := by
  induction n with
  | zero => rfl
  | succ n ih =>
    have hlt : (loop (fillStage b) n s).latch = s.latch := loop_const (f := fillStage b) State.latch (fun k t => hl k t) n s
    have hsq : (loop (fillStage b) n s).seq = { phase := .fill, y := n } := by
      cases n with
      | zero => exact hs
      | succ n => rfl
    rw [loop_succ, loop_succ, ih (by omega)]
    simp only [stageBody, hsq, hlt]
    rw [if_pos (by omega)]

/-- The same of the row loop. -/
theorem stages_row {b : CommandBody} (hl : ∀ k t, (b.row k t).latch = t.latch) {s : State}
    (hs : s.seq = { phase := .row, y := 0 }) {n : Nat} (hn : n ≤ b.rows s.latch) :
    loop (fun _ => stageBody b) n s = loop (rowStage b) n s := by
  induction n with
  | zero => rfl
  | succ n ih =>
    have hlt : (loop (rowStage b) n s).latch = s.latch := loop_const (f := rowStage b) State.latch (fun k t => hl k t) n s
    have hsq : (loop (rowStage b) n s).seq = { phase := .row, y := n } := by
      cases n with
      | zero => exact hs
      | succ n => rfl
    rw [loop_succ, loop_succ, ih (by omega)]
    simp only [stageBody, hsq, hlt]
    rw [if_pos (by omega)]

end Sys2Proof.Machine
end

