-- ==== Sys2Proof/Laws/Groups.lean ====
section
/-! SUPPORT. The lane operations of the vector unit: what a group of lanes holds after its taps, and that a grouped pass
leaves what the scalar pass leaves. -/

namespace Sys2Proof.Machine

/-- An active lane holds what the operation gave it. -/
theorem accAt_lanesSet {a i : Nat} (h : i < a) (f : Nat → U16) (s : State) : accAt (lanesSet a f s) i = f i := by
  refine readElem_some (m := s.acc.writeRow 0 ((List.range a).map f)) ?_
  have := Mem.read_writeRow_in s.acc 0 ((List.range a).map f) (k := i) (by simpa using h)
  simpa using this

/-- The lanes after `n` taps, each adding `tap j i` to lane `i`: the sum of its taps (R206, R207). -/
theorem accAt_taps {a i : Nat} (h : i < a) (tap : Nat → Nat → U16) (f : Nat → State → State)
    (hf : ∀ j t, f j t = lanesSet a (fun i => accAt t i + tap j i) t) (n : Nat) (s : State) :
    accAt (loop f n (lanesClear a s)) i = sum16 ((List.range n).map fun j => tap j i) := by
  induction n with
  | zero => exact accAt_lanesSet h _ s
  | succ n ih => rw [loop_succ, hf, accAt_lanesSet h, ih, List.range_succ, List.map_append, List.map_singleton, sum16_append]

/-- A loop of lane operations touches the accumulators only. -/
theorem loop_lanes {f : Nat → State → State} (g : Nat → State → Nat → U16) {a : Nat}
    (hf : ∀ j t, f j t = lanesSet a (g j t) t) (n : Nat) (s : State) :
    loop f n s = { s with acc := (loop f n s).acc } := by
  induction n with
  | zero => rfl
  | succ n ih => rw [loop_succ, hf, ih]; rfl

/-- A vertical group: `MID` takes the column sums of its columns; of the rest only the accumulators change (R206). -/
theorem verticalGroup_eq (grp : Group) (s : State) :
    verticalGroup grp s =
      { s with mid := s.mid.writeRow grp.1 ((List.range grp.2).map fun i => sum16 (columnTaps s (grp.1 + i)))
               acc := (verticalGroup grp s).acc } := by
  have hl := loop_lanes (f := verticalTap grp) (fun j t i => accAt t i + ringAt t (slotOf t j) (grp.1 + i))
    (a := grp.2) (fun _ _ => rfl) s.latch.l (lanesClear grp.2 s)
  have hk : ∀ n, loop (verticalTap grp) n (lanesClear grp.2 s) =
      loop (fun j t => lanesSet grp.2 (fun i => accAt t i + ringAt s (slotOf s j) (grp.1 + i)) t) n
        (lanesClear grp.2 s) := by
    intro n
    induction n with
    | zero => rfl
    | succ n ih =>
      have hl := loop_lanes (f := verticalTap grp) (fun j t i => accAt t i + ringAt t (slotOf t j) (grp.1 + i))
        (a := grp.2) (fun _ _ => rfl) n (lanesClear grp.2 s)
      rw [loop_succ, loop_succ, ← ih]
      rw [hl]; rfl
  have hv : (List.range grp.2).map (accAt (loop (verticalTap grp) s.latch.l (lanesClear grp.2 s))) =
      (List.range grp.2).map fun i => sum16 (columnTaps s (grp.1 + i)) := by
    refine List.map_congr_left fun i hi => ?_
    rw [hk, accAt_taps (List.mem_range.1 hi) (fun j i => ringAt s (slotOf s j) (grp.1 + i)) _ (fun _ _ => rfl)]
    rfl
  unfold verticalGroup
  simp only [hv]
  rw [hl]
  rfl

/-- A horizontal group: row `y` of `DST` takes the quotients of its columns; of the rest only the accumulators change
(R207, R208). -/
theorem horizontalGroup_eq (y : Nat) (grp : Group) (s : State) :
    horizontalGroup y grp s =
      { s with dst := s.dst.writeRow (key y grp.1)
                 ((List.range grp.2).map fun i => meanOf s (sum16 (rowTaps s (grp.1 + i))))
               acc := (horizontalGroup y grp s).acc } := by
  have hl := loop_lanes (f := horizontalTap grp) (fun j t i => accAt t i + midAt t (grp.1 + i + j))
    (a := grp.2) (fun _ _ => rfl) s.latch.l (lanesClear grp.2 s)
  have hk : ∀ n, loop (horizontalTap grp) n (lanesClear grp.2 s) =
      loop (fun j t => lanesSet grp.2 (fun i => accAt t i + midAt s (grp.1 + i + j)) t) n (lanesClear grp.2 s) := by
    intro n
    induction n with
    | zero => rfl
    | succ n ih =>
      have hl := loop_lanes (f := horizontalTap grp) (fun j t i => accAt t i + midAt t (grp.1 + i + j))
        (a := grp.2) (fun _ _ => rfl) n (lanesClear grp.2 s)
      rw [loop_succ, loop_succ, ← ih]
      rw [hl]; rfl
  have hv : (List.range grp.2).map (fun i => narrow8 (accAt
        (lanesDivide grp.2 (loop (horizontalTap grp) s.latch.l (lanesClear grp.2 s))) i)) =
      (List.range grp.2).map fun i => meanOf s (sum16 (rowTaps s (grp.1 + i))) := by
    refine List.map_congr_left fun i hi => ?_
    have hi := List.mem_range.1 hi
    rw [lanesDivide, accAt_lanesSet hi, hk,
      accAt_taps hi (fun j i => midAt s (grp.1 + i + j)) _ (fun _ _ => rfl), ← hk]
    rw [hl]
    rfl
  unfold horizontalGroup
  simp only [hv]
  rw [hl]
  rfl

/-- What groups of a list of offsets leave in a store: each writes the elements `val` gives to its columns. -/
theorem foldl_groups {w : Nat} (base : Nat) (val : Nat → BitVec w) (gs : List Group) (m : Mem w) (c : Nat) :
    (gs.foldl (fun m grp => Mem.writeRow m (base + grp.1) ((List.range grp.2).map fun i => val (grp.1 + i))) m).read c =
      if ∃ grp ∈ gs, base + grp.1 ≤ c ∧ c < base + grp.1 + grp.2 then some (val (c - base)) else m.read c := by
  induction gs generalizing m with
  | nil => simp
  | cons grp gs ih =>
    rw [List.foldl_cons, ih]
    by_cases h : ∃ g ∈ gs, base + g.1 ≤ c ∧ c < base + g.1 + g.2
    · rw [if_pos h, if_pos]
      obtain ⟨g, hg, hc⟩ := h
      exact ⟨g, List.mem_cons_of_mem _ hg, hc⟩
    · rw [if_neg h, Mem.read_writeRow]
      by_cases hc : base + grp.1 ≤ c ∧ c < base + grp.1 + grp.2
      · rw [dif_pos (by simpa using hc), if_pos ⟨grp, List.mem_cons_self, hc⟩]
        simp [show grp.1 + (c - (base + grp.1)) = c - base by omega]
      · rw [dif_neg (by simpa using hc), if_neg]
        rintro ⟨g, hg, hgc⟩
        rcases List.mem_cons.1 hg with rfl | hg
        · exact hc hgc
        · exact h ⟨g, hg, hgc⟩

/-- The groups of a row are inside it, have at most `g` lanes, and cover it (R203 to R205). -/
theorem groups_cover {g n : Nat} (hg : 1 ≤ g) :
    (∀ grp ∈ groups g n, grp.1 + grp.2 ≤ n ∧ grp.2 ≤ g) ∧
    ∀ e, e < n → ∃ grp ∈ groups g n, grp.1 ≤ e ∧ e < grp.1 + grp.2 := by
  unfold groups
  split
  · rename_i h
    exact ⟨by simp; omega, fun e he => ⟨(0, n), by simp, by simpa using he⟩⟩
  · rename_i h
    have hdm := Nat.div_add_mod n g
    constructor
    · intro grp hgrp
      rcases List.mem_append.1 hgrp with hgrp | hgrp
      · obtain ⟨i, hi, rfl⟩ := List.mem_map.1 hgrp
        have hi := List.mem_range.1 hi
        refine ⟨?_, le_refl _⟩
        show i * g + g ≤ n
        calc i * g + g = (i + 1) * g := by ring
          _ ≤ (n / g) * g := Nat.mul_le_mul_right g hi
          _ ≤ n := Nat.div_mul_le_self n g
      · split at hgrp
        · simp at hgrp
        · simp only [List.mem_singleton] at hgrp
          subst hgrp
          exact ⟨by show n - g + g ≤ n; omega, le_refl _⟩
    · intro e he
      have hem := Nat.div_add_mod e g
      have hel := Nat.mod_lt e (show 0 < g by omega)
      by_cases hq : e / g < n / g
      · refine ⟨(e / g * g, g), List.mem_append_left _ (List.mem_map.2 ⟨e / g, List.mem_range.2 hq, rfl⟩), ?_, ?_⟩
        · exact Nat.div_mul_le_self e g
        · show e < e / g * g + g
          rw [Nat.mul_comm]; omega
      · have hle : n / g ≤ e / g := Nat.le_of_not_lt hq
        have hmul : g * (n / g) ≤ g * (e / g) := Nat.mul_le_mul_left g hle
        have hml := Nat.mod_lt n (show 0 < g by omega)
        refine ⟨(n - g, g), List.mem_append_right _ ?_, ?_, ?_⟩
        · rw [if_neg (by omega)]; simp
        · show n - g ≤ e; omega
        · show e < n - g + g; omega

/-- The groups of a pass, folded: what the whole state is afterwards (R201 steps (b), (c)). -/
theorem foldl_verticalGroup (gs : List Group) (s : State) :
    ∃ acc, gs.foldl (fun t grp => verticalGroup grp t) s =
      { s with mid := gs.foldl (fun m grp =>
                 Mem.writeRow m (0 + grp.1) ((List.range grp.2).map fun i => sum16 (columnTaps s (grp.1 + i)))) s.mid
               acc := acc } := by
  induction gs generalizing s with
  | nil => exact ⟨s.acc, rfl⟩
  | cons grp gs ih =>
    obtain ⟨acc, h⟩ := ih (verticalGroup grp s)
    rw [List.foldl_cons, h]
    refine ⟨acc, ?_⟩
    rw [verticalGroup_eq]
    simp only [Nat.zero_add, List.foldl_cons]
    rfl

theorem foldl_horizontalGroup (y : Nat) (gs : List Group) (s : State) :
    ∃ acc, gs.foldl (fun t grp => horizontalGroup y grp t) s =
      { s with dst := gs.foldl (fun m grp =>
                 Mem.writeRow m (key y 0 + grp.1) ((List.range grp.2).map fun i => meanOf s (sum16 (rowTaps s (grp.1 + i))))) s.dst
               acc := acc } := by
  induction gs generalizing s with
  | nil => exact ⟨s.acc, rfl⟩
  | cons grp gs ih =>
    obtain ⟨acc, h⟩ := ih (horizontalGroup y grp s)
    rw [List.foldl_cons, h]
    refine ⟨acc, ?_⟩
    rw [horizontalGroup_eq]
    simp only [List.foldl_cons, ← key_add, Nat.zero_add]
    rfl

theorem lanes_pos (p : Config.Params) : 1 ≤ p.lanes := Nat.one_le_two_pow

/-- The vertical pass by groups: the accumulators aside, only `MID` changes, and it reads as after the scalar pass. -/
theorem verticalGroups_spec (s : State) :
    ∃ mid acc, verticalGroups s = { s with mid := mid, acc := acc } ∧
      ∀ a, mid.read a = (verticalPass s).mid.read a := by
  obtain ⟨acc, h⟩ := foldl_verticalGroup (groups s.params.lanes (s.latch.w + 2 * s.latch.r)) s
  refine ⟨_, acc, h, fun a => ?_⟩
  obtain ⟨hin, hcov⟩ := groups_cover (n := s.latch.w + 2 * s.latch.r) (lanes_pos s.params)
  rw [foldl_groups 0 (fun e => sum16 (columnTaps s e))]
  show _ = (Mem.writeRow s.mid 0 _).read a
  rw [Mem.read_writeRow]
  by_cases ha : a < s.latch.w + 2 * s.latch.r
  · rw [if_pos (by simpa using hcov a ha), dif_pos (by simpa using ha)]
    simp
  · rw [if_neg, dif_neg (by simpa using ha)]
    rintro ⟨grp, hg, hc⟩
    have := (hin grp hg).1
    omega

/-- The horizontal pass by groups: the accumulators aside, only `DST` changes, and it reads as after the scalar pass. -/
theorem horizontalGroups_spec (y : Nat) (s : State) :
    ∃ dst acc, horizontalGroups y s = { s with dst := dst, acc := acc } ∧
      ∀ a, dst.read a = (horizontalPass y s).dst.read a := by
  obtain ⟨acc, h⟩ := foldl_horizontalGroup y (groups s.params.lanes s.latch.w) s
  refine ⟨_, acc, h, fun a => ?_⟩
  obtain ⟨hin, hcov⟩ := groups_cover (n := s.latch.w) (lanes_pos s.params)
  rw [foldl_groups (key y 0) (fun e => meanOf s (sum16 (rowTaps s e)))]
  show _ = (Mem.writeRow s.dst (key y 0) _).read a
  rw [Mem.read_writeRow]
  by_cases ha : key y 0 ≤ a ∧ a < key y 0 + s.latch.w
  · rw [if_pos, dif_pos (by simpa using ha)]
    · simp
    · obtain ⟨grp, hg, hc⟩ := hcov (a - key y 0) (by omega)
      exact ⟨grp, hg, by omega⟩
  · rw [if_neg, dif_neg (by simpa using ha)]
    rintro ⟨grp, hg, hc⟩
    have := (hin grp hg).1
    omega

/-- A row iteration of `FVEC` differs from one of `FSEP` in `DST`, `MID` and `ACC` at most (R214). -/
theorem vecRow_frame (y : Nat) (s : State) :
    ∃ dst mid acc, vecRow y s = { sepRow y s with dst := dst, mid := mid, acc := acc } := by
  obtain ⟨mid, acc, hv, -⟩ := verticalGroups_spec (ringAppend y s)
  obtain ⟨dst, acc', hh, -⟩ := horizontalGroups_spec y (verticalGroups (ringAppend y s))
  exact ⟨dst, mid, acc', by rw [vecRow, hh, hv]; rfl⟩

@[simp] theorem vecRow_params (y : Nat) (s : State) : (vecRow y s).params = s.params := by
  obtain ⟨_, _, _, h⟩ := vecRow_frame y s
  simp [h]

@[simp] theorem vecRow_height (y : Nat) (s : State) : (vecRow y s).height = s.height := by
  obtain ⟨_, _, _, h⟩ := vecRow_frame y s
  simp [h]

@[simp] theorem vecRow_cmd (y : Nat) (s : State) : (vecRow y s).cmd = s.cmd := by
  obtain ⟨_, _, _, h⟩ := vecRow_frame y s
  simp [h]

@[simp] theorem vecRow_status (y : Nat) (s : State) : (vecRow y s).status = s.status := by
  obtain ⟨_, _, _, h⟩ := vecRow_frame y s
  simp [h]

@[simp] theorem vecRow_outW (y : Nat) (s : State) : (vecRow y s).outW = s.outW := by
  obtain ⟨_, _, _, h⟩ := vecRow_frame y s
  simp [h]

@[simp] theorem vecRow_outH (y : Nat) (s : State) : (vecRow y s).outH = s.outH := by
  obtain ⟨_, _, _, h⟩ := vecRow_frame y s
  simp [h]

@[simp] theorem vecRow_src (y : Nat) (s : State) : (vecRow y s).src = s.src := by
  obtain ⟨_, _, _, h⟩ := vecRow_frame y s
  simp [h]

@[simp] theorem vecRow_slen (y : Nat) (s : State) : (vecRow y s).slen = s.slen := by
  obtain ⟨_, _, _, h⟩ := vecRow_frame y s
  simp [h]

@[simp] theorem vecRow_ext (y : Nat) (s : State) : (vecRow y s).ext = s.ext := by
  obtain ⟨_, _, _, h⟩ := vecRow_frame y s
  simp [h]

@[simp] theorem vecRow_elen (y : Nat) (s : State) : (vecRow y s).elen = s.elen := by
  obtain ⟨_, _, _, h⟩ := vecRow_frame y s
  simp [h]

@[simp] theorem vecRow_seq (y : Nat) (s : State) : (vecRow y s).seq = s.seq := by
  obtain ⟨_, _, _, h⟩ := vecRow_frame y s
  simp [h]

@[simp] theorem vecRow_latch (y : Nat) (s : State) : (vecRow y s).latch = s.latch := by
  obtain ⟨_, _, _, h⟩ := vecRow_frame y s
  simp [h]

@[simp] theorem vecRow_xgrid (y : Nat) (s : State) : (vecRow y s).xgrid = s.xgrid := by
  obtain ⟨_, _, _, h⟩ := vecRow_frame y s
  simp [h]

@[simp] theorem vecRow_held (y : Nat) (s : State) : (vecRow y s).held = s.held := by
  obtain ⟨_, _, _, h⟩ := vecRow_frame y s
  simp [h]

@[simp] theorem vecRow_script (y : Nat) (s : State) : (vecRow y s).script = s.script := by
  obtain ⟨_, _, _, h⟩ := vecRow_frame y s
  simp [h]

@[simp] theorem vecRow_replies (y : Nat) (s : State) : (vecRow y s).replies = s.replies := by
  obtain ⟨_, _, _, h⟩ := vecRow_frame y s
  simp [h]

@[simp] theorem vecRow_schedule (y : Nat) (s : State) : (vecRow y s).schedule = s.schedule := by
  obtain ⟨_, _, _, h⟩ := vecRow_frame y s
  simp [h]

@[simp] theorem vecRow_epoch (y : Nat) (s : State) : (vecRow y s).epoch = s.epoch := by
  obtain ⟨_, _, _, h⟩ := vecRow_frame y s
  simp [h]

@[simp] theorem vecRow_ring (y : Nat) (s : State) : (vecRow y s).ring = (ringAppend y s).ring := by
  obtain ⟨_, _, _, h⟩ := vecRow_frame y s
  rw [h]
  rfl

@[simp] theorem vecRow_rstart (y : Nat) (s : State) : (vecRow y s).rstart = (ringRotate s).rstart := by
  obtain ⟨_, _, _, h⟩ := vecRow_frame y s
  rw [h]
  rfl

end Sys2Proof.Machine
end

