-- ==== Sys2Proof/Laws/Filters.lean ====
section
/-! SUPPORT. What the loops of the filter commands leave: rows of a store, the extended image in `XGRID`, the window of
the ring (R174), and the output rows. -/

namespace Sys2Proof.Machine

/-- A loop each of whose iterations `k` leaves row `k` of a store as `row k` and nothing else of that store: after it the
rows done read as `row` and every other element as before. `I` is the loop's invariant. -/
theorem loop_rows {w : Nat} {f : Nat → State → State} (mem : State → Mem w) (row : Nat → List (BitVec w))
    (I : Nat → State → Prop) {n : Nat} {s : State} (h0 : I 0 s)
    (hI : ∀ k t, k < n → I k t → I (k + 1) (f k t))
    (hw : ∀ k t, k < n → I k t → ∀ a, (mem (f k t)).read a = (Mem.writeRow (mem t) (key k 0) (row k)).read a)
    (hlen : ∀ k, k < n → (row k).length ≤ rowPitch) :
    ∀ a, (mem (loop f n s)).read a =
      if a / rowPitch < n ∧ a % rowPitch < (row (a / rowPitch)).length then (row (a / rowPitch))[a % rowPitch]?
      else (mem s).read a := by
  induction n with
  | zero => intro a; simp
  | succ n ih =>
    intro a
    have hIn : I n (loop f n s) := loop_induct I h0 fun k t hk => hI k t (by omega)
    have hrec := ih (fun k t hk => hI k t (by omega)) (fun k t hk => hw k t (by omega)) (fun k hk => hlen k (by omega)) a
    have hdm := Nat.div_add_mod a rowPitch
    have hml : a % rowPitch < rowPitch := Nat.mod_lt _ (by rw [rowPitch_eq]; omega)
    rw [loop_succ, hw n _ (Nat.lt_succ_self n) hIn, Mem.read_writeRow, hrec]
    have hk0 : key n 0 = n * rowPitch := by simp [key]
    by_cases hin : key n 0 ≤ a ∧ a < key n 0 + (row n).length
    · have hl := hlen n (Nat.lt_succ_self n)
      have hq : a / rowPitch = n := by
        rw [hk0] at hin
        exact Nat.div_eq_of_lt_le (by omega) (by rw [Nat.add_mul]; omega)
      have hm : a % rowPitch = a - key n 0 := by
        rw [hk0]; rw [hq] at hdm; rw [Nat.mul_comm] at hdm; omega
      rw [dif_pos hin, if_pos ⟨by omega, by rw [hq, hm]; omega⟩, hq, hm, List.getElem?_eq_getElem (by omega)]
    · rw [dif_neg hin]
      by_cases hlt : a / rowPitch < n
      · have : (a / rowPitch < n + 1) := by omega
        simp only [hlt, this, true_and]
      · rw [if_neg (by simp [hlt]), if_neg]
        rintro ⟨h1, h2⟩
        have hq : a / rowPitch = n := by omega
        apply hin
        rw [hq] at hdm h2
        rw [hk0]; rw [Nat.mul_comm] at hdm; omega

/-- Element `(y, x)` of the image extended by `r` on every side, widened (R150's extended image). -/
def extendedAt (s : State) (w h r y x : Nat) : U16 :=
  zext16 (srcAt s (clampIndex ((y : Int) - r) h) (clampIndex ((x : Int) - r) w))

/-- What a filter command computes on its latched operands, in the order of its passes' sums: `V(y, e)` of R170. -/
def columnSum (s : State) (l : Latch) (y e : Nat) : U16 :=
  sum16 ((List.range l.l).map fun (j : Nat) => extendedAt s l.w l.h l.r (y + j) e)

/-- The output row `y` of the two-pass filters (R170, R177). -/
def outputRow (s : State) (l : Latch) (y : Nat) : List U8 :=
  (List.range l.w).map fun (x : Nat) =>
    narrow8 (sum16 ((List.range l.l).map fun (j : Nat) => columnSum s l y (x + j)) / BitVec.ofNat 16 l.wt)

/-- Two states agree on what the loops of a command read besides hidden state: the source and its epoch. -/
def SameSource (s t : State) : Prop := s.src = t.src ∧ s.epoch = t.epoch

theorem extendedRow_at {s t : State} (h : SameSource s t) {y j r n w hh : Nat}
    (hy : y = clampIndex ((j : Int) - r) hh) (hn : n = w) :
    extendedRow t y r n = (List.range (w + 2 * r)).map fun (e : Nat) => extendedAt s w hh r j e := by
  subst hy hn
  rw [← extendedRow_congr h.2 h.1]
  rfl

/-- The set-up loop of `FNAIVE` leaves the extended image in `XGRID` (R151, R152). -/
theorem naiveFills_xgrid {radius : Int} {s t : State} (hs : SameSource s t) (hw : t.latch.w + 2 * t.latch.r ≤ rowPitch)
    (n : Nat) {j e : Nat} (hj : j < n) (he : e < t.latch.w + 2 * t.latch.r) :
    (loop (fillStage (naiveBody radius)) n t).xgrid.read (key j e) =
      some (extendedAt s t.latch.w t.latch.h t.latch.r j e) := by
  have h := loop_rows (f := fillStage (naiveBody radius)) State.xgrid
    (fun k => (List.range (t.latch.w + 2 * t.latch.r)).map fun (e : Nat) => extendedAt s t.latch.w t.latch.h t.latch.r k e)
    (fun _ u => u.latch = t.latch ∧ SameSource s u) (n := n) (s := t) ⟨rfl, hs⟩
    (fun k u _ hu => hu)
    (fun k u _ hu a => by
      show (Mem.writeRow u.xgrid (key k 0) (extendedRow u _ u.latch.r u.latch.w)).read a = _
      rw [extendedRow_at hu.2 rfl rfl, hu.1])
    (fun k _ => by simpa using hw) (key j e)
  rw [h, key_div (by omega), key_mod (by omega), if_pos ⟨hj, by simpa using he⟩]
  simp [he]

/-- The window of the ring before step (a) of row `y` (R174): `RSTART = y mod L`, and the `L - 1` newest rows of the
previous window in place. -/
structure Window (s : State) (l : Latch) (y : Nat) (t : State) : Prop where
  latch  : t.latch = l
  source : SameSource s t
  rstart : t.rstart.toNat = y % l.l
  slots  : ∀ j e, j < l.l - 1 → e < l.w + 2 * l.r →
    t.ring.read (key ((y + j) % l.l) e) = some (extendedAt s l.w l.h l.r (y + j) e)

/-- The latched operands of a filter command that passed validation (R53), as far as the loops need them. -/
structure FilterLatch (l : Latch) : Prop where
  radius : l.r ≤ 7
  side   : l.l = 2 * l.r + 1
  weight : l.wt = (2 * l.r + 1) * (2 * l.r + 1)
  width  : l.w < 65536

theorem FilterLatch.columns {l : Latch} (hl : FilterLatch l) : l.w + 2 * l.r < rowPitch := by
  have := hl.width; have := hl.radius; rw [rowPitch_eq]; omega

/-- The set-up loop of the two-pass filters fills the slots 0 to `L - 2` (R172). -/
theorem ringFills_window {b : CommandBody} (hb : b.fill = ringFill) {s t : State} {l : Latch} (hl : FilterLatch l)
    (ht : t.latch = l) (hs : SameSource s t) (hr : t.rstart = 0) :
    Window s l 0 (loop (fillStage b) (l.l - 1) t) := by
  have hI : ∀ n, (loop (fillStage b) n t).latch = l ∧ SameSource s (loop (fillStage b) n t) ∧
      (loop (fillStage b) n t).rstart = 0 := fun n =>
    loop_induct (f := fillStage b) (fun _ u => u.latch = l ∧ SameSource s u ∧ u.rstart = 0) ⟨ht, hs, hr⟩
      (fun k u _ hu => by
        have : fillStage b k u = { ringFill k u with seq := { phase := .fill, y := k + 1 } } := by
          rw [fillStage, hb]
        rw [this]; exact hu)
  obtain ⟨h1, h2, h3⟩ := hI (l.l - 1)
  refine ⟨h1, h2, by simp [h3], fun j e hj he => ?_⟩
  have h := loop_rows (f := fillStage b) State.ring
    (fun k => (List.range (l.w + 2 * l.r)).map fun (e : Nat) => extendedAt s l.w l.h l.r k e)
    (fun _ u => u.latch = l ∧ SameSource s u) (n := l.l - 1) (s := t) ⟨ht, hs⟩
    (fun k u _ hu => by rw [fillStage, hb]; exact hu)
    (fun k u _ hu a => by
      rw [fillStage, hb]
      show (Mem.writeRow u.ring (key k 0) (extendedRow u _ u.latch.r u.latch.w)).read a = _
      rw [extendedRow_at hu.2 rfl rfl, hu.1])
    (fun k _ => by simpa using Nat.le_of_lt hl.columns) (key j e)
  have hw := hl.columns
  rw [Nat.zero_add, Nat.mod_eq_of_lt (by omega), h, key_div (by omega), key_mod (by omega),
    if_pos ⟨hj, by simpa using he⟩]
  simp [he]

theorem slotOf_of_rstart {t : State} {l y : Nat} (hl : t.latch.l = l) (hr : t.rstart.toNat = y % l) (j : Nat) :
    slotOf t j = (y + j) % l := by
  rw [slotOf, hl, hr, Nat.mod_add_mod]

/-- Distinct positions of the window are distinct slots. -/
theorem slot_inj {l y i j : Nat} (hi : i < l) (hj : j < l) (h : (y + i) % l = (y + j) % l) : i = j := by
  have h' : i % l = j % l := Nat.ModEq.add_left_cancel' y h
  rwa [Nat.mod_eq_of_lt hi, Nat.mod_eq_of_lt hj] at h'

/-- Step (a) completes the window (R173, R174). -/
theorem ringAppend_window {s t : State} {l : Latch} {y : Nat} (hl : FilterLatch l) (h : Window s l y t) {j e : Nat}
    (hj : j < l.l) (he : e < l.w + 2 * l.r) :
    (ringAppend y t).ring.read (key ((y + j) % l.l) e) = some (extendedAt s l.w l.h l.r (y + j) e) := by
  have hw := hl.columns
  show (Mem.writeRow t.ring (key (slotOf t (t.latch.l - 1)) 0) (extendedRow t _ t.latch.r t.latch.w)).read _ = _
  have hy : clampIndex ((y : Int) + t.latch.r) t.latch.h = clampIndex (((y + (l.l - 1) : Nat) : Int) - l.r) l.h := by
    rw [h.latch, hl.side]; congr 1; omega
  rw [slotOf_of_rstart (by rw [h.latch]) h.rstart, h.latch]
  rw [h.latch] at hy
  rw [extendedRow_at h.source hy rfl]
  by_cases hjl : j = l.l - 1
  · subst hjl
    have := Mem.read_writeRow_in t.ring (key ((y + (l.l - 1)) % l.l) 0)
      ((List.range (l.w + 2 * l.r)).map fun (e : Nat) => extendedAt s l.w l.h l.r (y + (l.l - 1)) e) (k := e)
      (by simpa using he)
    rw [← key_add, Nat.zero_add] at this
    simpa using this
  · rw [Mem.read_writeRow_out]
    · exact h.slots j e (by omega) he
    · intro k hk hkey
      have hk : k < l.w + 2 * l.r := by simpa using hk
      rw [← key_add, Nat.zero_add] at hkey
      have := (key_inj (by omega) (by omega)).1 hkey
      exact hjl (slot_inj hj (by omega) this.1)

/-- The column taps of a complete window are the column of the extended image (R176). -/
theorem columnTaps_window {s t : State} {l : Latch} {y e : Nat} (ht : t.latch = l) (hr : t.rstart.toNat = y % l.l)
    (hring : ∀ j, j < l.l → t.ring.read (key ((y + j) % l.l) e) = some (extendedAt s l.w l.h l.r (y + j) e)) :
    sum16 (columnTaps t e) = columnSum s l y e := by
  rw [columnTaps, columnSum, ht]
  congr 1
  refine List.map_congr_left fun j hj => ?_
  rw [slotOf_of_rstart (by rw [ht]) hr]
  exact readElem_some (hring j (List.mem_range.1 hj))

/-- One row iteration of `FSEP`, as far as `DST` and the window go (R171). -/
theorem sepRow_spec {s t : State} {l : Latch} {y : Nat} (hl : FilterLatch l) (h : Window s l y t) :
    (sepRow y t).dst = Mem.writeRow t.dst (key y 0) (outputRow s l y) ∧ Window s l (y + 1) (sepRow y t) := by
  have hwin := fun {j e} (hj : j < l.l) (he : e < l.w + 2 * l.r) => ringAppend_window hl h hj he
  constructor
  · show Mem.writeRow t.dst (key y 0) _ = _
    congr 1
    show (List.range t.latch.w).map (fun x => meanOf _ (sum16 (rowTaps (verticalPass (ringAppend y t)) x))) = _
    rw [h.latch, outputRow]
    refine List.map_congr_left fun x hx => ?_
    have hx := List.mem_range.1 hx
    show narrow8 (sum16 (rowTaps (verticalPass (ringAppend y t)) x) / BitVec.ofNat 16 t.latch.wt) = _
    rw [h.latch, rowTaps]
    show narrow8 (sum16 ((List.range t.latch.l).map fun j => midAt (verticalPass (ringAppend y t)) (x + j)) / _) = _
    rw [h.latch]
    congr 3
    refine List.map_congr_left fun j hj => ?_
    have hj := List.mem_range.1 hj
    have hxj : x + j < l.w + 2 * l.r := by have := hl.side; omega
    refine readElem_some (m := (verticalPass (ringAppend y t)).mid) ?_
    show (Mem.writeRow t.mid 0 ((List.range (t.latch.w + 2 * t.latch.r)).map fun e =>
      sum16 (columnTaps (ringAppend y t) e))).read (x + j) = _
    rw [h.latch, Mem.read_writeRow, dif_pos (by simpa using hxj)]
    simp only [Nat.sub_zero, List.getElem_map, List.getElem_range]
    exact congrArg some (columnTaps_window h.latch h.rstart fun i hi => hwin hi hxj)
  · have hlpos : 0 < l.l := by have := hl.side; omega
    have hle : l.l ≤ 15 := by have := hl.side; have := hl.radius; omega
    refine ⟨(sepRow_latch y t).trans h.latch,
      ⟨h.source.1.trans (sepRow_src y t).symm, h.source.2.trans (sepRow_epoch y t).symm⟩, ?_, fun j e hj he => ?_⟩
    · rw [sepRow, ringRotate_rstart, horizontalPass_rstart, horizontalPass_latch, verticalPass_rstart, verticalPass_latch,
        ringAppend_rstart, ringAppend_latch, h.latch, h.rstart, BitVec.toNat_ofNat, Nat.mod_add_mod]
      have := Nat.mod_lt (y + 1) hlpos
      exact Nat.mod_eq_of_lt (by omega)
    · have := hwin (j := j + 1) (e := e) (by omega) he
      rw [show y + 1 + j = y + (j + 1) by omega, sepRow, ringRotate_ring, horizontalPass_ring, verticalPass_ring]
      exact this

end Sys2Proof.Machine
end

