-- ==== Sys2Proof/Laws/Box.lean ====
section
/-! SUPPORT. The three filter commands compute `box` (R150): exact sums, the exchange of the two passes, and the row loops
of each command. -/

namespace Sys2Proof.Machine

theorem sum_le_of_forall_le (n b : Nat) (f : Nat → Nat) (h : ∀ k, k < n → f k ≤ b) :
    ((List.range n).map f).sum ≤ n * b := by
  induction n with
  | zero => simp
  | succ n ih =>
    rw [List.range_succ, List.map_append, List.sum_append, Nat.succ_mul]
    have := ih fun k hk => h k (by omega)
    have := h n (by omega)
    simp; omega

/-- The two passes can be exchanged (R155, R170). -/
theorem sum_exchange (m n : Nat) (f : Nat → Nat → Nat) :
    ((List.range m).map fun (i : Nat) => ((List.range n).map fun (j : Nat) => f i j).sum).sum =
      ((List.range n).map fun (j : Nat) => ((List.range m).map fun (i : Nat) => f i j).sum).sum := by
  induction m with
  | zero => simp
  | succ m ih =>
    have hs : ∀ (n : Nat) (g h : Nat → Nat), ((List.range n).map fun (j : Nat) => g j + h j).sum =
        ((List.range n).map g).sum + ((List.range n).map h).sum := by
      intro n g h
      induction n with
      | zero => rfl
      | succ n ih => simp [List.range_succ, ih]; omega
    simp only [List.range_succ, List.map_append, List.map_singleton, List.sum_append, List.sum_singleton, ih, hs]

theorem extendedAt_toNat (s : State) (w h r y x : Nat) :
    (extendedAt s w h r y x).toNat = imageOf s (clampIndex ((y : Int) - r) h) (clampIndex ((x : Int) - r) w) := by
  simp [extendedAt, imageOf]

theorem extendedAt_le (s : State) (w h r y x : Nat) : (extendedAt s w h r y x).toNat ≤ 255 := by
  rw [extendedAt_toNat, imageOf]
  have := (srcAt s (clampIndex ((y : Int) - r) h) (clampIndex ((x : Int) - r) w)).isLt
  omega

/-- `S(x, y)` of R150 over the extended image. -/
theorem boxSum_extended (s : State) (w h r y x : Nat) :
    boxSum (imageOf s) w h r y x =
      ((List.range (2 * r + 1)).map fun (dy : Nat) =>
        ((List.range (2 * r + 1)).map fun (dx : Nat) => (extendedAt s w h r (y + dy) (x + dx)).toNat).sum).sum := by
  simp only [boxSum, extendedAt_toNat, Nat.cast_add]

theorem boxSum_le (r : Nat) (s : State) (w h y x : Nat) :
    boxSum (imageOf s) w h r y x ≤ (2 * r + 1) * (2 * r + 1) * 255 := by
  rw [boxSum_extended, Nat.mul_assoc]
  exact sum_le_of_forall_le _ _ _ fun dy _ => sum_le_of_forall_le _ _ _ fun dx _ => extendedAt_le ..

theorem weight_le {r : Nat} (hr : r ≤ 7) : (2 * r + 1) * (2 * r + 1) ≤ 225 :=
  Nat.mul_le_mul (by omega : 2 * r + 1 ≤ 15) (by omega : 2 * r + 1 ≤ 15)

/-- Division by the weight and narrowing, exactly (R156). -/
theorem mean_toNat {wt : Nat} {sum : U16} (hwt : wt ≠ 0) (hw : wt < 65536) (hs : sum.toNat ≤ wt * 255) :
    (narrow8 (sum / BitVec.ofNat 16 wt)).toNat = sum.toNat / wt := by
  have hq : sum.toNat / wt ≤ 255 := by
    have := Nat.div_le_div_right (c := wt) hs
    rwa [Nat.mul_div_cancel_left _ (Nat.pos_of_ne_zero hwt)] at this
  rw [narrow8, BitVec.toNat_setWidth, BitVec.toNat_udiv, BitVec.toNat_ofNat, Nat.mod_eq_of_lt hw]
  exact Nat.mod_eq_of_lt (by omega)

theorem columnSum_toNat {l : Latch} (hl : FilterLatch l) (s : State) (y e : Nat) :
    (columnSum s l y e).toNat =
      ((List.range l.l).map fun (j : Nat) => (extendedAt s l.w l.h l.r (y + j) e).toNat).sum := by
  have hle := sum_le_of_forall_le l.l 255 (fun j => (extendedAt s l.w l.h l.r (y + j) e).toNat)
    fun k _ => extendedAt_le ..
  have := hl.side
  have := hl.radius
  have hmap : (((List.range l.l).map fun (j : Nat) => extendedAt s l.w l.h l.r (y + j) e).map BitVec.toNat) =
      (List.range l.l).map fun (j : Nat) => (extendedAt s l.w l.h l.r (y + j) e).toNat := by simp
  rw [columnSum, sum16_toNat, hmap]
  rw [hmap]; omega

/-- The output rows of the two-pass filters are rows of `box` (R170, R177). -/
theorem outputRow_box {l : Latch} (hl : FilterLatch l) (s : State) {y x : Nat} (hx : x < l.w) :
    ∃ v, (outputRow s l y)[x]? = some v ∧ v.toNat = boxAt (imageOf s) l.w l.h l.r y x := by
  refine ⟨_, by rw [outputRow, List.getElem?_map, List.getElem?_range hx]; rfl, ?_⟩
  have hmap : (((List.range l.l).map fun (j : Nat) => columnSum s l y (x + j)).map BitVec.toNat).sum =
      boxSum (imageOf s) l.w l.h l.r y x := by
    rw [List.map_map]
    simp only [Function.comp_def, columnSum_toNat hl]
    rw [boxSum_extended, sum_exchange, hl.side]
  have hbox := boxSum_le l.r s l.w l.h y x
  have hwl := weight_le hl.radius
  have hsum : (sum16 ((List.range l.l).map fun (j : Nat) => columnSum s l y (x + j))).toNat =
      boxSum (imageOf s) l.w l.h l.r y x := by rw [sum16_toNat, hmap]; rw [hmap]; omega
  rw [mean_toNat (by rw [hl.weight]; simp) (by rw [hl.weight]; omega) (by rw [hsum, hl.weight]; omega), hsum, hl.weight,
    boxAt]

/-- One row iteration of `FVEC`: `DST` reads as after the scalar row, and the window advances (R201, R214). -/
theorem vecRow_spec {s t : State} {l : Latch} {y : Nat} (hl : FilterLatch l) (h : Window s l y t) :
    (∀ a, (vecRow y t).dst.read a = (Mem.writeRow t.dst (key y 0) (outputRow s l y)).read a) ∧
      Window s l (y + 1) (vecRow y t) := by
  obtain ⟨hdst, hwin⟩ := sepRow_spec hl h
  obtain ⟨mid, acc, hv, hmid⟩ := verticalGroups_spec (ringAppend y t)
  obtain ⟨dst, acc', hh, hd⟩ := horizontalGroups_spec y (verticalGroups (ringAppend y t))
  have hdst' : ∀ a, dst.read a = (horizontalPass y (verticalPass (ringAppend y t))).dst.read a := by
    intro a
    rw [hd, hv]
    have hrow : ∀ x, rowTaps ({ ringAppend y t with mid := mid, acc := acc }) x =
        rowTaps (verticalPass (ringAppend y t)) x := fun x =>
      List.map_congr_left fun j _ => readElem_congr rfl (hmid (x + j))
    show (Mem.writeRow (ringAppend y t).dst (key y 0) _).read a = (Mem.writeRow (ringAppend y t).dst (key y 0) _).read a
    congr 2
    exact List.map_congr_left fun x _ => by rw [hrow]; rfl
  have heq : vecRow y t = { sepRow y t with dst := dst, mid := mid, acc := acc' } := by
    rw [vecRow, hh, hv]; rfl
  refine ⟨fun a => ?_, ?_⟩
  · rw [← hdst, heq]; exact hdst' a
  · rw [heq]
    exact ⟨hwin.latch, hwin.source, hwin.rstart, hwin.slots⟩

/-- One row iteration of `FNAIVE`, when `XGRID` holds the extended image. -/
theorem naiveTaps_sum {s t : State} {l : Latch} (hl : FilterLatch l) (ht : t.latch = l) {y x : Nat} (hy : y < l.h)
    (hx : x < l.w)
    (hg : ∀ j e, j < l.h + 2 * l.r → e < l.w + 2 * l.r →
      t.xgrid.read (key j e) = some (extendedAt s l.w l.h l.r j e)) :
    (sum16 (naiveTaps t y x)).toNat = boxSum (imageOf s) l.w l.h l.r y x := by
  have hside := hl.side
  have htaps : naiveTaps t y x = (List.range l.l).flatMap fun (dy : Nat) => (List.range l.l).map fun (dx : Nat) =>
      extendedAt s l.w l.h l.r (y + dy) (x + dx) := by
    rw [naiveTaps, ht, List.flatMap_def, List.flatMap_def]
    congr 1
    refine List.map_congr_left fun dy hdy => List.map_congr_left fun dx hdx => ?_
    have := List.mem_range.1 hdy
    have := List.mem_range.1 hdx
    exact readElem_some (hg _ _ (by omega) (by omega))
  have hsum : ((naiveTaps t y x).map BitVec.toNat).sum = boxSum (imageOf s) l.w l.h l.r y x := by
    rw [htaps, boxSum_extended, hl.side, List.map_flatMap, List.flatMap_def, List.sum_flatten, List.map_map]
    simp only [Function.comp_def, List.map_map]
  have := boxSum_le l.r s l.w l.h y x
  have := weight_le hl.radius
  rw [sum16_toNat, hsum]
  rw [hsum]; omega

theorem naiveRow_dst {s t : State} {l : Latch} (hl : FilterLatch l) (ht : t.latch = l) {y : Nat} (hy : y < l.h)
    (hg : ∀ j e, j < l.h + 2 * l.r → e < l.w + 2 * l.r →
      t.xgrid.read (key j e) = some (extendedAt s l.w l.h l.r j e)) :
    (naiveRow y t).dst = Mem.writeRow t.dst (key y 0) (outputRow s l y) := by
  show Mem.writeRow t.dst (key y 0) _ = _
  congr 1
  rw [ht]
  refine List.ext_getElem (by simp [outputRow]) fun x hx hx' => ?_
  have hx : x < l.w := by simpa using hx
  obtain ⟨v, hv, hbox⟩ := outputRow_box hl s (y := y) hx
  have hv' : (outputRow s l y)[x] = v := by
    rw [List.getElem?_eq_getElem hx'] at hv; exact Option.some.inj hv
  rw [hv']
  apply BitVec.eq_of_toNat_eq
  have hs := naiveTaps_sum hl ht hy hx hg
  have := boxSum_le l.r s l.w l.h y x
  have := weight_le hl.radius
  simp only [List.getElem_map, List.getElem_range, meanOf]
  rw [ht, mean_toNat (by rw [hl.weight]; simp) (by rw [hl.weight]; omega) (by rw [hs, hl.weight]; omega), hs, hbox,
    boxAt, hl.weight]

/-- What the row loop of any filter command leaves in `DST`, once its rows are known to be `box` rows. -/
theorem rows_dst {f : Nat → State → State} {s t : State} {l : Latch} (hl : FilterLatch l) (I : Nat → State → Prop)
    (h0 : I 0 t) (hI : ∀ y u, y < l.h → I y u → I (y + 1) (f y u))
    (hw : ∀ y u, y < l.h → I y u → ∀ a, (f y u).dst.read a = (Mem.writeRow u.dst (key y 0) (outputRow s l y)).read a) :
    ∀ a, (loop f l.h t).dst.read a =
      if a / rowPitch < l.h ∧ a % rowPitch < l.w then (outputRow s l (a / rowPitch))[a % rowPitch]? else t.dst.read a := by
  intro a
  have hlen : ∀ y, (outputRow s l y).length = l.w := fun y => by simp [outputRow]
  rw [loop_rows (f := f) State.dst (fun y => outputRow s l y) I h0 hI hw
    (fun y _ => by rw [hlen]; have := hl.columns; omega) a, hlen]

end Sys2Proof.Machine
end

