-- ==== Sys2Proof/Laws/PerInstr.lean ====
section
/-! SUPPORT. Statements made for every instruction, one lemma per constructor: what the fields that select a command
hold in its word. -/

namespace Sys2Proof.Laws.Selector

/-- The word of an instruction has the instruction's opcode in bits 3:0 and 0 in bits 7:4, whatever the operands
(R101, R102, R106). -/
def Statement (i : Instr) : Prop := fieldOp (encode i) = i.opcode ∧ fieldZ1 (encode i) = 0

/-- The selecting byte of a word of either format: the operand fields lie above it. -/
theorem low_fields (hi : BitVec 24) (op : BitVec 4) (c : Word) (h : c = hi ++ 0#4 ++ op) :
    fieldOp c = op ∧ fieldZ1 c = 0 := by
  subst h
  constructor
  · apply BitVec.eq_of_getLsbD_eq
    intro k hk
    have h := BitVec.getLsbD_append (x := hi ++ 0#4) (y := op) (i := k)
    rw [if_pos hk] at h
    simp only [fieldOp, BitVec.getLsbD_extractLsb', hk, decide_true, Bool.true_and, Nat.zero_add]
    exact h
  · apply BitVec.eq_of_getLsbD_eq
    intro k hk
    have h := BitVec.getLsbD_append (x := hi ++ 0#4) (y := op) (i := 4 + k)
    have h0 := BitVec.getLsbD_append (x := hi) (y := 0#4) (i := k)
    rw [if_pos hk] at h0
    rw [if_neg (by omega), Nat.add_sub_cancel_left, h0] at h
    simp only [fieldZ1, BitVec.getLsbD_extractLsb', hk, decide_true, Bool.true_and]
    exact h.trans (by simp)

theorem ext1d (margin : Int) : Statement (.ext1d margin) := low_fields (0#16 ++ BitVec.ofInt 8 margin) _ _ rfl
theorem ext2d (hMargin vMargin : Int) : Statement (.ext2d hMargin vMargin) :=
  low_fields (0#8 ++ BitVec.ofInt 8 vMargin ++ BitVec.ofInt 8 hMargin) _ _ rfl
theorem fnaive (radius : Int) : Statement (.fnaive radius) := low_fields (0#16 ++ BitVec.ofInt 8 radius) _ _ rfl
theorem fsep (radius : Int) : Statement (.fsep radius) := low_fields (0#16 ++ BitVec.ofInt 8 radius) _ _ rfl
theorem fvec (radius : Int) : Statement (.fvec radius) := low_fields (0#16 ++ BitVec.ofInt 8 radius) _ _ rfl

end Sys2Proof.Laws.Selector
end

