-- ==== Sys2Proof/Laws/Step.lean ====
section
/-! SUPPORT. What the port, the engine and one step can do, each said once: the inversion lemmas that proofs over `step`
cite instead of unfolding it. -/

namespace Sys2Proof.Machine

/-- A host action performed: a register write, an answered read, a write of `SRC` or of `SLEN`, or a write without
effect (R40, R70, R77). -/
theorem perform_cases {a : HostAction} {s t : State} (h : perform a s = .next t) :
    (∃ reg v, a = .regWrite reg v ∧ t = regWrite reg v s) ∨
    (a.isRead = true ∧ ∃ v, t = answer a v s) ∨
    (∃ y x v, a = .memWrite .src y x v ∧ inSpace s.params .src y x = true ∧
      t = { s with src := s.src.write (key y x) v }) ∨
    (∃ y v, a = .tabWrite .slen y v ∧ inTable s.params .slen y = true ∧
      t = { s with slen := s.slen.write y (BitVec.ofNat 16 (v.toNat % 2 ^ s.params.xw)) }) ∨
    t = s := by
  cases a with
  | regRead reg => exact .inr (.inl ⟨rfl, _, (Host.Outcome.next.inj h).symm⟩)
  | regWrite reg v => exact .inl ⟨reg, v, rfl, (Host.Outcome.next.inj h).symm⟩
  | memRead space y x =>
    simp only [perform] at h
    split at h
    · exact .inr (.inl ⟨rfl, _, (Host.Outcome.next.inj h).symm⟩)
    · cases h
  | memWrite space y x v =>
    simp only [perform] at h
    split at h
    · rename_i hin
      cases h
      cases space
      · exact .inr (.inr (.inl ⟨y, x, v, rfl, hin, rfl⟩))
      · exact .inr (.inr (.inr (.inr rfl)))
      · exact .inr (.inr (.inr (.inr rfl)))
    · cases h
  | tabRead table y =>
    simp only [perform] at h
    split at h
    · exact .inr (.inl ⟨rfl, _, (Host.Outcome.next.inj h).symm⟩)
    · cases h
  | tabWrite table y v =>
    simp only [perform] at h
    split at h
    · rename_i hin
      cases h
      cases table
      · exact .inr (.inr (.inr (.inl ⟨y, v, rfl, hin, rfl⟩)))
      · exact .inr (.inr (.inr (.inr rfl)))
    · cases h

/-- A register write performed: `HEIGHT`, a command issued, or nothing (R40, R42, R43). -/
theorem regWrite_cases (reg : Reg) (v : Word) (s : State) :
    (reg = .height ∧ regWrite reg v s = { s with height := heightStored s.params v }) ∨
    (reg = .cmd ∧ regWrite reg v s = accept v s) ∨ regWrite reg v s = s := by
  cases reg
  · exact .inr (.inr rfl)
  · exact .inl ⟨rfl, rfl⟩
  · exact .inr (.inl ⟨rfl, rfl⟩)
  · exact .inr (.inr rfl)
  · exact .inr (.inr rfl)
  · exact .inr (.inr rfl)

/-- An action made: held, or performed at once (R84). -/
theorem make_cases {a : HostAction} {s t : State} (h : make a s = .next t) :
    (a.isRegRead = false ∧ (s.busy = true ∨ s.held ≠ []) ∧ t = { s with held := s.held ++ [a] }) ∨
    ((a.isRegRead = true ∨ s.busy = false ∧ s.held = []) ∧ perform a s = .next t) := by
  unfold make at h
  split at h
  · rename_i ha
    exact .inr ⟨.inl ha, h⟩
  · rename_i ha
    split at h
    · rename_i hb
      refine .inl ⟨by simpa using ha, by simpa using hb, (Host.Outcome.next.inj h).symm⟩
    · rename_i hb
      exact .inr ⟨.inr (by simpa using hb), h⟩

/-- The outside world's move: nothing, a reset, an action made, or a wait over. -/
theorem hostMove_cases {s t : State} (h : hostMove s = .next t) :
    (s.script = [] ∧ t = s) ∨
    (∃ rest, s.script = .reset :: rest ∧ t = resetBlock { s with script := rest }) ∨
    (∃ a rest, s.script = .act a :: rest ∧ make a { s with script := rest } = .next t) ∨
    (∃ rest, s.script = .await :: rest ∧ t = { s with script := rest }) := by
  unfold hostMove at h
  split at h
  · rename_i hs; exact .inl ⟨hs, (Host.Outcome.next.inj h).symm⟩
  · rename_i rest hs; exact .inr (.inl ⟨rest, hs, (Host.Outcome.next.inj h).symm⟩)
  · rename_i a rest hs; exact .inr (.inr (.inl ⟨a, rest, hs, h⟩))
  · rename_i rest hs; exact .inr (.inr (.inr ⟨rest, hs, (Host.Outcome.next.inj h).symm⟩))

/-- A meaning is the whole command of the instruction's stages: no command stops the machine. -/
theorem exec_eq (i : Instr) (s : State) : exec i s = .next (runBody (bodyOf i) s) := by cases i <;> rfl

/-- The engine's move over all that remains of a command. -/
theorem engineCommand_cases (s : State) :
    ((∃ e, decode s.cmd = .error e) ∧ engineCommand s = .next (raiseErr .illegalCommand s)) ∨
    (∃ i, decode s.cmd = .ok i ∧
      ((s.seq.phase = .idle ∧ engineCommand s = .next s) ∨
       (s.seq.phase = .check ∧ engineCommand s = .next (runBody (bodyOf i) s)) ∨
       ((s.seq.phase = .fill ∨ s.seq.phase = .row) ∧ engineCommand s = .next (resumeBody (bodyOf i) s)))) := by
  unfold engineCommand
  cases hd : decode s.cmd with
  | error e => exact .inl ⟨⟨e, rfl⟩, rfl⟩
  | ok i =>
    refine .inr ⟨i, rfl, ?_⟩
    cases hp : s.seq.phase with
    | idle  => exact .inl ⟨rfl, rfl⟩
    | check => exact .inr (.inl ⟨rfl, exec_eq i s⟩)
    | fill  => exact .inr (.inr ⟨.inl rfl, rfl⟩)
    | row   => exact .inr (.inr ⟨.inr rfl, rfl⟩)

/-- One stage of the engine. -/
theorem engineStage_cases (s : State) :
    (s.seq.phase = .idle ∧ engineStage s = s) ∨
    (s.seq.phase ≠ .idle ∧ (∃ e, decode s.cmd = .error e) ∧ engineStage s = raiseErr .illegalCommand s) ∨
    (s.seq.phase ≠ .idle ∧ ∃ i, decode s.cmd = .ok i ∧ engineStage s = stageBody (bodyOf i) s) := by
  unfold engineStage
  cases hp : s.seq.phase with
  | idle => exact .inl ⟨rfl, rfl⟩
  | check => cases hd : decode s.cmd <;> simp
  | fill => cases hd : decode s.cmd <;> simp
  | row => cases hd : decode s.cmd <;> simp

/-- Who moves, and what that says of the state. -/
theorem nextMove_cases (s : State) :
    (nextMove s = .host ∧ hostReady s = true) ∨
    ((nextMove s = .stage ∨ nextMove s = .command) ∧ engineReady s = true) ∨
    (nextMove s = .port ∧ engineReady s = false ∧ portReady s = true) ∨
    (nextMove s = .rest ∧ engineReady s = false ∧ portReady s = false ∧ hostReady s = false) := by
  have hb : ∀ m, m = .stage ∨ m = .command →
      (blockFirst m s = .host ∧ hostReady s = true) ∨
      ((blockFirst m s = .stage ∨ blockFirst m s = .command) ∧ engineReady s = true) ∨
      (blockFirst m s = .port ∧ engineReady s = false ∧ portReady s = true) ∨
      (blockFirst m s = .rest ∧ engineReady s = false ∧ portReady s = false ∧ hostReady s = false) := by
    intro m hm
    unfold blockFirst
    cases he : engineReady s <;> cases hp : portReady s <;> cases hh : hostReady s <;> simp [hm]
  unfold nextMove
  split
  · exact hb _ (.inr rfl)
  · exact hb _ (.inr rfl)
  · exact hb _ (.inl rfl)
  · split
    · rename_i hh; exact .inl ⟨rfl, hh⟩
    · exact hb _ (.inr rfl)

/-- What one step can do: the outside world's move, the engine's, the port's, or nobody's. -/
theorem step_cases {s t : State} (h : step s = .next t) :
    (hostReady s = true ∧ hostMove (popTurn s) = .next t) ∨
    (engineReady s = true ∧ t = engineStage (popTurn s)) ∨
    (engineReady s = true ∧ engineCommand (popTurn s) = .next t) ∨
    (engineReady s = false ∧ ∃ a rest, s.held = a :: rest ∧ s.busy = false ∧
      perform a { popTurn s with held := rest } = .next t) ∨
    (engineReady s = false ∧ portReady s = false ∧ hostReady s = false ∧ t = popTurn s) := by
  unfold step at h
  rcases nextMove_cases s with ⟨hm, hh⟩ | ⟨hm | hm, he⟩ | ⟨hm, he, hp⟩ | ⟨hm, he, hp, hh⟩ <;> rw [hm] at h
  · exact .inl ⟨hh, h⟩
  · exact .inr (.inl ⟨he, (Host.Outcome.next.inj h).symm⟩)
  · exact .inr (.inr (.inl ⟨he, h⟩))
  · refine .inr (.inr (.inr (.inl ⟨he, ?_⟩)))
    cases hheld : s.held with
    | nil => simp [portReady, hheld] at hp
    | cons a rest =>
      refine ⟨a, rest, rfl, by simpa [portReady, hheld] using hp, ?_⟩
      have hp' : (popTurn s).held = a :: rest := hheld
      simpa only [makeMove, portMove, hp'] using h
  · exact .inr (.inr (.inr (.inr ⟨he, hp, hh, (Host.Outcome.next.inj h).symm⟩)))

end Sys2Proof.Machine
end

