-- ==== Sys2Proof/Tests/Slice0.lean ====
section
/-! SUPPORT. The model's own tests: ill-formed instructions refused, words decoded, one command at a time run on the
worked examples of spec/95_test_vectors.md, and for every statement with hypotheses a state and operands that meet
them. -/

namespace Sys2Proof.Tests

open Sys2Proof Sys2Proof.Machine

/-! ### Well-formedness: an operand outside its field (R103, R111) -/

theorem test_ext1d_operand_too_large : ¬ (Instr.ext1d 128).WellFormed := by decide
theorem test_ext1d_operand_too_small : ¬ (Instr.ext1d (-129)).WellFormed := by decide
theorem test_ext2d_first_operand_too_large : ¬ (Instr.ext2d 128 0).WellFormed := by decide
theorem test_ext2d_second_operand_too_small : ¬ (Instr.ext2d 0 (-129)).WellFormed := by decide
theorem test_fnaive_operand_too_large : ¬ (Instr.fnaive 128).WellFormed := by decide
theorem test_fsep_operand_too_small : ¬ (Instr.fsep (-129)).WellFormed := by decide
theorem test_fvec_operand_too_large : ¬ (Instr.fvec 128).WellFormed := by decide

/-! ### Decoding: words written out field by field from the formats of R101, bit 31 first -/

/-- Z2 = 0, A = 11111111 (-1), Z1 = 0, OP = 0001. -/
theorem test_decode_ext1d : decodeTableWord 32 0b00000000000000001111111100000001 = some (.ext1d (-1)) := by decide

/-- Z3 = 0, B = 10000000 (-128), A = 01111111 (127), Z1 = 0, OP = 0010. -/
theorem test_decode_ext2d : decodeTableWord 32 0b00000000100000000111111100000010 = some (.ext2d 127 (-128)) := by decide

/-- Z2 = 0, A = 10000000 (-128), Z1 = 0, OP = 0100 (also T40's 0x00008004). -/
theorem test_decode_fnaive : decodeTableWord 32 0b00000000000000001000000000000100 = some (.fnaive (-128)) := by decide

/-- Z2 = 0, A = 00000111 (7), Z1 = 0, OP = 0101. -/
theorem test_decode_fsep : decodeTableWord 32 0b00000000000000000000011100000101 = some (.fsep 7) := by decide

/-- Z2 = 0, A = 00001000 (8), Z1 = 0, OP = 0110. -/
theorem test_decode_fvec : decodeTableWord 32 0b00000000000000000000100000000110 = some (.fvec 8) := by decide

/-- T40: the illegal words: reserved opcodes, and each must-be-zero field of each format. -/
theorem test_decode_illegal :
    [0x0, 0x3, 0x7, 0x8, 0x9, 0xA, 0xB, 0xC, 0xD, 0xE, 0xF, 0x01000002, 0x00010105, 0x00010001, 0x00000115, 0x00010805,
      0xFFFFFFFF].map (decodeTableWord 32) = List.replicate 17 none := by decide

/-! ### One command on a small image -/

/-- One source row, placed as the host would: its length, then its samples from column `x` on. -/
def putSamples (y : Nat) : Nat → List Nat → State → State
  | _, [],      s => s
  | x, v :: vs, s => putSamples y (x + 1) vs (memWrite .src y x (BitVec.ofNat 8 v) s)

/-- The source rows from row `y` on. -/
def putRows : Nat → List (List Nat) → State → State
  | _, [],          s => s
  | y, row :: rows, s => putRows (y + 1) rows (putSamples y 0 row (tabWrite .slen y (BitVec.ofNat 32 row.length) s))

/-- An instance with `2^log2g` lanes and the given source grid. -/
def grid (log2g : Fin 9) (rows : List (List Nat)) : State :=
  regWrite .height (BitVec.ofNat 32 rows.length)
    (putRows 0 rows (State.resetOf { Config.Params.default with log2g := log2g }))

/-- The state after the command word `w`, issued on `s`, has run. -/
def after (w : Nat) (s : State) : State :=
  match step (s.withFetchWord 32 w) with
  | .next t    => t
  | .fault _   => s
  | .refused _ => s

/-- `DST`, rows `[0, OUT_H)`, columns `[0, OUT_W)`. -/
def dstGrid (s : State) : List (List Nat) :=
  (List.range s.outH.toNat).map fun y => (List.range s.outW.toNat).map fun x => (dstAt s y x).toNat

/-- `EXT`, rows `[0, OUT_H)`, each over its length. -/
def extGrid (s : State) : List (List Nat) :=
  (List.range s.outH.toNat).map fun j => (List.range (elenAt s j)).map fun e => (extAt s j e).toNat

/-- R137's example. -/
theorem test_ext1d_example :
    let t := after 0x00000201 (grid 4 [[5, 6, 7]])
    extGrid t = [[5, 5, 5, 6, 7, 7, 7]] ∧ t.outW = 7 ∧ t.outH = 1 ∧ t.status = 2 := by decide +kernel

/-- T41, last row: `EXT1D` does not read `HEIGHT`. -/
theorem test_ext1d_ignores_height :
    (after 0x00000101 { grid 4 [[9, 8, 7, 6]] with height := 0 }).status = 2 := by decide +kernel

/-- R138's example. -/
theorem test_ext2d_example :
    let t := after 0x00010202 (grid 4 [[1, 2], [3, 4]])
    extGrid t = [[1, 1, 1, 2, 2, 2], [1, 1, 1, 2, 2, 2], [3, 3, 3, 4, 4, 4], [3, 3, 3, 4, 4, 4]] ∧
      t.outW = 6 ∧ t.outH = 4 ∧ t.status = 2 := by decide +kernel

/-- T11, the first ragged grid. -/
theorem test_ext2d_ragged :
    extGrid (after 0x00010102 (grid 4 [[1, 2, 3], [4]])) = [[1, 1, 2, 3, 3], [1, 1, 2, 3, 3], [4, 4, 4], [4, 4, 4]] := by
  decide +kernel

/-- T12, vector V-A. -/
theorem test_fnaive_v_a :
    let t := after 0x00000104 (grid 4 [[10, 20, 30, 40], [50, 60, 70, 80], [90, 100, 110, 120]])
    dstGrid t = [[26, 33, 43, 50], [53, 60, 70, 76], [80, 86, 96, 103]] ∧ t.status = 2 := by decide +kernel

/-- T17, truncation. -/
theorem test_fnaive_truncates : dstGrid (after 0x00000104 (grid 4 [[255, 254]])) = [[254, 254]] := by decide +kernel

/-- T19 and T21, vector V-B: the output, `RSTART` and the last row's `MID`. -/
theorem test_fsep_v_b :
    let t := after 0x00000205
      (grid 4 [[0, 255, 0, 255, 0], [255, 0, 255, 0, 255], [1, 2, 3, 4, 5], [200, 100, 50, 25, 12]])
    dstGrid t = [[71, 92, 92, 92, 72], [91, 94, 87, 80, 66], [111, 97, 82, 67, 60], [131, 100, 77, 55, 55]] ∧
      t.rstart = 4 ∧
      (List.range 9).map (fun e => (midAt t e).toNat) = [856, 856, 856, 302, 408, 79, 296, 296, 296] := by
  decide +kernel

/-- T15, second case: one column, fewer rows than the window. -/
theorem test_fsep_one_column :
    dstGrid (after 0x00000305 (grid 4 [[9], [18], [27], [36], [45]])) = [[16], [21], [27], [32], [37]] := by
  decide +kernel

/-- T30, vector VV1, four lanes: an anchored group overlaps. -/
theorem test_fvec_vv1 :
    dstGrid (after 0x00000106 (grid 2 [[1, 2, 3, 4, 5, 6], [60, 50, 40, 30, 20, 10]])) =
      [[19, 18, 15, 12, 10, 8], [38, 34, 27, 21, 15, 10]] := by decide +kernel

/-- T32, vector VV2, four lanes: a masked group; `MID` and the three active lanes. -/
theorem test_fvec_vv2 :
    let t := after 0x00000106 (grid 2 [[9, 90, 200]])
    dstGrid t = [[36, 99, 163]] ∧ (List.range 5).map (fun e => (midAt t e).toNat) = [27, 27, 270, 600, 600] ∧
      (List.range 3).map (fun i => (accAt t i).toNat) = [36, 99, 163] := by decide +kernel

/-- T31, from `G = 16` and `G = 4`. -/
theorem test_groups :
    groups 16 5 = [(0, 5)] ∧ groups 16 50 = [(0, 16), (16, 16), (32, 16), (34, 16)] ∧
      groups 4 9 = [(0, 4), (4, 4), (5, 4)] ∧ groups 4 8 = [(0, 4), (4, 4)] := by decide

/-- R41, D2: `CAP` of instances with different lane widths (P5). -/
theorem test_cap : capWord (grid 4 []).params = 0x10040C0C ∧ capWord (grid 0 []).params = 0x10000C0C := by decide

/-! ### Witnesses: states and operands that meet the hypotheses of the statements -/

/-- A 3 by 2 image, in the middle of its values. -/
def small : State := grid 4 [[1, 2, 3], [4, 5, 6]]

/-- A ragged grid. -/
def ragged : State := grid 4 [[1, 2, 3], [4]]

/-- A grid whose row 0 is empty. -/
def emptyRow : State := grid 4 [[], [4]]

/-- A bounded form of `LegalImage` that can be decided. -/
theorem legalImage_of {s : State}
    (h : s.height.toNat ≠ 0 ∧ slenAt s 0 ≠ 0 ∧ ∀ y, y < s.height.toNat → slenAt s y = slenAt s 0) : LegalImage s :=
  ⟨h.1, h.2.1, fun y _ hy => h.2.2 y hy⟩

theorem witness_LegalImage : LegalImage small ∧ LegalImage (grid 0 [[255]]) :=
  ⟨legalImage_of (by decide +kernel), legalImage_of (by decide +kernel)⟩

theorem witness_LegalGrid : LegalGrid small ∧ LegalGrid ragged :=
  ⟨⟨by decide +kernel, by decide +kernel⟩, ⟨by decide +kernel, by decide +kernel⟩⟩

theorem witness_DecodeEncodeRoundTrip :
    (Instr.ext1d (-128)).WellFormed ∧ (Instr.ext2d 127 (-128)).WellFormed ∧ (Instr.fnaive 127).WellFormed ∧
      (Instr.fsep 0).WellFormed ∧ (Instr.fvec (-1)).WellFormed := by decide

theorem witness_EncodeDecodeRoundTrip : decode 0x00FF7F02 = .ok (.ext2d 127 (-1)) := by decide

/-- The hypotheses of the eight clauses on words, in order, each met by a word. -/
theorem witness_DecodeAndEncodeInNumbers :
    (0xFF01 % 2 ^ 4 = 1 ∧ 0xFF01 / 2 ^ 16 = 0 ∧ 0xFF01 / 2 ^ 4 % 2 ^ 4 = 0) ∧
    (0x8004 % 2 ^ 4 = 4 ∧ 0x8004 / 2 ^ 16 = 0 ∧ 0x8004 / 2 ^ 4 % 2 ^ 4 = 0) ∧
    (0x0705 % 2 ^ 4 = 5 ∧ 0x0705 / 2 ^ 16 = 0 ∧ 0x0705 / 2 ^ 4 % 2 ^ 4 = 0) ∧
    (0x0006 % 2 ^ 4 = 6 ∧ 0x0006 / 2 ^ 16 = 0 ∧ 0x0006 / 2 ^ 4 % 2 ^ 4 = 0) ∧
    (0xFF7F02 % 2 ^ 4 = 2 ∧ 0xFF7F02 / 2 ^ 24 = 0 ∧ 0xFF7F02 / 2 ^ 4 % 2 ^ 4 = 0) ∧
    (0x10005 % 2 ^ 4 ∈ [1, 4, 5, 6] ∧ 0x10005 / 2 ^ 16 ≠ 0) ∧ (0x115 % 2 ^ 4 ∈ [1, 4, 5, 6] ∧ 0x115 / 2 ^ 4 % 2 ^ 4 ≠ 0) ∧
    (0x1000002 % 2 ^ 4 = 2 ∧ 0x1000002 / 2 ^ 24 ≠ 0) ∧ (0x12 % 2 ^ 4 = 2 ∧ 0x12 / 2 ^ 4 % 2 ^ 4 ≠ 0) ∧
    0xFFFFFFFF % 2 ^ 4 ∉ [1, 2, 4, 5, 6] ∧ operandFits (-128) ∧ operandFits 127 := by decide

/-- Both sides of each equivalence hold of a word. -/
theorem witness_OpcodeMapMatchAndMask :
    decode 0x00008001 = .ok (.ext1d (-128)) ∧ (0x00008001 : Word) &&& 0xFFFF00FF = 1 ∧
    decode 0x0080FF02 = .ok (.ext2d (-1) (-128)) ∧ (0x0080FF02 : Word) &&& 0xFF0000FF = 2 ∧
    decode 0x00007F04 = .ok (.fnaive 127) ∧ (0x00007F04 : Word) &&& 0xFFFF00FF = 4 ∧
    decode 0x0000FF05 = .ok (.fsep (-1)) ∧ (0x0000FF05 : Word) &&& 0xFFFF00FF = 5 ∧
    decode 0x00000706 = .ok (.fvec 7) ∧ (0x00000706 : Word) &&& 0xFFFF00FF = 6 := by decide

theorem witness_IllegalWordsEndWithIllegalCommand :
    decode 0x00010805 = .error .nonzeroZ2 ∧ decode 0x01000002 = .error .nonzeroZ3 ∧
      decode 0x00000115 = .error .nonzeroZ1 ∧ decode 0xFFFFFFFF = .error .reservedOpcode := by decide

theorem witness_AcceptanceOfACommand :
    decode 0x3 = .error .reservedOpcode ∧
    (decode 0x806 = .ok (.fvec 8) ∧ (bodyOf (.fvec 8)).check (accept 0x806 small) = .error .invalidRadius) ∧
    (decode 0x104 = .ok (.fnaive 1) ∧ (bodyOf (.fnaive 1)).check (accept 0x104 small) =
      .ok { r := 1, l := 3, wt := 9, w := 3, h := 2, hMargin := 0, vMargin := 0 }) := by decide +kernel

theorem witness_StagesReachTheWholeCommand :
    Accepted (.fnaive 1) (accept 0x104 small) ∧
      ∃ t, exec (.fnaive 1) (accept 0x104 small) = .next t := ⟨⟨by decide, by decide, by decide⟩, _, rfl⟩

/-- Right after acceptance. -/
theorem inv_accepted : Inv (accept 0x104 small) where
  height := by decide +kernel
  status := by decide +kernel
  busy := by decide +kernel
  counter := by decide +kernel
  latched := fun h => absurd h (by decide +kernel)
  rstart := by decide +kernel
  canonical := by constructor <;> decide +kernel
  inRange := by constructor <;> decide +kernel
  heldKind := by decide +kernel

/-- `n` stages after acceptance of `FNAIVE 1`, and a held read. -/
def running (n : Nat) : State :=
  { loop (fun _ => engineStage) n (accept 0x104 small) with held := [.regWrite .cmd 0x5, .memRead .dst 0 0] }

/-- The first clause with an empty schedule and with the engine's turn, the second, the third with one stage's turn, and the
fourth in each loop. -/
theorem witness_StepRunsTheDecodedCommand :
    (decode (accept 0x104 small).cmd = .ok (.fnaive 1) ∧ (accept 0x104 small).seq.phase = .check ∧
      (accept 0x104 small).schedule.head? = none) ∧
    (decode (issued 0x104 small).cmd = .ok (.fnaive 1) ∧ (issued 0x104 small).seq.phase = .check ∧
      (issued 0x104 small).schedule.head? = some .command) ∧
    decodeTableWord 32 0x00000705 = some (.fsep 7) ∧
    ({ running 3 with schedule := [.stage] }.seq.phase ≠ .idle ∧
      { running 3 with schedule := [.stage] }.schedule.head? = some .stage) ∧
    (decode (running 3).cmd = .ok (.fnaive 1) ∧ (running 3).seq.phase = .fill ∧ (running 3).schedule.head? = none) ∧
    (decode (running 7).cmd = .ok (.fnaive 1) ∧ (running 7).seq.phase = .row ∧ (running 7).schedule.head? = none) := by
  decide +kernel

theorem inv_running_fill : Inv (running 3) where
  height := by decide +kernel
  status := by decide +kernel
  busy := by decide +kernel
  counter := fun h => absurd h (by decide +kernel)
  latched := fun _ => ⟨.fnaive 1, by decide +kernel, by decide +kernel, by decide +kernel,
    fun _ => ⟨⟨1, .inl rfl⟩, by decide +kernel⟩⟩
  rstart := by decide +kernel
  canonical := by constructor <;> decide +kernel
  inRange := by constructor <;> decide +kernel
  heldKind := by decide +kernel

theorem inv_running_row : Inv (running 7) where
  height := by decide +kernel
  status := by decide +kernel
  busy := by decide +kernel
  counter := fun h => absurd h (by decide +kernel)
  latched := fun _ => ⟨.fnaive 1, by decide +kernel, by decide +kernel, by decide +kernel,
    fun _ => ⟨⟨1, .inl rfl⟩, by decide +kernel⟩⟩
  rstart := by decide +kernel
  canonical := by constructor <;> decide +kernel
  inRange := by constructor <;> decide +kernel
  heldKind := by decide +kernel

/-- The command accepted, in the middle of its set-up loop, and in the middle of its row loop. -/
theorem witness_EveryAcceptedCommandEnds :
    (Inv (accept 0x104 small) ∧ (accept 0x104 small).busy = true ∧ (accept 0x104 small).schedule = []) ∧
    (Inv (running 3) ∧ (running 3).busy = true ∧ (running 3).schedule = [] ∧ (running 3).seq = { phase := .fill, y := 2 }) ∧
    (Inv (running 7) ∧ (running 7).busy = true ∧ (running 7).schedule = [] ∧ (running 7).seq = { phase := .row, y := 1 }) :=
  ⟨⟨inv_accepted, by decide +kernel⟩, ⟨inv_running_fill, by decide +kernel⟩, ⟨inv_running_row, by decide +kernel⟩⟩

theorem inv_reset : Inv State.reset where
  height := by decide +kernel
  status := by decide +kernel
  busy := by decide +kernel
  counter := by decide +kernel
  latched := fun h => absurd h (by decide +kernel)
  rstart := by decide +kernel
  canonical := by constructor <;> decide +kernel
  inRange := by constructor <;> decide +kernel
  heldKind := by decide +kernel

/-- Also the witness of `StepKeepsTheInvariant`, whose hypotheses are the same. -/
theorem witness_LifeOfTheFlags :
    (Inv State.reset ∧ ∃ t, step State.reset = .next t) ∧ (Inv (running 7) ∧ ∃ t, step (running 7) = .next t) :=
  ⟨⟨inv_reset, _, rfl⟩, ⟨inv_running_row, _, rfl⟩⟩

theorem witness_RunIsOverWhenNothingMoves :
    Inv State.reset ∧ RunOver State.reset ∧ State.reset.schedule = [] ∧ step State.reset = .next State.reset :=
  ⟨inv_reset, ⟨rfl, rfl, rfl⟩, rfl, rfl⟩

theorem witness_ErrorEnd : (bodyOf (.ext1d (-1))).check small = .error .invalidInput := by decide +kernel

/-- The four clauses: a radius below, a radius above; no rows, an empty row 0; a ragged grid; a legal image, with the
radii 0 and 7 at the ends of their range. -/
theorem witness_FilterValidationOrder :
    isFilter (.fsep (-1)) (-1) ∧ isFilter (.fvec 8) 8 ∧ isFilter (.fnaive 0) 0 ∧ isFilter (.fsep 7) 7 ∧
    (State.reset.height.toNat = 0) ∧ (emptyRow.height.toNat ≠ 0 ∧ slenAt emptyRow 0 = 0) ∧
    (ragged.height.toNat ≠ 0 ∧ slenAt ragged 0 ≠ 0 ∧ slenAt ragged 1 ≠ slenAt ragged 0 ∧ 1 < ragged.height.toNat) ∧
    LegalImage small :=
  ⟨.inr (.inl rfl), .inr (.inr rfl), .inl rfl, .inr (.inl rfl), by decide +kernel, by decide +kernel, by decide +kernel,
    witness_LegalImage.1⟩

theorem witness_InvalidInputIsTheExtendersError :
    ((accept 0x001 small).status = 1 ∧ ∃ t, exec (.ext1d 0) (accept 0x001 small) = .next t) ∧
    ((accept 0x002 ragged).status = 1 ∧ ∃ t, exec (.ext2d 0 0) (accept 0x002 ragged) = .next t) ∧
    ((accept 0x806 small).status = 1 ∧ isFilter (.fvec 8) 8 ∧ ∃ t, exec (.fvec 8) (accept 0x806 small) = .next t) ∧
    (decode 0x3 = .error .reservedOpcode ∧ ∃ t, step (issued 0x3 small) = .next t) :=
  ⟨⟨by decide +kernel, _, rfl⟩, ⟨by decide +kernel, _, rfl⟩, ⟨by decide +kernel, .inr (.inr rfl), _, rfl⟩,
    ⟨by decide, _, rfl⟩⟩

theorem witness_ErrorsArePrecise :
    small.seq = { phase := .idle, y := 0 } ∧
      ∃ t, engineCommand (accept 0x806 small) = .next t ∧ statusErr t.status = true :=
  ⟨by decide +kernel, _, rfl, by decide +kernel⟩

theorem witness_Extend1dOfASequence :
    extend1D [5, 6, 7] 0 = .ok [5, 6, 7] ∧ extend1D [9] 3 = .ok [9, 9, 9, 9, 9, 9, 9] ∧
      extend1D [5, 6, 7] (-1) = .error .invalidInput ∧ extend1D ([] : List Nat) 0 = .error .invalidInput := by decide

theorem witness_Extend2dOfAGrid :
    extend2D [[1, 2, 3], [4]] 1 1 = .ok [[1, 1, 2, 3, 3], [1, 1, 2, 3, 3], [4, 4, 4], [4, 4, 4]] ∧
      extend2D [[1, 2], []] 0 0 = .error .invalidInput ∧ extend2D ([] : List (List Nat)) 0 0 = .error .invalidInput ∧
      extend2D [[1, 2], [3, 4]] (-1) 0 = .error .invalidInput ∧
      extend2D [[1, 2], [3, 4]] 0 (-1) = .error .invalidInput := by decide

theorem witness_ExtendedRowIsExtend1d : slenAt small 0 ≠ 0 := by decide +kernel

/-- Both ends of the margin's range; and each cause of the error. -/
theorem witness_Ext1dResult :
    (127 ≤ 127 ∧ slenAt small 0 ≠ 0) ∧ (0 ≤ 127 ∧ slenAt (grid 4 [[9]]) 0 ≠ 0) ∧ (-1 : Int) < 0 ∧ slenAt emptyRow 0 = 0 := by
  decide +kernel

/-- Both ends of the margins' range; and each cause of the error. -/
theorem witness_Ext2dResult :
    (127 ≤ 127 ∧ 0 ≤ 127 ∧ LegalGrid ragged) ∧ State.reset.height.toNat = 0 ∧ (-1 : Int) < 0 ∧
      0 < emptyRow.height.toNat ∧ slenAt emptyRow 0 = 0 :=
  ⟨⟨by decide, by decide, witness_LegalGrid.2⟩, by decide +kernel⟩

theorem witness_ExtendersLatchTheirOperands : (0 : Int) ≤ 127 ∧ slenAt small 0 ≠ 0 ∧ LegalGrid ragged :=
  ⟨by decide, by decide +kernel, witness_LegalGrid.2⟩

theorem witness_Ext2dOfOneRowIsExt1d :
    (grid 4 [[5, 6, 7]]).height.toNat = 1 ∧ (∃ t, exec (.ext2d 2 0) (grid 4 [[5, 6, 7]]) = .next t) ∧
      ∃ u, exec (.ext1d 2) (grid 4 [[5, 6, 7]]) = .next u := ⟨by decide +kernel, ⟨_, rfl⟩, ⟨_, rfl⟩⟩

/-- The filters' result statements and `FnaiveMaterialisesTheExtendedImage`: the radii at both ends. -/
theorem witness_FiltersComputeBox : 0 ≤ 7 ∧ 7 ≤ 7 ∧ LegalImage small ∧ LegalImage (grid 0 [[255]]) :=
  ⟨by decide, by decide, witness_LegalImage⟩

theorem witness_RadiusZeroIsIdentity : isFilter (.fvec 0) 0 ∧ LegalImage small := ⟨.inr (.inr rfl), witness_LegalImage.1⟩

theorem witness_UniformImageIsInvariant :
    isFilter (.fsep 7) 7 ∧ LegalImage (grid 4 [[200, 200], [200, 200]]) ∧
      ∀ y, y < (grid 4 [[200, 200], [200, 200]]).height.toNat → ∀ x, x < slenAt (grid 4 [[200, 200], [200, 200]]) 0 →
        srcAt (grid 4 [[200, 200], [200, 200]]) y x = 200 :=
  ⟨.inr (.inl rfl), legalImage_of (by decide +kernel), by decide +kernel⟩

/-- The first and the last output row. -/
theorem witness_RingWindow : LegalImage small ∧ 0 < small.height.toNat ∧ 1 < small.height.toNat ∧ ¬ 2 < small.height.toNat :=
  ⟨witness_LegalImage.1, by decide +kernel⟩

theorem witness_RotationMakesTheOldestSlotNext :
    let t := after 0x00000705 small
    1 ≤ t.latch.l ∧ t.latch.l ≤ 15 ∧ t.rstart.toNat < t.latch.l ∧ t.latch.l = 15 := by decide +kernel

/-- The clauses on both sides of `n = g`. -/
theorem witness_GroupsCoverTheRow :
    groups 16 15 = [(0, 15)] ∧ groups 16 16 = [(0, 16)] ∧ groups 16 17 = [(0, 16), (1, 16)] := by decide

theorem witness_SumsNeverWrap :
    (List.replicate 15 (255 : U8)).length ≤ 2 * 7 + 1 ∧
      (List.replicate 225 (255 : U8)).length ≤ (2 * 7 + 1) * (2 * 7 + 1) ∧
      (List.replicate 15 (3825 : U16)).length ≤ 2 * 7 + 1 ∧
      ∀ m ∈ List.replicate 15 (3825 : U16), m.toNat ≤ (2 * 7 + 1) * 255 :=
  ⟨List.length_replicate.le, List.length_replicate.le, List.length_replicate.le,
    fun _ hm => List.eq_of_mem_replicate hm ▸ (by decide : (3825 : U16).toNat ≤ (2 * 7 + 1) * 255)⟩

theorem witness_SumOrderIsFree :
    [1, 2, (3 : U8)].length ≤ (2 * 1 + 1) * (2 * 1 + 1) ∧ List.Perm [1, 2, (3 : U8)] [3, 1, 2] := by decide

theorem witness_DivisionIsExact :
    (after 0x00000704 small).latch.wt = (2 * 7 + 1) * (2 * 7 + 1) ∧
      (57375 : U16).toNat ≤ (after 0x00000704 small).latch.wt * 255 := by decide +kernel

/-- Two states that differ in the ring, the lanes and the latched operands. -/
theorem witness_HiddenStateNeverInfluences :
    SameButHidden small { small with ring := [(0, 7)], acc := [(3, 9)], rstart := 5, latch := { small.latch with l := 4 } } ∧
      small ≠ { small with ring := [(0, 7)], acc := [(3, 9)], rstart := 5, latch := { small.latch with l := 4 } } :=
  ⟨by constructor <;> rfl, fun h => absurd (congrArg State.rstart h) (by decide +kernel)⟩

/-- The same image, on instances with different lane widths and with different samples outside the image. -/
theorem witness_CommandsAreFunctionsOfTheirReadSet :
    (Instr.fvec 1).WellFormed ∧ (accept 0x106 (grid 4 [[9]])).status = 1 ∧
    SameReadSet (.fvec 1) (accept 0x106 (grid 4 [[9]])) (accept 0x106 (memWrite .src 0 1 8 (grid 2 [[9]]))) ∧
    SameReadSet (.ext1d 1) (accept 0x101 (grid 4 [[9]])) (accept 0x101 (memWrite .src 0 1 8 (grid 2 [[9], [3]]))) := by
  refine ⟨by decide, by decide +kernel, ⟨by decide +kernel, by decide +kernel, ?_⟩, by decide +kernel, by decide +kernel⟩
  have h : ∀ y, y < (accept 0x106 (grid 4 [[9]])).height.toNat → ∀ x, x < slenAt (accept 0x106 (grid 4 [[9]])) y →
      srcAt (accept 0x106 (grid 4 [[9]])) y x = srcAt (accept 0x106 (memWrite .src 0 1 8 (grid 2 [[9]]))) y x := by
    decide +kernel
  exact fun y x hy hx => h y hy x hx

theorem witness_CommandsLeaveTheirOperandsAlone :
    (∃ t, exec (.ext1d 1) small = .next t) ∧ (∃ t, exec (.ext2d 1 1) small = .next t) ∧
      (∃ t, exec (.fvec 7) small = .next t) ∧ isFilter (.fvec 7) 7 := ⟨⟨_, rfl⟩, ⟨_, rfl⟩, ⟨_, rfl⟩, .inr (.inr rfl)⟩

theorem witness_RegisterMap : Reg.status ∈ [Reg.cap, .status, .outW, .outH] := by decide

theorem witness_CapIsConstant : ∃ t, step (running 3) = .next t := ⟨_, rfl⟩

/-- A read performed, and an index at the upper end of `SRC` and of `SLEN`. -/
theorem witness_HostAccessesHaveNoSideEffect :
    ((HostAction.regRead .status).isRead = true ∧ ∃ t, perform (.regRead .status) small = .next t) ∧
    ((HostAction.memRead .src 1 2).isRead = true ∧ inSpace small.params .src 1 2 = true ∧ memValue small .src 1 2 = 6) ∧
    4095 < 2 ^ small.params.yw ∧ 4095 < 2 ^ small.params.xw ∧ 4348 < small.params.erows ∧ 4348 < small.params.ecols :=
  ⟨⟨rfl, _, rfl⟩, ⟨rfl, by decide +kernel⟩, by decide +kernel⟩

/-- The last index inside and the first outside of each space. -/
theorem witness_HostWritesOutsideTheHostsRights :
    4095 < 2 ^ small.params.yw ∧ 2 ^ small.params.yw ≤ 4096 ∧ 4095 < 2 ^ small.params.xw ∧ 2 ^ small.params.xw ≤ 4096 ∧
      4348 < small.params.erows ∧ small.params.erows ≤ 4349 ∧ 4348 < small.params.ecols ∧ small.params.ecols ≤ 4349 := by
  decide +kernel

/-- R84, R288: at `BUSY = 0` the held write comes before a register read of the host, also on the host's turn. -/
theorem test_held_write_comes_first :
    let s := { small with held := [.regWrite .height 9], script := [.act (.regRead .height)], schedule := [.host] }
    nextMove s = .port ∧ (match step s with | .next t => t.height | .fault _ => 0 | .refused _ => 0) = 9 := by
  decide +kernel

/-- R265, R84: a register read is answered while a read of `DST` is held. -/
theorem test_register_read_beside_a_held_read :
    let s := { accept 0x104 small with
      held := [.memRead .dst 0 0], script := [.act (.regRead .status)], schedule := [.host] }
    (match step s with | .next t => t.replies | .fault _ => [] | .refused _ => []) =
      [{ action := .regRead .status, value := 1 }] := by decide +kernel

/-- R52: an extender command ends from `FILL`; a filter command goes on to `ROW`. -/
theorem test_row_is_a_filters_phase :
    (loop (fun _ => engineStage) 2 (accept 0x101 small)).seq = { phase := .fill, y := 1 } ∧
      (loop (fun _ => engineStage) 3 (accept 0x101 small)).seq = { phase := .idle, y := 0 } ∧
      (loop (fun _ => engineStage) 2 (accept 0x005 small)).seq = { phase := .row, y := 0 } := by decide +kernel

/-- The actions held, the script and the turns of an idle state are free, but for the kind of what is held. -/
theorem inv_idle_with {s : State} (h : Inv s) (hi : s.seq.phase = .idle) {held : List HostAction} (script : List Event)
    (schedule : List Turn) (hh : ∀ a ∈ held, a.isRegRead = false) :
    Inv { s with held := held, script := script, schedule := schedule } where
  height := h.height
  status := h.status
  busy := h.busy
  counter := h.counter
  latched := fun hp => by
    rcases hp with hp | hp <;> exact Phase.noConfusion (hi.symm.trans hp)
  rstart := h.rstart
  canonical := ⟨h.canonical.src, h.canonical.slen, h.canonical.dst, h.canonical.ext, h.canonical.elen, h.canonical.xgrid,
    h.canonical.ring, h.canonical.mid, h.canonical.acc⟩
  inRange := ⟨h.inRange.src, h.inRange.slen, h.inRange.slenMax, h.inRange.dst, h.inRange.ext, h.inRange.elen,
    h.inRange.elenMax, h.inRange.xgrid, h.inRange.ring, h.inRange.mid, h.inRange.acc⟩
  heldKind := hh

/-- The clauses in order: a busy engine and a write to hold, with a read held already; a register read beside it and on an
idle engine; an action held on the host's turn; an action to make on an idle engine, on the host's turn and in a state
with the invariant; a held action left; a host that waits, and one that may go on. -/
theorem witness_HoldRule :
    (let s := { accept 0x104 small with
       held := [.memRead .dst 0 0], script := [.act (.regWrite .height 9)], schedule := [.host] }
     s.busy = true ∧ s.script = .act (.regWrite .height 9) :: [] ∧ s.schedule.head? = some .host ∧
       (HostAction.regWrite .height 9).isRegRead = false) ∧
    (let s := { accept 0x104 small with
       held := [.memRead .dst 0 0], script := [.act (.regRead .status)], schedule := [.host] }
     s.busy = true ∧ s.script = .act (.regRead .status) :: [] ∧ s.schedule.head? = some .host) ∧
    (let s : State :=
       { State.reset with held := [.regWrite .height 9], script := [.act (.regRead .height)], schedule := [.host] }
     Inv s ∧ s.busy = false ∧ s.held = .regWrite .height 9 :: [] ∧ s.script.head? ≠ some .reset) ∧
    (let s := { State.reset with held := [], script := [.act (.regWrite .height 9)], schedule := [.host] }
     s.busy = false ∧ s.held = [] ∧ s.script = .act (.regWrite .height 9) :: [] ∧ s.schedule.head? = some .host) ∧
    (let s := { State.reset with held := [], script := [.act (.regWrite .height 9)], schedule := [] }
     Inv s ∧ s.busy = false ∧ s.held = [] ∧ s.script = .act (.regWrite .height 9) :: []) ∧
    (let s := { State.reset with held := [.memRead .dst 0 0] }
     s.held ≠ [] ∧ (HostAction.regWrite .height 9).isRegRead = false) ∧
    (let s := { accept 0x104 small with held := [.regWrite .height 9], script := [.await], schedule := [.host] }
     s.script = .await :: [] ∧ s.schedule.head? = some .host ∧ s.busy = true ∧ s.held.any HostAction.isRead = false) ∧
    (let s := { accept 0x104 small with held := [.memRead .dst 0 0], script := [.await], schedule := [.host] }
     s.script = .await :: [] ∧ s.schedule.head? = some .host ∧ s.held.any HostAction.isRead = true) :=
  ⟨by decide +kernel, by decide +kernel, ⟨inv_idle_with inv_reset rfl _ _ (by decide), by decide +kernel⟩, by decide +kernel,
    ⟨inv_idle_with inv_reset rfl _ _ (by decide), by decide +kernel⟩, by decide +kernel, by decide +kernel, by decide +kernel⟩

theorem witness_HostCannotDisturbARunningCommand :
    let s := { accept 0x104 small with script := [.act (.regWrite .height 9)], schedule := [.host] }
    s.busy = true ∧ nextMove s = .host ∧ s.script.head? ≠ some .reset ∧ ∃ t, step s = .next t :=
  ⟨by decide +kernel, by decide +kernel, by decide +kernel, _, rfl⟩

theorem witness_ResetEvent :
    let s := { running 3 with script := [.reset], schedule := [.host] }
    s.script = .reset :: [] ∧ s.schedule.head? = some .host := ⟨rfl, rfl⟩

theorem witness_CommandsRightAfterReset :
    decode (encode (.ext1d 0)) = .ok (.ext1d 0) ∧ decode (encode (.fsep 8)) = .ok (.fsep 8) ∧ isFilter (.fsep 8) 8 ∧ decode (encode (.fnaive 7)) = .ok (.fnaive 7) ∧
      isFilter (.fnaive 7) 7 ∧ decode (encode (.ext2d 0 0)) = .ok (.ext2d 0 0) :=
  ⟨by decide, by decide, .inr (.inl rfl), by decide, .inl rfl, by decide⟩

end Sys2Proof.Tests
end

section
/-! SUPPORT. The frame of every command's loops: what their iterations read and never write. -/

namespace Sys2Proof.Machine

/-- The state with everything erased that an iteration of a command's loops may write. What is left is what validation
reads and latches, the agents, the registers and the sequencer. -/
def control (s : State) : State :=
  { s with dst := [], ext := [], elen := [], xgrid := [], ring := [], rstart := 0, mid := [], acc := [] }

theorem control_start (i : Instr) (s : State) : control ((bodyOf i).start s) = control s := by
  cases i <;> rfl

theorem control_fill (i : Instr) (k : Nat) (s : State) : control ((bodyOf i).fill k s) = control s := by
  cases i <;> rfl

theorem latch_of_control {s t : State} (h : control s = control t) : s.latch = t.latch := (congrArg State.latch h :)

theorem params_of_control {s t : State} (h : control s = control t) : s.params = t.params := (congrArg State.params h :)

theorem control_verticalGroups (s : State) : control (verticalGroups s) = control s := by
  obtain ⟨_, _, h, -⟩ := verticalGroups_spec s
  rw [h]
  rfl

theorem control_horizontalGroups (y : Nat) (s : State) : control (horizontalGroups y s) = control s := by
  obtain ⟨_, _, h, -⟩ := horizontalGroups_spec y s
  rw [h]
  rfl

theorem control_row (i : Instr) (y : Nat) (s : State) : control ((bodyOf i).row y s) = control s := by
  cases i with
  | ext1d margin => rfl
  | ext2d hMargin vMargin => rfl
  | fnaive radius => rfl
  | fsep radius => simp [bodyOf, sepBody, control]
  | fvec radius => simp [bodyOf, vecBody, control]

theorem control_enter (i : Instr) (l : Latch) (s : State) :
    control (enter (bodyOf i) l s) = { control s with latch := l, seq := { phase := .fill, y := 0 } } :=
  control_start i _

theorem control_fillStage (i : Instr) (k : Nat) (s : State) :
    control (fillStage (bodyOf i) k s) = { control s with seq := { phase := .fill, y := k + 1 } } :=
  congrArg (fun t : State => { t with seq := { phase := .fill, y := k + 1 } }) (control_fill i k s)

theorem control_rowStage (i : Instr) (y : Nat) (s : State) :
    control (rowStage (bodyOf i) y s) = { control s with seq := { phase := .row, y := y + 1 } } :=
  congrArg (fun t : State => { t with seq := { phase := .row, y := y + 1 } }) (control_row i y s)

/-- A command ends with the operands its validation latched (R53). -/
theorem doneLoops_latch (i : Instr) (l : Latch) (s : State) : (doneLoops (bodyOf i) l s).latch = l := by
  rw [doneLoops_const State.latch (fun k t => latch_of_control (control_fill i k t))
    (fun k t => latch_of_control (control_row i k t)) (fun _ _ => rfl)]
  exact latch_of_control (control_start i _)

/-- Validation of a filter command latches operands the filters' lemmas are about (R53, R245). -/
theorem filterLatch_of_validateFilter {radius : Int} {s : State} {l : Latch} (h : validateFilter radius s = .ok l) :
    FilterLatch l := by
  obtain ⟨h0, h7, -, -, -, rfl⟩ := validateFilter_ok h
  exact ⟨by show radius.toNat ≤ 7; omega, rfl, rfl, slenAt_lt_max s 0⟩

end Sys2Proof.Machine
end

section
/-! SUPPORT. Hidden working state (R31, R60): what a command leaves visible is a function of what was visible before. -/

namespace Sys2Proof.Machine

/-- The state with its hidden working state erased (R30 (c), R60). -/
def visible (s : State) : State :=
  { s with latch := Latch.reset, xgrid := [], ring := [], rstart := 0, mid := [], acc := [] }

theorem sameButHidden_iff {s t : State} : SameButHidden s t ↔ visible s = visible t := by
  constructor
  · rintro ⟨⟩
    simp only [visible, *]
  · intro h
    simp only [visible, State.mk.injEq] at h
    constructor <;> simp only [h]

theorem visible_raiseErr (kind : ErrKind) (s : State) : visible (raiseErr kind s) = raiseErr kind (visible s) := rfl

/-- The latched operands that a command of this kind uses; the others, which it does not latch, are erased (R53). -/
def usedOperands : Instr → Latch → Latch
  | .ext1d _, l   => { Latch.reset with hMargin := l.hMargin }
  | .ext2d _ _, l => { Latch.reset with h := l.h, hMargin := l.hMargin, vMargin := l.vMargin }
  | _, l          => { l with hMargin := 0, vMargin := 0 }

/-- The validation that the filter commands share reads no hidden state, the margins aside (R245). -/
theorem validateFilter_visible (radius : Int) (f : Latch → Latch)
    (hf : ∀ l : Latch, f l = { l with hMargin := 0, vMargin := 0 }) (s : State) :
    (validateFilter radius s).map f = (validateFilter radius (visible s)).map f := by
  have hf : f = fun l => { l with hMargin := 0, vMargin := 0 } := funext hf
  subst hf
  unfold validateFilter
  simp only [apply_ite (Except.map _)]
  rfl

/-- Validation does not read hidden state, and latches every operand its command uses (R245, R53). -/
theorem check_visible (i : Instr) (s : State) :
    ((bodyOf i).check s).map (usedOperands i) = ((bodyOf i).check (visible s)).map (usedOperands i) := by
  cases i with
  | ext1d margin =>
    simp only [bodyOf, ext1dBody, ext1dCheck, apply_ite (Except.map _)]
    rfl
  | ext2d hMargin vMargin =>
    simp only [bodyOf, ext2dBody, ext2dCheck, apply_ite (Except.map _)]
    rfl
  | fnaive radius => exact validateFilter_visible radius _ (fun _ => rfl) s
  | fsep radius => exact validateFilter_visible radius _ (fun _ => rfl) s
  | fvec radius => exact validateFilter_visible radius _ (fun _ => rfl) s

end Sys2Proof.Machine
end

section
/-! SUPPORT. Hidden working state, continued: the successful runs of the commands, as functions of what is visible. -/

namespace Sys2Proof.Machine

/-- A projection under which the iterations of `f`, while `I` holds, act as those of `g`, takes the loop over `f` to the
loop over `g`. -/
theorem loop_commutes {σ : Type} (p : σ → σ) {f g : Nat → σ → σ} (I : Nat → σ → Prop) {n : Nat} {s : σ} (h0 : I 0 s)
    (hstep : ∀ k t, k < n → I k t → I (k + 1) (f k t) ∧ p (f k t) = g k (p t)) :
    p (loop f n s) = loop g n (p s) := by
  have h := loop_induct (f := f) (n := n) (s := s) (fun k t => I k t ∧ p t = loop g k (p s)) ⟨h0, rfl⟩
    fun k t hk ⟨hI, ht⟩ => ⟨(hstep k t hk hI).1, by rw [(hstep k t hk hI).2, ht, loop_succ]⟩
  exact h.2

/-- What a command's later stages may depend on: the visible state and the operands the command has latched. -/
def seen (i : Instr) (s : State) : State := { visible s with latch := usedOperands i s.latch }

/-- The end step depends on what is seen only (R249). -/
theorem visible_finish (i : Instr) (s : State) :
    visible (finish (bodyOf i) s) = visible (finish (bodyOf i) (seen i s)) := by
  cases i <;> rfl

/-- The output sample `(x, y)` of a filter command (R170, R177). -/
def outputAt (s : State) (l : Latch) (y x : Nat) : U8 :=
  narrow8 (sum16 ((List.range l.l).map fun (j : Nat) => columnSum s l y (x + j)) / BitVec.ofNat 16 l.wt)

theorem outputRow_eq (s : State) (l : Latch) (y : Nat) : outputRow s l y = (List.range l.w).map (outputAt s l y) := rfl

/-- What a filter command's iteration writes into `DST`: output row `y`, at once or by groups of lanes (R177, R208). -/
def writeOutput (i : Instr) (s : State) (l : Latch) (y : Nat) (m : Mem 8) : Mem 8 :=
  match i with
  | .fvec _ => (groups s.params.lanes l.w).foldl
      (fun m grp => Mem.writeRow m (key y grp.1) ((List.range grp.2).map fun x => outputAt s l y (grp.1 + x))) m
  | _ => Mem.writeRow m (key y 0) (outputRow s l y)

/-- What row iteration `y` of a filter command does to what is seen, when `s` holds its source. -/
def outputStage (i : Instr) (s : State) (l : Latch) (y : Nat) (t : State) : State :=
  { t with dst := writeOutput i s l y t.dst, seq := { phase := .row, y := y + 1 } }

theorem outputStage_seen {i : Instr} {r : Int} (hi : isFilter i r) (s : State) (l : Latch) :
    outputStage i s l = outputStage i (visible s) (usedOperands i l) := by
  rcases hi with rfl | rfl | rfl <;> rfl

/-- The horizontal pass of row `y` yields the output samples once the window is in place (R174, R177). -/
theorem meanOf_rowTaps_verticalPass {s t : State} {l : Latch} {y x : Nat} (hl : FilterLatch l) (h : Window s l y t)
    (hx : x < l.w) :
    meanOf t (sum16 (rowTaps (verticalPass (ringAppend y t)) x)) = outputAt s l y x := by
  have hdst := congrArg (Mem.read · (key y 0 + x)) (sepRow_spec hl h).1
  have hw : t.latch.w = l.w := by rw [h.latch]
  simp only [Mem.read_writeRow_in _ _ (outputRow s l y) (k := x) (by simpa [outputRow_eq] using hx)] at hdst
  have hrow : (sepRow y t).dst = Mem.writeRow t.dst (key y 0) ((List.range t.latch.w).map fun x =>
      meanOf t (sum16 (rowTaps (verticalPass (ringAppend y t)) x))) := rfl
  rw [hrow, Mem.read_writeRow_in _ _ _ (by simpa [hw] using hx)] at hdst
  simpa [outputRow_eq] using hdst

/-- The horizontal pass of the grouped command, as far as `DST` goes (R207, R208). -/
theorem horizontalGroups_dst (y : Nat) (t : State) :
    (horizontalGroups y t).dst = (groups t.params.lanes t.latch.w).foldl (fun m grp =>
      Mem.writeRow m (key y 0 + grp.1)
        ((List.range grp.2).map fun x => meanOf t (sum16 (rowTaps t (grp.1 + x))))) t.dst := by
  obtain ⟨acc, h⟩ := foldl_horizontalGroup y (groups t.params.lanes t.latch.w) t
  exact congrArg State.dst h

theorem dst_verticalGroups (s : State) : (verticalGroups s).dst = s.dst := by
  obtain ⟨_, _, h, -⟩ := verticalGroups_spec s
  rw [h]

/-- The horizontal taps after the grouped vertical pass are those after the scalar one (R206). -/
theorem rowTaps_verticalGroups (s : State) (x : Nat) : rowTaps (verticalGroups s) x = rowTaps (verticalPass s) x := by
  obtain ⟨_, _, h, hmid⟩ := verticalGroups_spec s
  rw [h]
  exact List.map_congr_left fun j _ => readElem_congr rfl (hmid (x + j))

theorem meanOf_congr {s t : State} (h : s.latch = t.latch) (sum : U16) : meanOf s sum = meanOf t sum := by
  rw [meanOf, meanOf, h]

/-- A row iteration of `FVEC` writes the output samples of its row, group by group (R201, R208). -/
theorem vecRow_dst {s t : State} {l : Latch} {y : Nat} (radius : Int) (hl : FilterLatch l) (h : Window s l y t)
    (hp : t.params = s.params) : (vecRow y t).dst = writeOutput (.fvec radius) s l y t.dst := by
  have hc := control_verticalGroups (ringAppend y t)
  have hlatch : (verticalGroups (ringAppend y t)).latch = t.latch := latch_of_control hc
  have hparams : (verticalGroups (ringAppend y t)).params = t.params := params_of_control hc
  rw [vecRow, ringRotate_dst, horizontalGroups_dst, hparams, hlatch, dst_verticalGroups, hp, h.latch]
  refine List.foldl_ext _ _ _ fun m grp hgrp => ?_
  rw [← key_add, Nat.zero_add]
  congr 1
  refine List.map_congr_left fun i hi => ?_
  have hin := ((groups_cover (lanes_pos s.params)).1 grp hgrp).1
  have hi := List.mem_range.1 hi
  rw [rowTaps_verticalGroups, meanOf_congr hlatch]
  exact meanOf_rowTaps_verticalPass hl h (by omega)

/-- What holds between the row iterations of a filter command, for the source of `s`: the operands are latched and the
hidden store is in place, `XGRID` or the ring's window (R151, R174). -/
def RowReady (i : Instr) (s : State) (l : Latch) (y : Nat) (t : State) : Prop :=
  match i with
  | .fnaive _ => t.latch = l ∧ ∀ j e, j < l.h + 2 * l.r → e < l.w + 2 * l.r →
      t.xgrid.read (key j e) = some (extendedAt s l.w l.h l.r j e)
  | _ => Window s l y t ∧ t.params = s.params

theorem Window.toRows {s t : State} {l : Latch} {y : Nat} (h : Window s l y t) : Window s l y (toRows t) :=
  ⟨h.latch, h.source, h.rstart, h.slots⟩

theorem Window.rowStage {b : CommandBody} {s t : State} {l : Latch} {y k : Nat} (h : Window s l y (b.row k t)) :
    Window s l y (rowStage b k t) := ⟨h.latch, h.source, h.rstart, h.slots⟩

/-- A command's set-up loop and the change of loops leave the control part alone, the sequencer aside. -/
theorem control_toRows_fills (i : Instr) (l : Latch) (n : Nat) (s : State) :
    control (toRows (loop (fillStage (bodyOf i)) n (enter (bodyOf i) l s))) =
      control (toRows { s with latch := l }) := by
  have hfills := loop_const (f := fillStage (bodyOf i)) (fun t => toRows (control t))
    (fun k t => (congrArg toRows (control_fill i k t) :)) n (enter (bodyOf i) l s)
  exact hfills.trans (congrArg toRows (control_start i _))

/-- The set-up loop of a filter command prepares its rows. -/
theorem rowReady_fills {i : Instr} {r : Int} (hi : isFilter i r) {s : State} {l : Latch} (hl : FilterLatch l) :
    RowReady i s l 0 (toRows (loop (fillStage (bodyOf i)) ((bodyOf i).fills l) (enter (bodyOf i) l s))) := by
  have hc := control_toRows_fills i l ((bodyOf i).fills l) s
  rcases hi with rfl | rfl | rfl
  · have hlatch := latch_of_control hc
    exact ⟨hlatch, fun j e hj he =>
      naiveFills_xgrid (t := enter (naiveBody r) l s) ⟨rfl, rfl⟩ (Nat.le_of_lt hl.columns) _ hj he⟩
  · have hparams := (congrArg State.params hc :)
    have hwin := ringFills_window (b := sepBody r) (s := s) (t := enter (sepBody r) l s) rfl hl rfl ⟨rfl, rfl⟩ rfl
    exact ⟨hwin.toRows, hparams⟩
  · have hparams := (congrArg State.params hc :)
    have hwin := ringFills_window (b := vecBody r) (s := s) (t := enter (vecBody r) l s) rfl hl rfl ⟨rfl, rfl⟩ rfl
    exact ⟨hwin.toRows, hparams⟩

/-- A row iteration of a filter command writes its output row, hidden state aside, and prepares the next. -/
theorem rowStage_outputStage {i : Instr} {r : Int} (hi : isFilter i r) {s t : State} {l : Latch} {y : Nat}
    (hl : FilterLatch l) (hy : y < l.h) (h : RowReady i s l y t) :
    RowReady i s l (y + 1) (rowStage (bodyOf i) y t) ∧
      seen i (rowStage (bodyOf i) y t) = outputStage i s l y (seen i t) := by
  have hparams : (rowStage (bodyOf i) y t).params = t.params := (congrArg State.params (control_rowStage i y t) :)
  rcases hi with rfl | rfl | rfl
  · obtain ⟨hlatch, hgrid⟩ := h
    refine ⟨⟨hlatch, hgrid⟩, ?_⟩
    simp [seen, visible, outputStage, rowStage, bodyOf, naiveBody, writeOutput, naiveRow_dst hl hlatch hy hgrid]
  · obtain ⟨hwin, hp⟩ := h
    have hnext : Window s l (y + 1) (rowStage (sepBody r) y t) := (sepRow_spec hl hwin).2.rowStage
    refine ⟨⟨hnext, hparams.trans hp⟩, ?_⟩
    simp [seen, visible, outputStage, rowStage, bodyOf, sepBody, writeOutput, (sepRow_spec hl hwin).1]
  · obtain ⟨hwin, hp⟩ := h
    have hnext : Window s l (y + 1) (rowStage (vecBody r) y t) := (vecRow_spec hl hwin).2.rowStage
    refine ⟨⟨hnext, hparams.trans hp⟩, ?_⟩
    simp [seen, visible, outputStage, rowStage, bodyOf, vecBody, vecRow_dst r hl hwin hp]

theorem seen_toRows (i : Instr) (s : State) : seen i (toRows s) = toRows (seen i s) := rfl

/-- An iteration of a filter command's set-up loop changes hidden state only, the sequencer aside (R151, R172). -/
theorem seen_fillStage {i : Instr} {r : Int} (hi : isFilter i r) (k : Nat) (t : State) :
    toRows (seen i (fillStage (bodyOf i) k t)) = toRows (seen i t) := by
  rcases hi with rfl | rfl | rfl
  · simp [toRows, seen, visible, fillStage, bodyOf, naiveBody]
  · simp [toRows, seen, visible, fillStage, bodyOf, sepBody]
  · simp [toRows, seen, visible, fillStage, bodyOf, vecBody]

theorem seen_toRows_fills {i : Instr} {r : Int} (hi : isFilter i r) (n : Nat) (l : Latch) (s : State) :
    seen i (toRows (loop (fillStage (bodyOf i)) n (enter (bodyOf i) l s))) =
      toRows { visible s with latch := usedOperands i l } := by
  have henter : toRows (seen i (enter (bodyOf i) l s)) = toRows { visible s with latch := usedOperands i l } := by
    rcases hi with rfl | rfl | rfl <;> rfl
  rw [seen_toRows, ← henter]
  exact loop_const (f := fillStage (bodyOf i)) (fun t => toRows (seen i t)) (seen_fillStage hi) n _

/-- The loops of a filter command whose validation passes, as far as they are seen: the output rows of its source
(R151, R171, R201). -/
theorem seen_doneLoops_filter {i : Instr} {r : Int} (hi : isFilter i r) {s : State} {l : Latch} (hl : FilterLatch l) :
    seen i (doneLoops (bodyOf i) l s) =
      loop (outputStage i (visible s) (usedOperands i l)) (usedOperands i l).h
        (toRows { visible s with latch := usedOperands i l }) := by
  have hrows : doneLoops (bodyOf i) l s = loop (rowStage (bodyOf i)) l.h
      (toRows (loop (fillStage (bodyOf i)) ((bodyOf i).fills l) (enter (bodyOf i) l s))) := by
    rcases hi with rfl | rfl | rfl <;> rfl
  have hh : (usedOperands i l).h = l.h := by rcases hi with rfl | rfl | rfl <;> rfl
  have hstart := seen_toRows_fills hi ((bodyOf i).fills l) l s
  rw [hrows, loop_commutes (seen i) (RowReady i s l) (rowReady_fills hi hl)
    fun y t hy h => rowStage_outputStage hi hl hy h, hstart, outputStage_seen hi, hh]

/-- The loop of an extender command reads and writes nothing hidden but the operands it latched (R137, R138). -/
theorem seen_doneLoops_ext1d (margin : Int) (s : State) (l : Latch) :
    seen (.ext1d margin) (doneLoops (ext1dBody margin) l s) =
      doneLoops (ext1dBody margin) (usedOperands (.ext1d margin) l) (visible s) :=
  loop_commutes (f := fillStage (ext1dBody margin)) (g := fillStage (ext1dBody margin)) (n := 1)
    (s := enter (ext1dBody margin) l s) (seen (.ext1d margin)) (fun _ _ => True) trivial fun _ _ _ _ => ⟨trivial, rfl⟩

theorem seen_doneLoops_ext2d (hMargin vMargin : Int) (s : State) (l : Latch) :
    seen (.ext2d hMargin vMargin) (doneLoops (ext2dBody hMargin vMargin) l s) =
      doneLoops (ext2dBody hMargin vMargin) (usedOperands (.ext2d hMargin vMargin) l) (visible s) :=
  loop_commutes (f := fillStage (ext2dBody hMargin vMargin)) (g := fillStage (ext2dBody hMargin vMargin))
    (n := l.h + 2 * l.vMargin) (s := enter (ext2dBody hMargin vMargin) l s) (seen (.ext2d hMargin vMargin))
    (fun _ _ => True) trivial fun _ _ _ _ => ⟨trivial, rfl⟩

/-- The loops of a command, as far as they are seen, depend on what was visible and on the operands latched. -/
theorem seen_doneLoops_congr {i : Instr} {s u : State} {l m : Latch} (h : visible s = visible u)
    (hlm : usedOperands i l = usedOperands i m) (hs : (bodyOf i).check s = .ok l) (hu : (bodyOf i).check u = .ok m) :
    seen i (doneLoops (bodyOf i) l s) = seen i (doneLoops (bodyOf i) m u) := by
  have hfilter : ∀ r, isFilter i r → FilterLatch l → FilterLatch m →
      seen i (doneLoops (bodyOf i) l s) = seen i (doneLoops (bodyOf i) m u) := fun r hi hl hm => by
    rw [seen_doneLoops_filter hi hl, seen_doneLoops_filter hi hm, h, hlm]
  cases i with
  | ext1d margin => exact (seen_doneLoops_ext1d ..).trans (by rw [h, hlm]; exact (seen_doneLoops_ext1d ..).symm)
  | ext2d hMargin vMargin =>
    exact (seen_doneLoops_ext2d ..).trans (by rw [h, hlm]; exact (seen_doneLoops_ext2d ..).symm)
  | fnaive r =>
    exact hfilter r (.inl rfl) (filterLatch_of_validateFilter hs) (filterLatch_of_validateFilter hu)
  | fsep r =>
    exact hfilter r (.inr (.inl rfl)) (filterLatch_of_validateFilter hs) (filterLatch_of_validateFilter hu)
  | fvec r =>
    exact hfilter r (.inr (.inr rfl)) (filterLatch_of_validateFilter hs) (filterLatch_of_validateFilter hu)

/-- What is visible after a command is determined by what was visible before (R31, R292). -/
theorem visible_runBody_congr (i : Instr) {s u : State} (h : visible s = visible u) :
    visible (runBody (bodyOf i) s) = visible (runBody (bodyOf i) u) := by
  have hcheck : ((bodyOf i).check s).map (usedOperands i) = ((bodyOf i).check u).map (usedOperands i) := by
    rw [check_visible, h, ← check_visible]
  cases hs : (bodyOf i).check s with
  | error kind =>
    cases hu : (bodyOf i).check u with
    | error kind' =>
      rw [hs, hu] at hcheck
      cases hcheck
      rw [runBody_error hs, runBody_error hu, visible_raiseErr, visible_raiseErr, h]
    | ok m => rw [hs, hu] at hcheck; cases hcheck
  | ok l =>
    cases hu : (bodyOf i).check u with
    | error kind => rw [hs, hu] at hcheck; cases hcheck
    | ok m =>
      rw [hs, hu] at hcheck
      have hlm : usedOperands i l = usedOperands i m := Except.ok.inj hcheck
      rw [runBody_ok hs, runBody_ok hu, visible_finish, seen_doneLoops_congr h hlm hs hu, ← visible_finish]

end Sys2Proof.Machine

namespace Sys2Proof.Proofs

open Sys2Proof Sys2Proof.Machine

/-- Settles O39: what is visible after a command is a function of what was visible before it. -/
theorem hiddenStateNeverInfluences : Obligations.HiddenStateNeverInfluences := by
  intro i s u h
  exact ⟨_, _, exec_eq i s, exec_eq i u, sameButHidden_iff.2 (visible_runBody_congr i (sameButHidden_iff.1 h))⟩

end Sys2Proof.Proofs
end

section
/-! SUPPORT. The engine's move as stages: whatever every stage keeps, the command run as one step keeps (R296). -/

namespace Sys2Proof.Machine

/-- The state with everything erased that some stage of a command may change. -/
def fixedPart (s : State) : State :=
  { control s with latch := Latch.reset, status := 0, outW := 0, outH := 0, seq := { phase := .idle, y := 0 } }

/-- The frame of one stage of a command (R70, R87). -/
theorem fixedPart_stageBody (i : Instr) (s : State) : fixedPart (stageBody (bodyOf i) s) = fixedPart s := by
  rcases stageBody_cases (bodyOf i) s with ⟨-, h⟩ | ⟨_, -, -, h⟩ | ⟨_, -, -, h⟩ | ⟨-, -, h⟩ | ⟨-, -, -, h⟩ |
    ⟨-, -, -, h⟩ | ⟨-, -, h⟩ | ⟨-, -, h⟩ <;> rw [h]
  · rfl
  · rw [fixedPart, control_enter]; rfl
  · rw [fixedPart, control_fillStage]; rfl
  · rfl
  · rfl
  · rw [fixedPart, control_rowStage]; rfl
  · rfl

theorem cmd_stageBody (i : Instr) (s : State) : (stageBody (bodyOf i) s).cmd = s.cmd :=
  (congrArg State.cmd (fixedPart_stageBody i s) :)

/-- One run of stages after another. -/
theorem exists_loop_trans {σ : Type} {f : σ → σ} {s t u : σ} (h : ∃ n, t = loop (fun _ => f) n s)
    (h' : ∃ n, u = loop (fun _ => f) n t) : ∃ n, u = loop (fun _ => f) n s := by
  obtain ⟨m, rfl⟩ := h
  obtain ⟨n, rfl⟩ := h'
  exact ⟨m + n, (loop_add f m n s).symm⟩

theorem fillLoop_seq {b : CommandBody} {s : State} (h : s.seq = { phase := .fill, y := 0 }) (n : Nat) :
    (loop (fillStage b) n s).seq = { phase := .fill, y := n } := by
  cases n with
  | zero => exact h
  | succ n => rfl

theorem rowLoop_seq {b : CommandBody} {s : State} (h : s.seq = { phase := .row, y := 0 }) (n : Nat) :
    (loop (rowStage b) n s).seq = { phase := .row, y := n } := by
  cases n with
  | zero => exact h
  | succ n => rfl

/-- An extender command has no row loop; a filter command has one (R52). -/
theorem hasRows_cases (i : Instr) :
    ((bodyOf i).hasRows = false ∧ ∀ l, (bodyOf i).rows l = 0) ∨ ((bodyOf i).hasRows = true ∧ ∃ r, isFilter i r) := by
  cases i with
  | ext1d margin => exact .inl ⟨rfl, fun _ => rfl⟩
  | ext2d hMargin vMargin => exact .inl ⟨rfl, fun _ => rfl⟩
  | fnaive r => exact .inr ⟨rfl, r, .inl rfl⟩
  | fsep r => exact .inr ⟨rfl, r, .inr (.inl rfl)⟩
  | fvec r => exact .inr ⟨rfl, r, .inr (.inr rfl)⟩

/-- A successful command, from its entry on, is a number of stages. -/
theorem finish_doneLoops_stages (i : Instr) (l : Latch) (s : State) :
    ∃ n, finish (bodyOf i) (doneLoops (bodyOf i) l s) =
      loop (fun _ => stageBody (bodyOf i)) n (enter (bodyOf i) l s) := by
  have hseq : (enter (bodyOf i) l s).seq = { phase := .fill, y := 0 } := (congrArg State.seq (control_start i _) :)
  have hlatch : (enter (bodyOf i) l s).latch = l := latch_of_control (control_start i _)
  have hfillLatch : ∀ k t, ((bodyOf i).fill k t).latch = t.latch := fun k t => latch_of_control (control_fill i k t)
  have hrowLatch : ∀ k t, ((bodyOf i).row k t).latch = t.latch := fun k t => latch_of_control (control_row i k t)
  generalize hF : loop (fillStage (bodyOf i)) ((bodyOf i).fills l) (enter (bodyOf i) l s) = F
  have hFseq : F.seq = { phase := .fill, y := (bodyOf i).fills l } := hF ▸ fillLoop_seq hseq _
  have hFlatch : F.latch = l := by
    rw [← hF, loop_const (f := fillStage (bodyOf i)) State.latch hfillLatch, hlatch]
  have hfills : ∃ n, F = loop (fun _ => stageBody (bodyOf i)) n (enter (bodyOf i) l s) :=
    ⟨_, hF ▸ (stages_fill hfillLatch hseq (Nat.le_of_eq (by rw [hlatch]))).symm⟩
  refine exists_loop_trans hfills ?_
  rw [doneLoops, hF]
  rcases hasRows_cases i with ⟨hr, hrows⟩ | ⟨hr, -⟩
  · refine ⟨1, ?_⟩
    simp [leaveFills, stageBody, afterFills, hr, hrows, hFseq, hFlatch]
  · have hrowLoop := stages_row (b := bodyOf i) hrowLatch (s := toRows F) rfl
      (n := (bodyOf i).rows l) (Nat.le_of_eq (by rw [toRows_latch, hFlatch]))
    have hRlatch : (loop (rowStage (bodyOf i)) ((bodyOf i).rows l) (toRows F)).latch = l := by
      rw [loop_const (f := rowStage (bodyOf i)) State.latch hrowLatch, toRows_latch, hFlatch]
    have hRseq := rowLoop_seq (b := bodyOf i) (s := toRows F) rfl ((bodyOf i).rows l)
    have hentry : ∃ n, toRows F = loop (fun _ => stageBody (bodyOf i)) n F := ⟨1, by
      simp [stageBody, afterFills, hr, hFseq, hFlatch]⟩
    refine exists_loop_trans hentry (exists_loop_trans ⟨_, hrowLoop.symm⟩ ⟨1, ?_⟩)
    rw [leaveFills_rows hr]
    simp [stageBody, hRseq, hRlatch]

/-- A whole command, from phase `CHECK`, is a number of stages (R296). -/
theorem runBody_stages (i : Instr) {s : State} (hp : s.seq.phase = .check) :
    ∃ n, runBody (bodyOf i) s = loop (fun _ => stageBody (bodyOf i)) n s := by
  rcases runBody_cases (bodyOf i) s with ⟨kind, hc, h⟩ | ⟨l, hc, h⟩ <;> rw [h]
  · exact ⟨1, by simp [stageBody, hp, hc]⟩
  · exact exists_loop_trans ⟨1, by simp [stageBody, hp, hc]⟩ (finish_doneLoops_stages i l s)

theorem engineStage_eq_stageBody {i : Instr} {s : State} (h : decode s.cmd = .ok i) :
    engineStage s = stageBody (bodyOf i) s := by
  cases hp : s.seq.phase <;> simp [engineStage, stageBody, hp, h]

/-- The stages of the engine are those of the command in `CMD`, which no stage changes. -/
theorem engineStages_eq {i : Instr} {s : State} (h : decode s.cmd = .ok i) (n : Nat) :
    loop (fun _ => engineStage) n s = loop (fun _ => stageBody (bodyOf i)) n s := by
  induction n with
  | zero => rfl
  | succ n ih =>
    have hcmd : (loop (fun _ => stageBody (bodyOf i)) n s).cmd = s.cmd :=
      loop_const (f := fun _ => stageBody (bodyOf i)) State.cmd (fun _ t => cmd_stageBody i t) n s
    rw [loop_succ, loop_succ, ih, engineStage_eq_stageBody (by rw [hcmd, h])]

/-- The command as one step is a number of stages of the engine (R296). -/
theorem engineCommand_stages {s t : State} (hready : engineReady s = true) (h : engineCommand s = .next t) :
    ∃ n, t = loop (fun _ => engineStage) n s := by
  have hidle : s.seq.phase ≠ .idle := by simpa [engineReady] using hready
  rcases engineCommand_cases s with ⟨⟨e, hd⟩, he⟩ | ⟨i, hd, ⟨hp, -⟩ | ⟨hp, he⟩ | ⟨-, he⟩⟩
  · rcases engineStage_cases s with ⟨hp, -⟩ | ⟨-, -, hs⟩ | ⟨-, i, hi, -⟩
    · exact absurd hp hidle
    · exact ⟨1, by rw [loop_succ, loop_zero, hs]; exact Host.Outcome.next.inj (h.symm.trans he)⟩
    · rw [hd] at hi; cases hi
  · exact absurd hp hidle
  · obtain ⟨n, hn⟩ := runBody_stages i hp
    exact ⟨n, by rw [engineStages_eq hd, ← hn]; exact Host.Outcome.next.inj (h.symm.trans he)⟩
  · exact ⟨stagesLeft (bodyOf i) s, by
      rw [engineStages_eq hd]; exact Host.Outcome.next.inj (h.symm.trans he)⟩

/-- What one stage of the engine keeps, a step of the engine keeps, whichever turn it has. -/
theorem engine_keeps {P : State → Prop} (hstage : ∀ s, P s → P (engineStage s)) {s t : State}
    (hready : engineReady s = true) (hs : P s) (h : t = engineStage s ∨ engineCommand s = .next t) : P t := by
  rcases h with rfl | h
  · exact hstage s hs
  · obtain ⟨n, rfl⟩ := engineCommand_stages hready h
    exact loop_induct (fun _ => P) hs fun _ t _ => hstage t

end Sys2Proof.Machine
end

section
/-! SUPPORT. Every write the engine and the port make keeps the stores canonical and inside their spaces (R79). -/

namespace Sys2Proof.Machine

/-- One row of `EXT` and `ELEN[j]`: source row `y`, extended by `m` (R137, R138). -/
def extendInto (j y m : Nat) (s : State) : State :=
  { s with ext := s.ext.writeRow (key j 0) (extendedRow s y m (slenAt s y))
           elen := s.elen.write j (BitVec.ofNat 17 (slenAt s y + 2 * m)) }

theorem ext1dFill_eq (k : Nat) (s : State) : ext1dFill k s = extendInto 0 0 s.latch.hMargin s := rfl

theorem ext2dFill_eq (j : Nat) (s : State) :
    ext2dFill j s = extendInto j (clampIndex ((j : Int) - s.latch.vMargin) s.latch.h) s.latch.hMargin s := rfl

section Mem

variable {w : Nat} {m : Mem w}

theorem Mem.within_writeRow {rows cols y x : Nat} {vs : List (BitVec w)} (h : m.within rows cols) (hy : y < rows)
    (hx : x + vs.length ≤ cols) (hcols : cols ≤ rowPitch) : (m.writeRow (key y x) vs).within rows cols := by
  intro p hp
  rcases Mem.mem_writeRow hp with ⟨k, hk, rfl⟩ | hp
  · rw [← key_add, key_div (by omega), key_mod (by omega)]
    exact ⟨hy, by omega⟩
  · exact h p hp

theorem Mem.below_writeRow {n a : Nat} {vs : List (BitVec w)} (h : m.below n) (ha : a + vs.length ≤ n) :
    (m.writeRow a vs).below n := by
  intro p hp
  rcases Mem.mem_writeRow hp with ⟨k, hk, rfl⟩ | hp
  · show a + k < n
    omega
  · exact h p hp

theorem Mem.within_write {rows cols y x : Nat} {v : BitVec w} (h : m.within rows cols) (hy : y < rows) (hx : x < cols)
    (hcols : cols ≤ rowPitch) : (m.write (key y x) v).within rows cols :=
  Mem.within_writeRow (vs := [v]) h hy hx hcols

theorem Mem.below_write {n a : Nat} {v : BitVec w} (h : m.below n) (ha : a < n) : (m.write a v).below n :=
  Mem.below_writeRow (vs := [v]) h ha

theorem Mem.atMost_write {n a : Nat} {v : BitVec w} (h : m.atMost n) (hv : v.toNat ≤ n) : (m.write a v).atMost n := by
  intro p hp
  rcases Mem.mem_write hp with rfl | hp
  · exact hv
  · exact h p hp

end Mem

/-- The part of the invariant that is about the stores: each canonical and inside its space, `RSTART` a slot. -/
structure StoresKept (s : State) : Prop where
  canonical : StoresCanonical s
  inRange   : StoresInRange s
  rstart    : s.rstart.toNat < 15

/-- The stores of a state, everything else erased but the parameters. -/
def storesOf (s : State) : State :=
  { State.resetOf s.params with
    src := s.src, slen := s.slen, dst := s.dst, ext := s.ext, elen := s.elen, xgrid := s.xgrid, ring := s.ring,
    rstart := s.rstart, mid := s.mid, acc := s.acc }

theorem storesKept_storesOf (s : State) : StoresKept (storesOf s) ↔ StoresKept s := by
  constructor <;> rintro ⟨⟨⟩, ⟨⟩, hrstart⟩ <;>
    exact ⟨by constructor <;> assumption, by constructor <;> assumption, hrstart⟩

/-- What touches no store keeps them. -/
theorem StoresKept.of_storesOf_eq {s t : State} (h : StoresKept s) (heq : storesOf t = storesOf s) : StoresKept t :=
  (storesKept_storesOf t).1 (heq ▸ (storesKept_storesOf s).2 h)

theorem storesKept_resetOf (p : Config.Params) : StoresKept (State.resetOf p) := by
  refine ⟨?_, ?_, by simp [State.resetOf]⟩ <;> constructor <;> simp [State.resetOf, Mem.wf]

/-! The sizes of the spaces, in numbers (R13, R15). -/

theorem two_pow_xw_le (p : Config.Params) : 2 ^ p.xw ≤ 65536 :=
  Nat.pow_le_pow_right (n := 2) (by omega) (xw_range p).2

theorem maxW_lt (p : Config.Params) : p.maxW < 65536 := by
  have := two_pow_xw_le p
  have := Nat.two_pow_pos p.xw
  rw [Config.Params.maxW]
  omega

theorem maxW_of_lt {p : Config.Params} {n : Nat} (h : n < 2 ^ p.xw) : n ≤ p.maxW := Nat.le_sub_one_of_lt h

theorem maxH_of_lt {p : Config.Params} {n : Nat} (h : n < 2 ^ p.yw) : n ≤ p.maxH := Nat.le_sub_one_of_lt h

theorem ecols_eq (p : Config.Params) : p.ecols = p.maxW + 254 := rfl
theorem erows_eq (p : Config.Params) : p.erows = p.maxH + 254 := rfl
theorem xcols_eq (p : Config.Params) : p.xcols = p.maxW + 14 := rfl
theorem xrows_eq (p : Config.Params) : p.xrows = p.maxH + 14 := rfl

theorem ecols_le (p : Config.Params) : p.ecols ≤ rowPitch := by
  have := maxW_lt p
  rw [ecols_eq, rowPitch_eq]
  omega

theorem xcols_le (p : Config.Params) : p.xcols ≤ rowPitch := by
  have := maxW_lt p
  rw [xcols_eq, rowPitch_eq]
  omega

theorem two_pow_xw_le_rowPitch (p : Config.Params) : 2 ^ p.xw ≤ rowPitch :=
  Nat.le_trans (two_pow_xw_le p) (by rw [rowPitch_eq]; omega)

/-! One rule per store: an update inside the space keeps all of them. -/

section Updates

variable {s : State} (h : StoresKept s)
include h

theorem StoresKept.writeSrc {y x : Nat} (v : U8) (hy : y < 2 ^ s.params.yw) (hx : x < 2 ^ s.params.xw) :
    StoresKept { s with src := s.src.write (key y x) v } where
  canonical := { h.canonical with src := Mem.wf_write h.canonical.src _ _ }
  inRange := { h.inRange with src := Mem.within_write h.inRange.src hy hx (two_pow_xw_le_rowPitch _) }
  rstart := h.rstart

theorem StoresKept.writeSlen {y n : Nat} (hy : y < 2 ^ s.params.yw) (hn : n < 2 ^ s.params.xw) :
    StoresKept { s with slen := s.slen.write y (BitVec.ofNat 16 n) } where
  canonical := { h.canonical with slen := Mem.wf_write h.canonical.slen _ _ }
  inRange := { h.inRange with
    slen := Mem.below_write h.inRange.slen hy
    slenMax := Mem.atMost_write h.inRange.slenMax (by
      rw [BitVec.toNat_ofNat]; exact Nat.le_trans (Nat.mod_le _ _) (maxW_of_lt hn)) }
  rstart := h.rstart

theorem StoresKept.writeDst {y x : Nat} {vs : List U8} (hy : y < 2 ^ s.params.yw)
    (hx : x + vs.length ≤ 2 ^ s.params.xw) : StoresKept { s with dst := s.dst.writeRow (key y x) vs } where
  canonical := { h.canonical with dst := Mem.wf_writeRow h.canonical.dst _ _ }
  inRange := { h.inRange with dst := Mem.within_writeRow h.inRange.dst hy hx (two_pow_xw_le_rowPitch _) }
  rstart := h.rstart

theorem StoresKept.writeXgrid {y x : Nat} {vs : List U16} (hy : y < s.params.xrows)
    (hx : x + vs.length ≤ s.params.xcols) : StoresKept { s with xgrid := s.xgrid.writeRow (key y x) vs } where
  canonical := { h.canonical with xgrid := Mem.wf_writeRow h.canonical.xgrid _ _ }
  inRange := { h.inRange with xgrid := Mem.within_writeRow h.inRange.xgrid hy hx (xcols_le _) }
  rstart := h.rstart

theorem StoresKept.writeRing {y x : Nat} {vs : List U16} (hy : y < 15) (hx : x + vs.length ≤ s.params.xcols) :
    StoresKept { s with ring := s.ring.writeRow (key y x) vs } where
  canonical := { h.canonical with ring := Mem.wf_writeRow h.canonical.ring _ _ }
  inRange := { h.inRange with ring := Mem.within_writeRow h.inRange.ring hy hx (xcols_le _) }
  rstart := h.rstart

theorem StoresKept.writeMid {a : Nat} {vs : List U16} (ha : a + vs.length ≤ s.params.xcols) :
    StoresKept { s with mid := s.mid.writeRow a vs } where
  canonical := { h.canonical with mid := Mem.wf_writeRow h.canonical.mid _ _ }
  inRange := { h.inRange with mid := Mem.below_writeRow h.inRange.mid ha }
  rstart := h.rstart

theorem StoresKept.writeAcc {a : Nat} {vs : List U16} (ha : a + vs.length ≤ s.params.lanes) :
    StoresKept { s with acc := s.acc.writeRow a vs } where
  canonical := { h.canonical with acc := Mem.wf_writeRow h.canonical.acc _ _ }
  inRange := { h.inRange with acc := Mem.below_writeRow h.inRange.acc ha }
  rstart := h.rstart

theorem StoresKept.setRstart {v : BitVec 4} (hv : v.toNat < 15) : StoresKept { s with rstart := v } where
  canonical := { h.canonical with }
  inRange := { h.inRange with }
  rstart := hv

theorem StoresKept.extendInto {j y m : Nat} (hj : j < s.params.erows) (hm : m ≤ 127) :
    StoresKept (extendInto j y m s) := by
  have hn := maxW_of_lt (slenAt_lt s y)
  have hcols : slenAt s y + 2 * m ≤ s.params.ecols := by rw [ecols_eq]; omega
  have hrow : 0 + (extendedRow s y m (slenAt s y)).length ≤ s.params.ecols := by simpa using hcols
  exact {
    canonical := { h.canonical with
      ext := Mem.wf_writeRow h.canonical.ext _ _
      elen := Mem.wf_write h.canonical.elen _ _ }
    inRange := { h.inRange with
      ext := Mem.within_writeRow h.inRange.ext hj hrow (ecols_le _)
      elen := Mem.below_write h.inRange.elen hj
      elenMax := Mem.atMost_write h.inRange.elenMax (by
        rw [BitVec.toNat_ofNat]; exact Nat.le_trans (Nat.mod_le _ _) hcols) }
    rstart := h.rstart }

end Updates

end Sys2Proof.Machine
end

section
/-! SUPPORT. The iterations of every command keep the stores, when its operands are latched (R53, R79). -/

namespace Sys2Proof.Machine

theorem sext8_fits (v : BitVec 8) : operandFits (sext8 v) := by
  have := v.le_toInt
  have := v.toInt_lt
  exact ⟨by unfold sext8; omega, by unfold sext8; omega⟩

theorem decodeF_ok {c : Word} {command : Int → Instr} {i : Instr} (h : decodeF c command = .ok i) :
    i = command (sext8 (fieldA c)) := by
  unfold decodeF at h
  split at h
  · cases h
  · split at h
    · cases h
    · exact (Except.ok.inj h).symm

theorem decodeX_ok {c : Word} {command : Int → Int → Instr} {i : Instr} (h : decodeX c command = .ok i) :
    i = command (sext8 (fieldA c)) (sext8 (fieldB c)) := by
  unfold decodeX at h
  split at h
  · cases h
  · split at h
    · cases h
    · exact (Except.ok.inj h).symm

/-- The operands of a decoded command fit their fields (R103). -/
theorem wellFormed_of_decode {c : Word} {i : Instr} (h : decode c = .ok i) : i.WellFormed := by
  unfold decode at h
  split at h
  · exact decodeF_ok h ▸ sext8_fits _
  split at h
  · exact decodeX_ok h ▸ ⟨sext8_fits _, sext8_fits _⟩
  split at h
  · exact decodeF_ok h ▸ sext8_fits _
  split at h
  · exact decodeF_ok h ▸ sext8_fits _
  split at h
  · exact decodeF_ok h ▸ sext8_fits _
  · cases h

/-- The latched operands of a filter command, within the sizes of its spaces (R53, R245). -/
structure FilterOperands (p : Config.Params) (l : Latch) : Prop where
  latch  : FilterLatch l
  width  : l.w < 2 ^ p.xw
  height : l.h < 2 ^ p.yw

theorem filterOperands_of_validateFilter {radius : Int} {s : State} {l : Latch} (h : validateFilter radius s = .ok l)
    (hh : s.height.toNat < 2 ^ s.params.yw) : FilterOperands s.params l := by
  refine ⟨filterLatch_of_validateFilter h, ?_, ?_⟩
  all_goals obtain ⟨-, -, -, -, -, rfl⟩ := validateFilter_ok h
  · exact slenAt_lt s 0
  · exact hh

theorem FilterOperands.columns_le {p : Config.Params} {l : Latch} (hop : FilterOperands p l) :
    l.w + 2 * l.r ≤ p.xcols := by
  have := maxW_of_lt hop.width
  have := hop.latch.radius
  rw [xcols_eq]
  omega

/-- Validation of `EXT2D` latches its margins and `H` (R138, R53). -/
theorem ext2dCheck_ok {hMargin vMargin : Int} {s : State} {l : Latch} (h : ext2dCheck hMargin vMargin s = .ok l) :
    l = { s.latch with hMargin := hMargin.toNat, vMargin := vMargin.toNat, h := s.height.toNat } := by
  unfold ext2dCheck at h
  split at h
  · cases h
  · split at h
    · cases h
    · exact (Except.ok.inj h).symm

/-- Validation of `EXT1D` latches its margin (R137, R53). -/
theorem ext1dCheck_ok {margin : Int} {s : State} {l : Latch} (h : ext1dCheck margin s = .ok l) :
    l = { s.latch with hMargin := margin.toNat } := by
  unfold ext1dCheck at h
  split at h
  · cases h
  · exact (Except.ok.inj h).symm

section Filters

variable {s : State} (h : StoresKept s) (hop : FilterOperands s.params s.latch)
include h hop

theorem storesKept_ringFill {k : Nat} (hk : k < s.latch.l - 1) : StoresKept (ringFill k s) := by
  have hside := hop.latch.side
  have hradius := hop.latch.radius
  exact h.writeRing (by omega) (by simpa using hop.columns_le)

theorem storesKept_ringAppend (y : Nat) : StoresKept (ringAppend y s) := by
  have hside := hop.latch.side
  have hradius := hop.latch.radius
  have hslot : slotOf s (s.latch.l - 1) < s.latch.l := Nat.mod_lt _ (by omega)
  exact h.writeRing (by omega) (by simpa using hop.columns_le)

theorem storesKept_naiveFill {j : Nat} (hj : j < s.latch.h + 2 * s.latch.r) : StoresKept (naiveFill j s) := by
  have hheight := maxH_of_lt hop.height
  have hradius := hop.latch.radius
  exact h.writeXgrid (by rw [xrows_eq]; omega) (by simpa using hop.columns_le)

theorem storesKept_naiveRow {y : Nat} (hy : y < s.latch.h) : StoresKept (naiveRow y s) :=
  h.writeDst (Nat.lt_trans hy hop.height) (by simpa using Nat.le_of_lt hop.width)

theorem storesKept_verticalPass : StoresKept (verticalPass s) := h.writeMid (by simpa using hop.columns_le)

theorem storesKept_horizontalPass {y : Nat} (hy : y < s.latch.h) : StoresKept (horizontalPass y s) :=
  h.writeDst (Nat.lt_trans hy hop.height) (by simpa using Nat.le_of_lt hop.width)

theorem storesKept_ringRotate : StoresKept (ringRotate s) := by
  have hside := hop.latch.side
  have hradius := hop.latch.radius
  have hslot : (s.rstart.toNat + 1) % s.latch.l < s.latch.l := Nat.mod_lt _ (by omega)
  refine h.setRstart ?_
  rw [BitVec.toNat_ofNat]
  exact Nat.lt_of_le_of_lt (Nat.mod_le _ _) (by omega)

theorem storesKept_sepRow {y : Nat} (hy : y < s.latch.h) : StoresKept (sepRow y s) :=
  storesKept_ringRotate
    (storesKept_horizontalPass (storesKept_verticalPass (storesKept_ringAppend h hop y) hop) hop hy) hop

end Filters

/-! The grouped passes of `FVEC` (R201). -/

theorem StoresKept.lanesSet {a : Nat} {s : State} (h : StoresKept s) (ha : a ≤ s.params.lanes) (f : Nat → U16) :
    StoresKept (lanesSet a f s) := h.writeAcc (by simpa using ha)

/-- A loop of lane operations keeps the stores (R206, R207). -/
theorem StoresKept.lanesLoop {a : Nat} {s : State} (h : StoresKept s) (ha : a ≤ s.params.lanes)
    {f : Nat → State → State} {g : Nat → State → Nat → U16}
    (hf : ∀ j t, f j t = Machine.lanesSet a (g j t) t) (n : Nat) :
    StoresKept (loop f n s) ∧ (loop f n s).params = s.params :=
  loop_induct (fun _ t => StoresKept t ∧ t.params = s.params) ⟨h, rfl⟩ fun k t _ ⟨ht, hp⟩ => by
    rw [hf]
    exact ⟨ht.lanesSet (by rw [hp]; exact ha) _, hp⟩

theorem storesKept_verticalGroup {s : State} (h : StoresKept s) {grp : Group} (hin : grp.1 + grp.2 ≤ s.params.xcols)
    (ha : grp.2 ≤ s.params.lanes) : StoresKept (verticalGroup grp s) := by
  obtain ⟨ht, hp⟩ := (h.lanesSet ha _).lanesLoop ha (f := verticalTap grp) (fun _ _ => rfl) s.latch.l
  exact ht.writeMid (by rw [hp]; simpa using hin)

theorem storesKept_horizontalGroup {s : State} (h : StoresKept s) {grp : Group} {y : Nat} (hy : y < 2 ^ s.params.yw)
    (hin : grp.1 + grp.2 ≤ 2 ^ s.params.xw) (ha : grp.2 ≤ s.params.lanes) : StoresKept (horizontalGroup y grp s) := by
  obtain ⟨ht, hp⟩ := (h.lanesSet ha _).lanesLoop ha (f := horizontalTap grp) (fun _ _ => rfl) s.latch.l
  exact (ht.lanesSet (by rw [hp]; exact ha) _).writeDst (by rw [lanesSet_params, hp]; exact hy)
    (by rw [lanesSet_params, hp]; simpa using hin)

/-- A pass over the groups of `n` columns keeps what each of its groups keeps. -/
theorem storesKept_groups {f : State → Group → State} {n : Nat} {s : State} (h : StoresKept s)
    (hf : ∀ t grp, StoresKept t → t.params = s.params → grp.1 + grp.2 ≤ n → grp.2 ≤ s.params.lanes →
      StoresKept (f t grp) ∧ (f t grp).params = t.params) :
    StoresKept ((groups s.params.lanes n).foldl f s) :=
  And.left <| List.foldlRecOn (motive := fun t => StoresKept t ∧ t.params = s.params) _ f ⟨h, rfl⟩
    fun t ⟨ht, hp⟩ grp hgrp =>
      have hin := (groups_cover (lanes_pos s.params)).1 grp hgrp
      have hkept := hf t grp ht hp hin.1 hin.2
      ⟨hkept.1, hkept.2.trans hp⟩

theorem storesKept_verticalGroups {s : State} (h : StoresKept s) (hop : FilterOperands s.params s.latch) :
    StoresKept (verticalGroups s) :=
  storesKept_groups h fun t grp ht hp hin ha =>
    ⟨storesKept_verticalGroup ht (by rw [hp]; exact Nat.le_trans hin hop.columns_le) (by rw [hp]; exact ha),
      (congrArg State.params (verticalGroup_eq grp t) :)⟩

theorem storesKept_horizontalGroups {s : State} (h : StoresKept s) {y : Nat} (hy : y < 2 ^ s.params.yw)
    (hw : s.latch.w < 2 ^ s.params.xw) : StoresKept (horizontalGroups y s) :=
  storesKept_groups h fun t grp ht hp hin ha =>
    ⟨storesKept_horizontalGroup ht (by rw [hp]; exact hy) (by rw [hp]; omega) (by rw [hp]; exact ha),
      (congrArg State.params (horizontalGroup_eq y grp t) :)⟩

theorem storesKept_vecRow {s : State} (h : StoresKept s) (hop : FilterOperands s.params s.latch) {y : Nat}
    (hy : y < s.latch.h) : StoresKept (vecRow y s) := by
  have hv := control_verticalGroups (ringAppend y s)
  have hh := control_horizontalGroups y (verticalGroups (ringAppend y s))
  have hvParams : (verticalGroups (ringAppend y s)).params = s.params := params_of_control hv
  have hvLatch : (verticalGroups (ringAppend y s)).latch = s.latch := latch_of_control hv
  refine storesKept_ringRotate (storesKept_horizontalGroups
    (storesKept_verticalGroups (storesKept_ringAppend h hop y) hop) ?_ ?_) ?_
  · rw [hvParams]
    exact Nat.lt_trans hy hop.height
  · rw [hvParams, hvLatch]
    exact hop.width
  · rw [params_of_control hh, latch_of_control hh, hvParams, hvLatch]
    exact hop

/-- The iterations of a command keep the stores. -/
theorem storesKept_fill {i : Instr} {s : State} (hwf : i.WellFormed) (hh : s.height.toNat < 2 ^ s.params.yw)
    (hc : (bodyOf i).check s = .ok s.latch) {k : Nat} (hk : k < (bodyOf i).fills s.latch) (h : StoresKept s) :
    StoresKept ((bodyOf i).fill k s) := by
  cases i with
  | ext1d margin =>
    obtain ⟨-, hmargin⟩ := hwf
    have hlhm := congrArg Latch.hMargin (ext1dCheck_ok hc)
    simp only at hlhm
    show StoresKept (ext1dFill k s)
    rw [ext1dFill_eq]
    exact h.extendInto (by rw [erows_eq]; omega) (by omega)
  | ext2d hMargin vMargin =>
    obtain ⟨⟨-, hhMargin⟩, -, hvMargin⟩ := hwf
    have hl := ext2dCheck_ok hc
    have hlh := congrArg Latch.h hl
    have hlhm := congrArg Latch.hMargin hl
    have hlvm := congrArg Latch.vMargin hl
    have hheight := maxH_of_lt hh
    have hrow : k < s.latch.h + 2 * s.latch.vMargin := hk
    simp only at hlh hlhm hlvm
    show StoresKept (ext2dFill k s)
    rw [ext2dFill_eq]
    exact h.extendInto (by rw [erows_eq]; omega) (by omega)
  | fnaive r => exact storesKept_naiveFill h (filterOperands_of_validateFilter hc hh) hk
  | fsep r => exact storesKept_ringFill h (filterOperands_of_validateFilter hc hh) hk
  | fvec r => exact storesKept_ringFill h (filterOperands_of_validateFilter hc hh) hk

theorem storesKept_row {i : Instr} {s : State} (hh : s.height.toNat < 2 ^ s.params.yw)
    (hc : (bodyOf i).check s = .ok s.latch) {y : Nat} (hy : y < (bodyOf i).rows s.latch) (h : StoresKept s) :
    StoresKept ((bodyOf i).row y s) := by
  cases i with
  | ext1d margin => exact h
  | ext2d hMargin vMargin => exact h
  | fnaive r => exact storesKept_naiveRow h (filterOperands_of_validateFilter hc hh) hy
  | fsep r => exact storesKept_sepRow h (filterOperands_of_validateFilter hc hh) hy
  | fvec r => exact storesKept_vecRow h (filterOperands_of_validateFilter hc hh) hy

theorem storesKept_start (i : Instr) {s : State} (h : StoresKept s) : StoresKept ((bodyOf i).start s) := by
  cases i with
  | ext1d margin => exact h
  | ext2d hMargin vMargin => exact h
  | fnaive r => exact h
  | fsep r => exact h.setRstart (v := 0) (by decide)
  | fvec r => exact h.setRstart (v := 0) (by decide)

end Sys2Proof.Machine
end

section
/-! SUPPORT. The invariant, update by update: the agents', the port's, the reset's, and each stage of a command. -/

namespace Sys2Proof.Machine

theorem Inv.storesKept {s : State} (h : Inv s) : StoresKept s := ⟨h.canonical, h.inRange, h.rstart⟩

theorem Inv.idle_of_not_busy {s : State} (h : Inv s) (hb : s.busy = false) : s.seq.phase = .idle := by
  by_contra hne
  rw [h.busy.2 hne] at hb
  cases hb

/-- A running command has `STATUS` 1: the one legal value with `BUSY = 1` (R44, R252). -/
theorem Inv.status_of_running {s : State} (h : Inv s) (hp : s.seq.phase ≠ .idle) : s.status = 1 := by
  have hlegal : legalStatus.all (fun v => statusBusy v = true → v = 1) = true := by decide
  exact of_decide_eq_true (List.all_eq_true.1 hlegal s.status h.status) (h.busy.2 hp)

/-- A legal value of `STATUS` with `BUSY = 0` (R252). -/
def IdleStatus (v : Word) : Prop := v ∈ legalStatus ∧ statusBusy v = false

theorem idleStatus_statusError (kind : ErrKind) : IdleStatus (statusError kind) := by
  cases kind <;> exact ⟨by decide, by decide⟩

theorem idleStatus_zero : IdleStatus 0 := ⟨by decide, by decide⟩

/-- The successful end of a running command leaves `STATUS` 2 (R249). -/
theorem idleStatus_statusEnded : IdleStatus (statusEnded 1) := ⟨by decide, by decide⟩

/-- What an idle engine needs for the invariant. -/
theorem Inv.of_idle {t : State} (hheight : t.height.toNat < 2 ^ t.params.yw) (hstatus : IdleStatus t.status)
    (hseq : t.seq = { phase := .idle, y := 0 }) (hk : StoresKept t)
    (hheld : ∀ a ∈ t.held, a.isRegRead = false) : Inv t where
  height := hheight
  status := hstatus.1
  busy := by simp [State.busy, hstatus.2, hseq]
  counter _ := by rw [hseq]
  latched hp := by simp [hseq] at hp
  rstart := hk.rstart
  canonical := hk.canonical
  inRange := hk.inRange
  heldKind := hheld

/-! Validation, and the operands it has latched. -/

/-- What validation reads, everything else erased (R245, R284). -/
def validated (s : State) : State :=
  { State.resetOf s.params with height := s.height, slen := s.slen, latch := s.latch, epoch := s.epoch }

theorem check_validated (i : Instr) (s : State) : (bodyOf i).check (validated s) = (bodyOf i).check s := by
  cases i <;> rfl

theorem check_congr (i : Instr) {s t : State} (h : validated t = validated s) :
    (bodyOf i).check t = (bodyOf i).check s := by
  rw [← check_validated, h, check_validated]

theorem validateFilter_latched {radius : Int} {s : State} {l : Latch} (h : validateFilter radius s = .ok l) :
    validateFilter radius { s with latch := l } = .ok l := by
  obtain ⟨h0, h7, hh, hw, hrag, hl⟩ := validateFilter_ok h
  lift radius to ℕ using h0
  exact (validateFilter_of_legal (s := { s with latch := l }) (by omega) hh hw hrag).trans
    (congrArg Except.ok (by rw [hl]; rfl))

/-- Validation passes again once its operands are latched, with the same operands (R53). -/
theorem check_latched {i : Instr} {s : State} {l : Latch} (h : (bodyOf i).check s = .ok l) :
    (bodyOf i).check { s with latch := l } = .ok l := by
  cases i with
  | ext1d margin =>
    have hl := ext1dCheck_ok h
    simp only [bodyOf, ext1dBody, ext1dCheck] at h ⊢
    split at h
    · cases h
    · rename_i hpass
      exact (if_neg hpass).trans (congrArg Except.ok (by rw [hl]))
  | ext2d hMargin vMargin =>
    have hl := ext2dCheck_ok h
    simp only [bodyOf, ext2dBody, ext2dCheck] at h ⊢
    split at h
    · cases h
    · rename_i hpass
      split at h
      · cases h
      · rename_i hrows
        exact (if_neg hpass).trans ((if_neg hrows).trans (congrArg Except.ok (by rw [hl])))
  | fnaive r => exact validateFilter_latched h
  | fsep r => exact validateFilter_latched h
  | fvec r => exact validateFilter_latched h

/-- A running loop's validation, of the command `i` in `CMD`. -/
theorem Inv.latched_of_decode {s : State} (h : Inv s) {i : Instr} (hd : decode s.cmd = .ok i)
    (hp : s.seq.phase = .fill ∨ s.seq.phase = .row) : (bodyOf i).check s = .ok s.latch := by
  obtain ⟨i', hd', hc, -⟩ := h.latched hp
  cases hd.symm.trans hd'
  exact hc

/-! The engine's updates. -/

/-- The error end (R250). -/
theorem Inv.raiseErr {s : State} (h : Inv s) (kind : ErrKind) : Inv (raiseErr kind s) :=
  .of_idle h.height (idleStatus_statusError kind) rfl (h.storesKept.of_storesOf_eq rfl) h.heldKind

/-- The successful end of a running command (R249). -/
theorem Inv.endOk {s : State} (h : Inv s) (hp : s.seq.phase ≠ .idle) (w ht : Word) : Inv (endOk w ht s) := by
  have hstatus : IdleStatus (Machine.endOk w ht s).status := by
    rw [endOk_status, h.status_of_running hp]
    exact idleStatus_statusEnded
  exact .of_idle h.height hstatus rfl (h.storesKept.of_storesOf_eq rfl) h.heldKind

/-- A stage of the running command `i` that leaves it in a loop: the operands are latched and the counter in range. -/
theorem Inv.of_running {s t : State} (h : Inv s) (hp : s.seq.phase ≠ .idle) {i : Instr} (hd : decode s.cmd = .ok i)
    {q : Seq} (hq : q.phase = .fill ∨ q.phase = .row) {l : Latch}
    (hframe : control t = { control s with latch := l, seq := q }) (hc : (bodyOf i).check { s with latch := l } = .ok l)
    (hfill : q.phase = .fill → q.y ≤ (bodyOf i).fills l)
    (hrow : q.phase = .row → (∃ r, isFilter i r) ∧ q.y ≤ (bodyOf i).rows l) (hk : StoresKept t) : Inv t := by
  have hparams : t.params = s.params := (congrArg State.params hframe :)
  have hheight : t.height = s.height := (congrArg State.height hframe :)
  have hcmd : t.cmd = s.cmd := (congrArg State.cmd hframe :)
  have hstatus : t.status = s.status := (congrArg State.status hframe :)
  have hheld : t.held = s.held := (congrArg State.held hframe :)
  have hseq : t.seq = q := (congrArg State.seq hframe :)
  have hlatch : t.latch = l := (congrArg State.latch hframe :)
  have hvalidated : validated t = validated { s with latch := l } := (congrArg validated hframe :)
  have hbusy : t.busy = true := by rw [State.busy, hstatus]; exact h.busy.2 hp
  subst hseq hlatch
  exact {
    height := by rw [hheight, hparams]; exact h.height
    status := by rw [hstatus]; exact h.status
    busy := by rcases hq with hq | hq <;> simp [hbusy, hq]
    counter := fun hidle => by rcases hq with hq | hq <;> simp [hq] at hidle
    latched := fun _ => ⟨i, by rw [hcmd]; exact hd, (check_congr i hvalidated).trans hc, hfill, hrow⟩
    rstart := hk.rstart
    canonical := hk.canonical
    inRange := hk.inRange
    heldKind := by rw [hheld]; exact h.heldKind }

/-- One stage of the command in `CMD`. -/
theorem Inv.stageBody {s : State} (h : Inv s) {i : Instr} (hd : decode s.cmd = .ok i) :
    Inv (stageBody (bodyOf i) s) := by
  have hwf := wellFormed_of_decode hd
  rcases stageBody_cases (bodyOf i) s with ⟨-, he⟩ | ⟨kind, -, -, he⟩ | ⟨l, hp, hc, he⟩ | ⟨hp, hy, he⟩ |
    ⟨hp, -, hr, he⟩ | ⟨hp, -, -, he⟩ | ⟨hp, hy, he⟩ | ⟨hp, -, he⟩ <;> rw [he]
  · exact h
  · exact h.raiseErr kind
  · exact h.of_running (by simp [hp]) hd (.inl rfl) (control_enter i l s) (check_latched hc) (fun _ => Nat.zero_le _)
      (by simp) (storesKept_start i (h.storesKept.of_storesOf_eq rfl))
  · have hc := h.latched_of_decode hd (.inl hp)
    exact h.of_running (by simp [hp]) hd (.inl rfl) (control_fillStage i _ s) hc (fun _ => hy) (by simp)
      ((storesKept_fill hwf h.height hc hy h.storesKept).of_storesOf_eq rfl)
  · obtain ⟨hr', -⟩ | ⟨-, hfilter⟩ := hasRows_cases i
    · rw [hr] at hr'; cases hr'
    · exact h.of_running (by simp [hp]) hd (.inr rfl) rfl (h.latched_of_decode hd (.inl hp))
        (by simp) (fun _ => ⟨hfilter, Nat.zero_le _⟩) (h.storesKept.of_storesOf_eq rfl)
  · exact h.endOk (by simp [hp]) _ _
  · have hc := h.latched_of_decode hd (.inr hp)
    obtain ⟨i', hd', -, -, hrow⟩ := h.latched (.inr hp)
    cases hd.symm.trans hd'
    exact h.of_running (by simp [hp]) hd (.inr rfl) (control_rowStage i _ s) hc (by simp)
      (fun _ => ⟨(hrow hp).1, hy⟩) ((storesKept_row h.height hc hy h.storesKept).of_storesOf_eq rfl)
  · exact h.endOk (by simp [hp]) _ _

/-- One stage of the engine. -/
theorem Inv.engineStage {s : State} (h : Inv s) : Inv (engineStage s) := by
  rcases engineStage_cases s with ⟨-, he⟩ | ⟨-, -, he⟩ | ⟨-, i, hd, he⟩ <;> rw [he]
  · exact h
  · exact h.raiseErr _
  · exact h.stageBody hd

/-! The port's updates, the reset, and the turns. -/

/-- What the agents hold, have to do and have received is free, but for the kind of what is held (R84). -/
theorem Inv.setAgents {s : State} (h : Inv s) {held : List HostAction} (script : List Event) (replies : List Reply)
    (schedule : List Turn) (hheld : ∀ a ∈ held, a.isRegRead = false) :
    Inv { s with held := held, script := script, replies := replies, schedule := schedule } where
  height := h.height
  status := h.status
  busy := h.busy
  counter := h.counter
  latched hp := by
    obtain ⟨i, hd, hc, hfill, hrow⟩ := h.latched hp
    refine ⟨i, hd, (check_congr i (s := s) ?_).trans hc, hfill, hrow⟩
    rfl
  rstart := h.rstart
  canonical := { h.canonical with }
  inRange := { h.inRange with }
  heldKind := hheld

theorem Inv.resetOf (p : Config.Params) : Inv (State.resetOf p) :=
  .of_idle (Nat.two_pow_pos p.yw) idleStatus_zero rfl (storesKept_resetOf p)
    (by simp [State.resetOf])

theorem Inv.resetBlock (s : State) : Inv (resetBlock s) :=
  .of_idle (Nat.two_pow_pos s.params.yw) idleStatus_zero rfl
    ((storesKept_resetOf s.params).of_storesOf_eq rfl) (by simp [Machine.resetBlock, State.resetOf])

/-- Acceptance of a command (R243). -/
theorem Inv.accept {s : State} (h : Inv s) (c : Word) : Inv (accept c s) where
  height := h.height
  status := by rw [accept_status]; decide
  busy := by rw [State.busy, accept_status, accept_seq]; decide
  counter _ := rfl
  latched hp := by simp at hp
  rstart := h.rstart
  canonical := { h.canonical with }
  inRange := { h.inRange with }
  heldKind := h.heldKind

theorem heightStored_toNat (p : Config.Params) (v : Word) : (heightStored p v).toNat = v.toNat % 2 ^ p.yw :=
  Nat.mod_eq_of_lt (Nat.lt_of_le_of_lt (Nat.mod_le _ _) v.isLt)

/-- A host action performed, on an idle engine or a register read (R84). -/
theorem Inv.perform {a : HostAction} {s t : State} (h : Inv s) (ha : a.isRegRead = true ∨ s.busy = false)
    (hp : perform a s = .next t) : Inv t := by
  have hidle : a.isRegRead = false → IdleStatus s.status ∧ s.seq = { phase := .idle, y := 0 } := fun hread => by
    have hb : s.busy = false := ha.resolve_left (by simp [hread])
    have hphase := h.idle_of_not_busy hb
    exact ⟨⟨h.status, hb⟩, by rw [← hphase, ← h.counter (.inl hphase)]⟩
  rcases perform_cases hp with ⟨reg, v, rfl, rfl⟩ | ⟨-, v, rfl⟩ | ⟨y, x, v, rfl, hin, rfl⟩ | ⟨y, v, rfl, hin, rfl⟩ | rfl
  · obtain ⟨hstatus, hseq⟩ := hidle rfl
    rcases regWrite_cases reg v s with ⟨-, he⟩ | ⟨-, he⟩ | he <;> rw [he]
    · have hheight : (heightStored s.params v).toNat < 2 ^ s.params.yw :=
        heightStored_toNat s.params v ▸ Nat.mod_lt _ (Nat.two_pow_pos _)
      exact .of_idle hheight hstatus hseq (h.storesKept.of_storesOf_eq rfl) h.heldKind
    · exact h.accept v
    · exact h
  · exact h.setAgents s.script _ s.schedule h.heldKind
  · obtain ⟨hstatus, hseq⟩ := hidle rfl
    have hin : y < 2 ^ s.params.yw ∧ x < 2 ^ s.params.xw := by simpa [inSpace] using hin
    exact .of_idle h.height hstatus hseq (h.storesKept.writeSrc v hin.1 hin.2) h.heldKind
  · obtain ⟨hstatus, hseq⟩ := hidle rfl
    have hin : y < 2 ^ s.params.yw := by simpa [inTable] using hin
    exact .of_idle h.height hstatus hseq
      (h.storesKept.writeSlen hin (Nat.mod_lt _ (Nat.two_pow_pos _))) h.heldKind
  · exact h

theorem Inv.make {a : HostAction} {s t : State} (h : Inv s) (hm : make a s = .next t) : Inv t := by
  rcases make_cases hm with ⟨ha, -, rfl⟩ | ⟨ha, hp⟩
  · refine h.setAgents s.script s.replies s.schedule fun b hb => ?_
    rcases List.mem_append.1 hb with hb | hb
    · exact h.heldKind b hb
    · rw [List.mem_singleton.1 hb]; exact ha
  · exact h.perform (ha.imp id And.left) hp

theorem Inv.hostMove {s t : State} (h : Inv s) (hm : hostMove s = .next t) : Inv t := by
  rcases hostMove_cases hm with ⟨-, rfl⟩ | ⟨rest, -, rfl⟩ | ⟨a, rest, -, hmake⟩ | ⟨rest, -, rfl⟩
  · exact h
  · exact Inv.resetBlock _
  · exact (h.setAgents rest s.replies s.schedule h.heldKind).make hmake
  · exact h.setAgents rest s.replies s.schedule h.heldKind

theorem Inv.popTurn {s : State} (h : Inv s) : Inv (popTurn s) :=
  h.setAgents s.script s.replies s.schedule.tail h.heldKind

end Sys2Proof.Machine

namespace Sys2Proof.Proofs

open Sys2Proof Sys2Proof.Machine

/-- Settles O52: each of the moves a step can make keeps the invariant. -/
theorem stepKeepsTheInvariant : Obligations.StepKeepsTheInvariant := by
  intro s t h hstep
  rcases step_cases hstep with ⟨-, hm⟩ | ⟨hr, ht⟩ | ⟨hr, ht⟩ | ⟨-, a, rest, hheld, hb, hp⟩ | ⟨-, -, -, rfl⟩
  · exact h.popTurn.hostMove hm
  · exact engine_keeps (P := Inv) (s := popTurn s) (fun _ => Inv.engineStage) hr h.popTurn (.inl ht)
  · exact engine_keeps (P := Inv) (s := popTurn s) (fun _ => Inv.engineStage) hr h.popTurn (.inr ht)
  · have hrest : ∀ b ∈ rest, b.isRegRead = false := fun b hmem =>
      h.heldKind b (hheld ▸ List.mem_cons_of_mem a hmem)
    exact (h.setAgents s.script s.replies s.schedule.tail hrest).perform (.inr hb) hp
  · exact h.popTurn

/-- Settles O51. -/
theorem resetHasTheInvariant : Obligations.ResetHasTheInvariant := Inv.resetOf

end Sys2Proof.Proofs
end

section
/-! SUPPORT. The registers, `CAP`, and the operands the extender commands latch (R40, R41, R53). -/

namespace Sys2Proof.Machine

/-! The fields of `CAP` (R41). -/

/-- Concatenation of bit vectors, in numbers. -/
theorem toNat_append_eq_add {m n : Nat} (x : BitVec m) (y : BitVec n) :
    (x ++ y).toNat = x.toNat * 2 ^ n + y.toNat := by
  rw [BitVec.toNat_append, ← Nat.shiftLeft_add_eq_or_of_lt y.isLt, Nat.shiftLeft_eq]

theorem capWord_toNat (p : Config.Params) :
    (capWord p).toNat = 0x10 * 2 ^ 24 + p.log2g.val * 2 ^ 16 + p.yw * 2 ^ 8 + p.xw := by
  have hx := (xw_range p).2
  have hy := (yw_range p).2
  have hg := p.log2g.isLt
  simp only [capWord, toNat_append_eq_add, BitVec.toNat_ofNat]
  omega

/-! The parameters are changed by nothing. -/

theorem params_engineStage (s : State) : (engineStage s).params = s.params := by
  rcases engineStage_cases s with ⟨-, h⟩ | ⟨-, -, h⟩ | ⟨-, i, -, h⟩ <;> rw [h]
  · rfl
  · exact (congrArg State.params (fixedPart_stageBody i s) :)

theorem params_perform {a : HostAction} {s t : State} (h : perform a s = .next t) : t.params = s.params := by
  rcases perform_cases h with ⟨reg, v, -, rfl⟩ | ⟨-, v, rfl⟩ | ⟨y, x, v, -, -, rfl⟩ | ⟨y, v, -, -, rfl⟩ | rfl
  · rcases regWrite_cases reg v s with ⟨-, he⟩ | ⟨-, he⟩ | he <;> rw [he]
    rfl
  all_goals rfl

theorem params_hostMove {s t : State} (h : hostMove s = .next t) : t.params = s.params := by
  rcases hostMove_cases h with ⟨-, rfl⟩ | ⟨rest, -, rfl⟩ | ⟨a, rest, -, hm⟩ | ⟨rest, -, rfl⟩
  · rfl
  · rfl
  · rcases make_cases hm with ⟨-, -, rfl⟩ | ⟨-, hp⟩
    · rfl
    · exact (params_perform hp :)
  · rfl

theorem params_step {s t : State} (h : step s = .next t) : t.params = s.params := by
  have hengine := engine_keeps (P := fun u => u.params = s.params) (s := popTurn s) (t := t)
    (fun u hu => (params_engineStage u).trans hu)
  rcases step_cases h with ⟨-, hm⟩ | ⟨hr, ht⟩ | ⟨hr, ht⟩ | ⟨-, a, rest, -, -, hp⟩ | ⟨-, -, -, rfl⟩
  · exact (params_hostMove hm :)
  · exact hengine hr rfl (.inl ht)
  · exact hengine hr rfl (.inr ht)
  · exact (params_perform hp :)
  · rfl

/-! The extender commands on legal operands. -/

theorem ext1dCheck_of_legal {m : Int} {s : State} (hm : 0 ≤ m) (hn : slenAt s 0 ≠ 0) :
    ext1dCheck m s = .ok { s.latch with hMargin := m.toNat } :=
  if_neg (by omega)

theorem ext2dCheck_of_legal {hm vm : Int} {s : State} (hhm : 0 ≤ hm) (hvm : 0 ≤ vm) (hg : LegalGrid s) :
    ext2dCheck hm vm s = .ok { s.latch with hMargin := hm.toNat, vMargin := vm.toNat, h := s.height.toNat } := by
  obtain ⟨hheight, hrows⟩ := hg
  have hnone : ¬ (List.range s.height.toNat).any (fun y => slenAt s y == 0) = true := by
    simpa using hrows
  exact (if_neg (by omega)).trans (if_neg hnone)

/-- A command that passes validation ends with the operands latched (R53). -/
theorem exec_latch {i : Instr} {s : State} {l : Latch} (hc : (bodyOf i).check s = .ok l) :
    ∃ t, exec i s = .next t ∧ t.latch = l :=
  ⟨_, exec_eq i s, by rw [runBody_ok hc, finish, endOk_latch, doneLoops_latch]⟩

end Sys2Proof.Machine

namespace Sys2Proof.Proofs

open Sys2Proof Sys2Proof.Machine

/-- Settles O22: what validation latches stands until the command ends. -/
theorem extendersLatchTheirOperands : Obligations.ExtendersLatchTheirOperands :=
  ⟨fun _ _ hm hn => exec_latch (ext1dCheck_of_legal hm hn),
    fun _ _ _ hhm hvm hg => exec_latch (ext2dCheck_of_legal hhm hvm hg)⟩

/-- Settles O43: the four fields of `CAP` as one number, and parameters that no step changes. -/
theorem capIsConstant : Obligations.CapIsConstant := by
  refine ⟨fun s => ?_, by decide, fun s t h => ?_⟩
  · have hx := (xw_range s.params).2
    have hy := (yw_range s.params).2
    have hg := s.params.log2g.isLt
    have hcap : (regValue s .cap).toNat = _ := capWord_toNat s.params
    simp only [hcap]
    omega
  · show capWord t.params = capWord s.params
    rw [params_step h]

/-- Settles O42, register by register. -/
theorem registerMap : Obligations.RegisterMap := by
  refine ⟨by decide, fun p => ⟨rfl, rfl⟩, fun reg s => rfl, fun v s => ⟨_, rfl, ?_⟩, fun v s => ⟨_, rfl, rfl, ?_⟩, ?_⟩
  · exact heightStored_toNat s.params v
  · show statusBusy statusAccepted = true
    decide
  · intro reg v s hreg
    simp only [List.mem_cons, List.not_mem_nil, or_false] at hreg
    rcases hreg with rfl | rfl | rfl | rfl <;> rfl

/-- Settles O48: the reset values as the model defines them (R61). -/
theorem registersAfterReset : Obligations.RegistersAfterReset :=
  fun _ => ⟨rfl, rfl, rfl, rfl, rfl, rfl, rfl, rfl⟩

end Sys2Proof.Proofs
end

section
/-! SUPPORT. The row the engine builds by clamped columns is `extend1D` of the source row (R90, R131). -/

namespace Sys2Proof.Machine

/-- `extend1D` of a sequence with elements, in closed form (R131). -/
theorem extend1D_of_ne_nil {α : Type} {seq : List α} (h : seq ≠ []) (m : Nat) :
    extend1D seq m = .ok (List.replicate m (seq.head h) ++ seq ++ List.replicate m (seq.getLast h)) := by
  cases seq with
  | nil => exact absurd rfl h
  | cons v vs => exact if_neg (by omega)

/-- `extend1D` by clamp: element `e` of the result is the one at the clamped index (R131). -/
theorem extend1D_map_range {α : Type} (f : Nat → α) (m : Nat) {n : Nat} (hn : n ≠ 0) :
    extend1D ((List.range n).map f) m =
      .ok ((List.range (n + 2 * m)).map fun (e : Nat) => f (clampIndex ((e : Int) - m) n)) := by
  rw [extend1D_of_ne_nil (by simpa using hn)]
  refine congrArg Except.ok (List.ext_getElem (by simp; omega) fun e he he' => ?_)
  simp only [List.getElem_map, List.getElem_range, clampIndex_sub]
  by_cases hleft : e < m
  · simp [hleft]
  · by_cases hmid : e < m + n
    · have hin : e - m < n := by omega
      simp [List.getElem_append, hleft, hmid, hin]
    · have hout : ¬ e - m < n := by omega
      simp [List.getElem_append, hleft, hmid, hout]

end Sys2Proof.Machine

namespace Sys2Proof.Proofs

open Sys2Proof Sys2Proof.Machine

/-- Settles O19: both read the widened source at clamped columns. -/
theorem extendedRowIsExtend1d : Obligations.ExtendedRowIsExtend1d :=
  fun _ _ m _ hn => extend1D_map_range _ m hn

end Sys2Proof.Proofs
end

section
/-! SUPPORT. What no command changes (R50, R70, R87). -/

namespace Sys2Proof.Machine

/-- The frame of a whole command. -/
theorem fixedPart_runBody (i : Instr) (s : State) : fixedPart (runBody (bodyOf i) s) = fixedPart s :=
  runBody_const fixedPart
    (fun t => (congrArg fixedPart (control_start i t) :))
    (fun k t => (congrArg fixedPart (control_fill i k t) :))
    (fun k t => (congrArg fixedPart (control_row i k t) :))
    (fun _ _ => rfl) (fun _ _ => rfl) (fun _ _ => rfl) (fun _ _ _ => rfl)

/-- The set-up loop of every command leaves `DST` alone. -/
theorem dst_fill (i : Instr) (k : Nat) (s : State) : ((bodyOf i).fill k s).dst = s.dst := by cases i <;> rfl

/-- The extender commands, which have no row loop, leave `DST` alone. -/
theorem dst_runBody_extender {i : Instr} (hi : (bodyOf i).hasRows = false) (s : State) :
    (runBody (bodyOf i) s).dst = s.dst := by
  have hstart : ∀ t, ((bodyOf i).start t).dst = t.dst := by cases i <;> exact fun _ => rfl
  have hrow : ∀ k t, ((bodyOf i).row k t).dst = t.dst := by
    cases i with
    | ext1d margin => exact fun _ _ => rfl
    | ext2d hMargin vMargin => exact fun _ _ => rfl
    | _ => cases hi
  exact runBody_const State.dst hstart (dst_fill i) hrow (fun _ _ => rfl) (fun _ _ => rfl) (fun _ _ => rfl)
    (fun _ _ _ => rfl)

/-- A row of a filter command leaves `EXT` and `ELEN` alone. -/
theorem extensions_filterRow {i : Instr} {r : Int} (hi : isFilter i r) (y : Nat) (s : State) :
    (((bodyOf i).row y s).ext, ((bodyOf i).row y s).elen) = (s.ext, s.elen) := by
  rcases hi with rfl | rfl | rfl
  · rfl
  · exact Prod.ext (sepRow_ext y s) (sepRow_elen y s)
  · exact Prod.ext (vecRow_ext y s) (vecRow_elen y s)

/-- The filter commands leave `EXT` and `ELEN` alone. -/
theorem extensions_runBody_filter {i : Instr} {r : Int} (hi : isFilter i r) (s : State) :
    ((runBody (bodyOf i) s).ext, (runBody (bodyOf i) s).elen) = (s.ext, s.elen) :=
  runBody_const (fun t => (t.ext, t.elen)) (fun t => by rcases hi with rfl | rfl | rfl <;> rfl)
    (fun k t => by rcases hi with rfl | rfl | rfl <;> rfl) (extensions_filterRow hi)
    (fun _ _ => rfl) (fun _ _ => rfl) (fun _ _ => rfl) (fun _ _ _ => rfl)

end Sys2Proof.Machine

namespace Sys2Proof.Proofs

open Sys2Proof Sys2Proof.Machine

/-- Settles O41: the frame of a whole command, field by field, and the result spaces of the other family. -/
theorem commandsLeaveTheirOperandsAlone : Obligations.CommandsLeaveTheirOperandsAlone := by
  intro i s t h
  obtain rfl : runBody (bodyOf i) s = t := Host.Outcome.next.inj ((exec_eq i s).symm.trans h)
  have hframe := fixedPart_runBody i s
  refine ⟨(congrArg State.src hframe :), (congrArg State.slen hframe :), (congrArg State.height hframe :),
    (congrArg State.cmd hframe :), (congrArg State.params hframe :), (congrArg State.held hframe :),
    (congrArg State.script hframe :), (congrArg State.replies hframe :), (congrArg State.schedule hframe :),
    (congrArg State.epoch hframe :), ?_, ?_, ?_⟩
  · rintro m rfl
    exact dst_runBody_extender rfl s
  · rintro hm vm rfl
    exact dst_runBody_extender rfl s
  · exact fun r hi => Prod.ext_iff.1 (extensions_runBody_filter hi s)

end Sys2Proof.Proofs
end

section
/-! SUPPORT. Each host access, by whether its index is in range (R70, R77, R78). -/

namespace Sys2Proof.Machine

/-! The index ranges, in numbers (R47 to R51). -/

theorem inSpace_src (p : Config.Params) (y x : Nat) : inSpace p .src y x ↔ y < 2 ^ p.yw ∧ x < 2 ^ p.xw := by
  simp [inSpace]

theorem inSpace_dst (p : Config.Params) (y x : Nat) : inSpace p .dst y x ↔ y < 2 ^ p.yw ∧ x < 2 ^ p.xw := by
  simp [inSpace]

theorem inSpace_ext (p : Config.Params) (y x : Nat) : inSpace p .ext y x ↔ y < p.erows ∧ x < p.ecols := by
  simp [inSpace]

theorem inTable_slen (p : Config.Params) (y : Nat) : inTable p .slen y ↔ y < 2 ^ p.yw := by simp [inTable]

theorem inTable_elen (p : Config.Params) (y : Nat) : inTable p .elen y ↔ y < p.erows := by simp [inTable]

section Accesses
variable {s : State} {space : MemSpace} {table : Table} {y x : Nat}

theorem perform_memRead (h : inSpace s.params space y x) :
    perform (.memRead space y x) s = .next (answer (.memRead space y x) (memValue s space y x) s) := if_pos h

theorem perform_memWrite (h : inSpace s.params space y x) (v : BitVec space.width) :
    perform (.memWrite space y x v) s = .next (memWrite space y x v s) := if_pos h

theorem perform_tabRead (h : inTable s.params table y) :
    perform (.tabRead table y) s = .next (answer (.tabRead table y) (tabValue s table y) s) := if_pos h

theorem perform_tabWrite (h : inTable s.params table y) (v : Word) :
    perform (.tabWrite table y v) s = .next (tabWrite table y v s) := if_pos h

theorem perform_space_refused (h : ¬ inSpace s.params space y x) :
    perform (.memRead space y x) s = .refused .hostIndexOutOfRange ∧
      ∀ v, perform (.memWrite space y x v) s = .refused .hostIndexOutOfRange := ⟨if_neg h, fun _ => if_neg h⟩

theorem perform_table_refused (h : ¬ inTable s.params table y) :
    perform (.tabRead table y) s = .refused .hostIndexOutOfRange ∧
      ∀ v, perform (.tabWrite table y v) s = .refused .hostIndexOutOfRange := ⟨if_neg h, fun _ => if_neg h⟩

end Accesses

/-- A register read is answered in every state (R84, R265). -/
theorem perform_regRead {a : HostAction} (ha : a.isRegRead = true) (s : State) :
    ∃ v, perform a s = .next (answer a v s) := by
  cases a with
  | regRead reg => exact ⟨_, rfl⟩
  | _ => cases ha

/-- A performed read answers a value, and answers it again whatever the host has received in between (R77). -/
theorem perform_read_again {a : HostAction} {s t : State} (ha : a.isRead = true) (h : perform a s = .next t) :
    ∃ v, t = answer a v s ∧ ∀ b w, perform a (answer b w s) = .next (answer a v (answer b w s)) := by
  cases a with
  | regRead reg => exact ⟨_, (Host.Outcome.next.inj h).symm, fun _ _ => by cases reg <;> rfl⟩
  | memRead space y x =>
    by_cases hin : inSpace s.params space y x
    · rw [perform_memRead hin] at h
      exact ⟨_, (Host.Outcome.next.inj h).symm, fun b w =>
        (perform_memRead (s := answer b w s) hin).trans (by cases space <;> rfl)⟩
    · rw [(perform_space_refused hin).1] at h
      cases h
  | tabRead table y =>
    by_cases hin : inTable s.params table y
    · rw [perform_tabRead hin] at h
      exact ⟨_, (Host.Outcome.next.inj h).symm, fun b w =>
        (perform_tabRead (s := answer b w s) hin).trans (by cases table <;> rfl)⟩
    · rw [(perform_table_refused hin).1] at h
      cases h
  | _ => cases ha

/-- The entry written to `SLEN`, read back: the low `XW` bits (R48). -/
theorem slenAt_tabWrite (y : Nat) (v : Word) (s : State) :
    slenAt (tabWrite .slen y v s) y = v.toNat % 2 ^ s.params.xw := by
  have hlt : v.toNat % 2 ^ s.params.xw < 2 ^ s.params.xw := Nat.mod_lt _ (Nat.two_pow_pos _)
  have hread : readElem .slen (tabWrite .slen y v s) (tabWrite .slen y v s).slen y =
      BitVec.ofNat 16 (v.toNat % 2 ^ s.params.xw) := readElem_some (Mem.read_write_same ..)
  have hkept : (BitVec.ofNat 16 (v.toNat % 2 ^ s.params.xw)).toNat = v.toNat % 2 ^ s.params.xw :=
    Nat.mod_eq_of_lt (Nat.lt_of_lt_of_le hlt (two_pow_xw_le s.params))
  rw [slenAt, hread, hkept]
  exact Nat.mod_eq_of_lt hlt

end Sys2Proof.Machine

namespace Sys2Proof.Proofs

open Sys2Proof Sys2Proof.Machine

/-- Settles O44, access by access. -/
theorem hostAccessesHaveNoSideEffect : Obligations.HostAccessesHaveNoSideEffect := by
  refine ⟨fun a s t ha h => ?_, fun _ _ _ => rfl, fun y x s hy hx => ⟨?_, ?_⟩, fun y x s hy hx => ?_, fun y s hy => ?_,
    fun y s hy => ?_, fun _ _ => rfl, fun v s => ?_, fun y x v s hy hx => ?_, fun y v s hy => ?_⟩
  · obtain ⟨v, rfl, hagain⟩ := perform_read_again ha h
    exact ⟨v, rfl, hagain a v⟩
  · exact perform_memRead ((inSpace_src ..).2 ⟨hy, hx⟩)
  · exact perform_memRead ((inSpace_dst ..).2 ⟨hy, hx⟩)
  · exact perform_memRead ((inSpace_ext ..).2 ⟨hy, hx⟩)
  · exact perform_tabRead ((inTable_slen ..).2 hy)
  · exact perform_tabRead ((inTable_elen ..).2 hy)
  · exact ⟨_, rfl, heightStored_toNat s.params v, rfl⟩
  · exact ⟨_, perform_memWrite ((inSpace_src ..).2 ⟨hy, hx⟩) v, readElem_some (Mem.read_write_same ..),
      fun _ ha => Mem.read_write_other _ _ ha, rfl⟩
  · exact ⟨_, perform_tabWrite ((inTable_slen ..).2 hy) v, slenAt_tabWrite y v s,
      fun _ ha => Mem.read_write_other _ _ ha, rfl⟩

/-- Settles O45: in range the write of a result space is the identity, out of range every access is refused. -/
theorem hostWritesOutsideTheHostsRights : Obligations.HostWritesOutsideTheHostsRights := by
  refine ⟨fun y x s hy hx => perform_memWrite ((inSpace_dst ..).2 ⟨hy, hx⟩),
    fun y x s hy hx => perform_memWrite ((inSpace_ext ..).2 ⟨hy, hx⟩),
    fun y s hy => perform_tabWrite ((inTable_elen ..).2 hy), fun y x s hout => ?_, fun y x s hout => ?_,
    fun y s hout => ?_, fun y s hout => ?_⟩
  · obtain ⟨hsrcRead, hsrcWrite⟩ := perform_space_refused (s := s) (space := .src) (y := y) (x := x)
      (by rw [inSpace_src]; omega)
    obtain ⟨hdstRead, hdstWrite⟩ := perform_space_refused (s := s) (space := .dst) (y := y) (x := x)
      (by rw [inSpace_dst]; omega)
    exact ⟨hsrcRead, hdstRead, hsrcWrite, hdstWrite⟩
  · exact perform_space_refused (by rw [inSpace_ext]; omega)
  · exact perform_table_refused (by rw [inTable_slen]; omega)
  · exact perform_table_refused (by rw [inTable_elen]; omega)

end Sys2Proof.Proofs
end

section
/-! SUPPORT. Who has the next step, and what an action made or held does (R80, R84, R85, R265). -/

namespace Sys2Proof.Machine

/-! What it takes for the port and for the outside world to move. -/

theorem portReady_false {s : State} (h : s.busy = true ∨ s.held = []) : portReady s = false := by
  rcases h with h | h <;> simp [portReady, h]

theorem portReady_true {s : State} {a : HostAction} {rest : List HostAction} (hb : s.busy = false)
    (hheld : s.held = a :: rest) : portReady s = true := by
  simp [portReady, hb, hheld]

theorem hostReady_act {s : State} {a : HostAction} {rest : List Event} (hs : s.script = .act a :: rest)
    (hp : portReady s = false) : hostReady s = true := by
  simp [hostReady, hs, hp]

theorem hostReady_await {s : State} {rest : List Event} (hs : s.script = .await :: rest) :
    hostReady s = (!portReady s && !awaiting s) := by
  simp [hostReady, hs]

/-- The port goes before the host, a reset aside (R84). -/
theorem hostReady_of_portReady {s : State} (hp : portReady s = true) (hs : s.script.head? ≠ some .reset) :
    hostReady s = false := by
  unfold hostReady
  split
  · rfl
  · rename_i hreset; simp [hreset] at hs
  · simp [hp]
  · simp [hp]

theorem Inv.engineReady_false {s : State} (h : Inv s) (hb : s.busy = false) : engineReady s = false := by
  simp [engineReady, h.idle_of_not_busy hb]

/-! Who moves. -/

theorem nextMove_host {s : State} (hturn : s.schedule.head? = some .host) (hr : hostReady s = true) :
    nextMove s = .host := by
  cases hs : s.schedule with
  | nil => simp [hs] at hturn
  | cons turn turns =>
    obtain rfl : turn = .host := by simpa [hs] using hturn
    simp [nextMove, hs, hr]

theorem nextMove_host_of_idle {s : State} (he : engineReady s = false) (hp : portReady s = false)
    (hr : hostReady s = true) : nextMove s = .host := by
  rcases nextMove_cases s with ⟨h, -⟩ | ⟨-, h⟩ | ⟨-, -, h⟩ | ⟨-, -, -, h⟩
  · exact h
  · simp [he] at h
  · simp [hp] at h
  · simp [hr] at h

theorem hostReady_of_nextMove {s : State} (h : nextMove s = .host) : hostReady s = true := by
  rcases nextMove_cases s with ⟨-, hr⟩ | ⟨hm | hm, -⟩ | ⟨hm, -⟩ | ⟨hm, -⟩
  · exact hr
  all_goals rw [h] at hm; cases hm

theorem nextMove_port {s : State} (he : engineReady s = false) (hp : portReady s = true)
    (hturn : s.schedule.head? = some .host → hostReady s = false) : nextMove s = .port := by
  have hblock : ∀ m, blockFirst m s = .port := fun m => by simp [blockFirst, he, hp]
  unfold nextMove
  split
  · exact hblock _
  · exact hblock _
  · exact hblock _
  · rename_i hs
    rw [hturn (by simp [hs]), hblock]
    rfl

/-! What the step of each then is. -/

theorem step_host {s : State} (hm : nextMove s = .host) : step s = hostMove (popTurn s) := by
  rw [step, hm, makeMove]

theorem step_act {s : State} {a : HostAction} {rest : List Event} (hm : nextMove s = .host)
    (hs : s.script = .act a :: rest) : step s = make a { popTurn s with script := rest } := by
  rw [step_host hm, hostMove, popTurn_script, hs]

theorem step_await {s : State} {rest : List Event} (hm : nextMove s = .host) (hs : s.script = .await :: rest) :
    step s = .next { popTurn s with script := rest } := by
  rw [step_host hm, hostMove, popTurn_script, hs]

theorem step_port {s : State} {a : HostAction} {rest : List HostAction} (hm : nextMove s = .port)
    (hheld : s.held = a :: rest) : step s = perform a { popTurn s with held := rest } := by
  have hpop : (popTurn s).held = a :: rest := hheld
  rw [step, hm, makeMove, portMove, hpop]

/-! An action made (R84). -/

theorem make_held {a : HostAction} {s : State} (ha : a.isRegRead = false) (h : s.busy = true ∨ s.held ≠ []) :
    make a s = .next { s with held := s.held ++ [a] } := by
  rcases h with h | h <;> simp [make, ha, h]

theorem make_idle {a : HostAction} {s : State} (hb : s.busy = false) (hheld : s.held = []) :
    make a s = perform a s := by
  simp [make, hb, hheld]

end Sys2Proof.Machine

namespace Sys2Proof.Proofs

open Sys2Proof Sys2Proof.Machine

/-- Settles O46: in each clause, who moves, and then what that move does. -/
theorem holdRule : Obligations.HoldRule := by
  refine ⟨fun s a rest hb hs hturn ha => ?_, fun s reg rest hfree hs hturn => ?_,
    fun s a rest hinv hb hheld hturn => ?_, fun s a rest hb hheld hs hturn => ?_,
    fun s a ha hheld => make_held ha (.inr hheld), fun s rest hs hturn => ⟨fun hfree hread => ?_, fun hread hm => ?_⟩⟩
  · have hm := nextMove_host hturn (hostReady_act hs (portReady_false (.inl hb)))
    exact (step_act hm hs).trans (make_held ha (.inl hb))
  · have hm := nextMove_host hturn (hostReady_act hs (portReady_false hfree))
    exact (step_act hm hs).trans (by cases reg <;> rfl)
  · have hp := portReady_true hb hheld
    exact step_port (nextMove_port (hinv.engineReady_false hb) hp fun h => hostReady_of_portReady hp (hturn h)) hheld
  · have hp := portReady_false (.inr hheld)
    have hr := hostReady_act hs hp
    have hm := hturn.elim (nextMove_host · hr) fun hinv => nextMove_host_of_idle (hinv.engineReady_false hb) hp hr
    exact (step_act hm hs).trans (make_idle hb hheld)
  · have hr : hostReady s = true := by simp [hostReady_await hs, portReady_false hfree, awaiting, hread]
    exact step_await (nextMove_host hturn hr) hs
  · have hr := hostReady_of_nextMove hm
    simp [hostReady_await hs, awaiting, hread] at hr

/-- Settles O47: while the engine is busy an action made is held, unless it is a register read. -/
theorem hostCannotDisturbARunningCommand : Obligations.HostCannotDisturbARunningCommand := by
  intro s t hb hm hreset hstep
  rw [step_host hm] at hstep
  rcases hostMove_cases hstep with ⟨-, rfl⟩ | ⟨rest, hs, -⟩ | ⟨a, rest, -, hmake⟩ | ⟨rest, -, rfl⟩
  · exact ⟨rfl, fun _ => .inl⟩
  · rw [popTurn_script] at hs
    simp [hs] at hreset
  · rcases make_cases hmake with ⟨-, -, rfl⟩ | ⟨ha | ⟨hidle, -⟩, hp⟩
    · exact ⟨rfl, fun _ => .inl⟩
    · obtain ⟨v, hv⟩ := perform_regRead ha _
      rw [hv] at hp
      cases hp
      refine ⟨rfl, fun rep hrep => ?_⟩
      rcases List.mem_append.1 hrep with hold | hnew
      · exact .inl hold
      · exact .inr (by rw [List.mem_singleton.1 hnew]; exact ha)
    · cases hb.symm.trans hidle
  · exact ⟨rfl, fun _ => .inl⟩

end Sys2Proof.Proofs
end

section
/-! SUPPORT. The fields of a command word (R100 to R103): their numbers, the word as the fields in a row, and the word
under a mask. -/

namespace Sys2Proof

open Sys2Proof.Machine

/-! Each field of a word, in numbers. -/

theorem toNat_fieldOp (c : Word) : (fieldOp c).toNat = c.toNat % 2 ^ 4 := by
  simp [fieldOp]

theorem toNat_fieldZ1 (c : Word) : (fieldZ1 c).toNat = c.toNat / 2 ^ 4 % 2 ^ 4 := by
  simp [fieldZ1, Nat.shiftRight_eq_div_pow]

theorem fieldA_eq_ofNat (c : Word) : fieldA c = BitVec.ofNat 8 (c.toNat / 2 ^ 8) := by
  simp [fieldA, BitVec.extractLsb', Nat.shiftRight_eq_div_pow]

theorem fieldB_eq_ofNat (c : Word) : fieldB c = BitVec.ofNat 8 (c.toNat / 2 ^ 16) := by
  simp [fieldB, BitVec.extractLsb', Nat.shiftRight_eq_div_pow]

theorem toNat_fieldZ2 (c : Word) : (fieldZ2 c).toNat = c.toNat / 2 ^ 16 := by
  have := c.isLt
  simp only [fieldZ2, BitVec.extractLsb'_toNat, Nat.shiftRight_eq_div_pow]
  omega

theorem toNat_fieldZ3 (c : Word) : (fieldZ3 c).toNat = c.toNat / 2 ^ 24 := by
  have := c.isLt
  simp only [fieldZ3, BitVec.extractLsb'_toNat, Nat.shiftRight_eq_div_pow]
  omega

/-! Each field of a word under a mask. -/

theorem fieldOp_and (c m : Word) : fieldOp (c &&& m) = fieldOp c &&& fieldOp m := BitVec.extractLsb'_and
theorem fieldZ1_and (c m : Word) : fieldZ1 (c &&& m) = fieldZ1 c &&& fieldZ1 m := BitVec.extractLsb'_and
theorem fieldA_and (c m : Word) : fieldA (c &&& m) = fieldA c &&& fieldA m := BitVec.extractLsb'_and
theorem fieldB_and (c m : Word) : fieldB (c &&& m) = fieldB c &&& fieldB m := BitVec.extractLsb'_and
theorem fieldZ2_and (c m : Word) : fieldZ2 (c &&& m) = fieldZ2 c &&& fieldZ2 m := BitVec.extractLsb'_and
theorem fieldZ3_and (c m : Word) : fieldZ3 (c &&& m) = fieldZ3 c &&& fieldZ3 m := BitVec.extractLsb'_and

/-! The fields of a format partition the word (R101). -/

theorem eq_appendF_iff {c : Word} {z2 : BitVec 16} {a : BitVec 8} {z1 op : BitVec 4} :
    c = z2 ++ a ++ z1 ++ op ↔ fieldOp c = op ∧ fieldZ1 c = z1 ∧ fieldA c = a ∧ fieldZ2 c = z2 := by
  have := c.isLt; have := a.isLt; have := z1.isLt; have := op.isLt
  simp only [← BitVec.toNat_inj, toNat_append_eq_add, toNat_fieldOp, toNat_fieldZ1, toNat_fieldZ2, fieldA_eq_ofNat,
    BitVec.toNat_ofNat]
  omega

theorem eq_appendX_iff {c : Word} {z3 b a : BitVec 8} {z1 op : BitVec 4} :
    c = z3 ++ b ++ a ++ z1 ++ op ↔
      fieldOp c = op ∧ fieldZ1 c = z1 ∧ fieldA c = a ∧ fieldB c = b ∧ fieldZ3 c = z3 := by
  have := c.isLt; have := b.isLt; have := a.isLt; have := z1.isLt; have := op.isLt
  simp only [← BitVec.toNat_inj, toNat_append_eq_add, toNat_fieldOp, toNat_fieldZ1, toNat_fieldZ3, fieldA_eq_ofNat,
    fieldB_eq_ofNat, BitVec.toNat_ofNat]
  omega

/-- An operand is the sign-extended field exactly when it fits and the field holds its low 8 bits (R103). -/
theorem eq_sext8_iff {v : Int} {x : BitVec 8} : v = sext8 x ↔ operandFits v ∧ x = BitVec.ofInt 8 v := by
  constructor
  · rintro rfl
    exact ⟨sext8_fits x, BitVec.ofInt_toInt.symm⟩
  · rintro ⟨⟨hlo, hhi⟩, rfl⟩
    exact (BitVec.toInt_ofInt_eq_self (by decide) hlo (Int.lt_add_one_of_le hhi)).symm

end Sys2Proof
end

section
/-! SUPPORT. The words of the two formats (R101), and each word of a format as its encoding, as its bits under the mask,
and in numbers. -/

namespace Sys2Proof

open Sys2Proof.Machine

/-- `c` is the format F word with the opcode `op` and the operand `a` (R101, R103). -/
def FormatF (op : BitVec 4) (a : Int) (c : Word) : Prop :=
  fieldOp c = op ∧ fieldZ1 c = 0 ∧ fieldZ2 c = 0 ∧ a = sext8 (fieldA c)

/-- `c` is the format X word with the opcode `op` and the operands `a` and `b` (R101, R103). -/
def FormatX (op : BitVec 4) (a b : Int) (c : Word) : Prop :=
  fieldOp c = op ∧ fieldZ1 c = 0 ∧ fieldZ3 c = 0 ∧ a = sext8 (fieldA c) ∧ b = sext8 (fieldB c)

variable {op : BitVec 4} {a b : Int} {c : Word}

theorem formatF_iff_encodeF : FormatF op a c ↔ operandFits a ∧ encodeF op a = c := by
  rw [FormatF, eq_sext8_iff, encodeF, eq_comm (b := c), eq_appendF_iff]
  tauto

theorem formatX_iff_encodeX : FormatX op a b c ↔ (operandFits a ∧ operandFits b) ∧ encodeX op a b = c := by
  rw [FormatX, eq_sext8_iff, eq_sext8_iff, encodeX, eq_comm (b := c), eq_appendX_iff]
  tauto

/-- The mask keeps all but the operand field; the match is the word whose operand field is 0 (R106). -/
theorem formatF_iff_mask : FormatF op a c ↔
    c &&& 0xFFFF00FF = encodeF op 0 ∧ a = (BitVec.ofNat 8 (c.toNat / 2 ^ 8)).toInt := by
  have hmask : (0xFFFF00FF : Word) = BitVec.allOnes 16 ++ 0#8 ++ BitVec.allOnes 4 ++ BitVec.allOnes 4 := rfl
  obtain ⟨hop, hz1, ha, hz2⟩ := eq_appendF_iff.1 hmask
  rw [encodeF, eq_appendF_iff, fieldOp_and, fieldZ1_and, fieldA_and, fieldZ2_and, hop, hz1, ha, hz2, ← fieldA_eq_ofNat]
  simp only [FormatF, sext8, BitVec.and_allOnes]
  simp [and_assoc]

theorem formatX_iff_mask : FormatX op a b c ↔
    c &&& 0xFF0000FF = encodeX op 0 0 ∧ a = (BitVec.ofNat 8 (c.toNat / 2 ^ 8)).toInt ∧
      b = (BitVec.ofNat 8 (c.toNat / 2 ^ 16)).toInt := by
  have hmask : (0xFF0000FF : Word) = BitVec.allOnes 8 ++ 0#8 ++ 0#8 ++ BitVec.allOnes 4 ++ BitVec.allOnes 4 := rfl
  obtain ⟨hop, hz1, ha, hb, hz3⟩ := eq_appendX_iff.1 hmask
  rw [encodeX, eq_appendX_iff, fieldOp_and, fieldZ1_and, fieldA_and, fieldB_and, fieldZ3_and, hop, hz1, ha, hb, hz3,
    ← fieldA_eq_ofNat, ← fieldB_eq_ofNat]
  simp only [FormatX, sext8, BitVec.and_allOnes]
  simp [and_assoc]

theorem formatF_iff_toNat : FormatF op a c ↔
    c.toNat % 2 ^ 4 = op.toNat ∧ c.toNat / 2 ^ 4 % 2 ^ 4 = 0 ∧ c.toNat / 2 ^ 16 = 0 ∧
      a = (BitVec.ofNat 8 (c.toNat / 2 ^ 8)).toInt := by
  rw [← toNat_fieldOp, ← toNat_fieldZ1, ← toNat_fieldZ2, ← fieldA_eq_ofNat]
  simp [FormatF, sext8, BitVec.toNat_eq]

theorem formatX_iff_toNat : FormatX op a b c ↔
    c.toNat % 2 ^ 4 = op.toNat ∧ c.toNat / 2 ^ 4 % 2 ^ 4 = 0 ∧ c.toNat / 2 ^ 24 = 0 ∧
      a = (BitVec.ofNat 8 (c.toNat / 2 ^ 8)).toInt ∧ b = (BitVec.ofNat 8 (c.toNat / 2 ^ 16)).toInt := by
  rw [← toNat_fieldOp, ← toNat_fieldZ1, ← toNat_fieldZ3, ← fieldA_eq_ofNat, ← fieldB_eq_ofNat]
  simp [FormatX, sext8, BitVec.toNat_eq]

theorem toNat_encodeF (op : BitVec 4) (a : Int) :
    (encodeF op a).toNat = (a % 256).toNat * 2 ^ 8 + op.toNat := by
  simp only [encodeF, toNat_append_eq_add, BitVec.toNat_ofInt, BitVec.toNat_ofNat]
  omega

theorem toNat_encodeX (op : BitVec 4) (a b : Int) :
    (encodeX op a b).toNat = (b % 256).toNat * 2 ^ 16 + (a % 256).toNat * 2 ^ 8 + op.toNat := by
  simp only [encodeX, toNat_append_eq_add, BitVec.toNat_ofInt, BitVec.toNat_ofNat]
  omega

end Sys2Proof
end

section
/-! SUPPORT. The decoder, said once: the words it reads as a given instruction, and the illegal words (R106 to R108). -/

namespace Sys2Proof

open Sys2Proof.Machine

/-- `c` is the word of the instruction: of its format, with its opcode and its operands (R101, R106). -/
def Instr.IsWord (c : Word) : Instr → Prop
  | .ext1d margin          => FormatF 0x1 margin c
  | .ext2d hMargin vMargin => FormatX 0x2 hMargin vMargin c
  | .fnaive radius         => FormatF 0x4 radius c
  | .fsep radius           => FormatF 0x5 radius c
  | .fvec radius           => FormatF 0x6 radius c

/-- An instruction has a word exactly when its operands fit, and then only its encoding (R103, R107). -/
theorem isWord_iff_encode {i : Instr} {c : Word} : i.IsWord c ↔ i.WellFormed ∧ encode i = c := by
  cases i with
  | ext1d margin          => exact formatF_iff_encodeF
  | ext2d hMargin vMargin => exact formatX_iff_encodeX
  | fnaive radius         => exact formatF_iff_encodeF
  | fsep radius           => exact formatF_iff_encodeF
  | fvec radius           => exact formatF_iff_encodeF

theorem formatF_of_decodeF {op : BitVec 4} {c : Word} {command : Int → Instr} {i : Instr} (hop : fieldOp c = op)
    (h : decodeF c command = .ok i) : ∃ a, command a = i ∧ FormatF op a c := by
  have hi := decodeF_ok h
  unfold decodeF at h
  split at h
  · cases h
  next hz2 =>
    split at h
    · cases h
    next hz1 => exact ⟨_, hi.symm, hop, not_not.1 hz1, not_not.1 hz2, rfl⟩

theorem formatX_of_decodeX {op : BitVec 4} {c : Word} {command : Int → Int → Instr} {i : Instr} (hop : fieldOp c = op)
    (h : decodeX c command = .ok i) : ∃ a b, command a b = i ∧ FormatX op a b c := by
  have hi := decodeX_ok h
  unfold decodeX at h
  split at h
  · cases h
  next hz3 =>
    split at h
    · cases h
    next hz1 => exact ⟨_, _, hi.symm, hop, not_not.1 hz1, not_not.1 hz3, rfl, rfl⟩

theorem decodeF_of_formatF {op : BitVec 4} {a : Int} {c : Word} (h : FormatF op a c) (command : Int → Instr) :
    decodeF c command = .ok (command a) := by
  obtain ⟨-, hz1, hz2, rfl⟩ := h
  simp [decodeF, hz1, hz2]

theorem decodeX_of_formatX {op : BitVec 4} {a b : Int} {c : Word} (h : FormatX op a b c)
    (command : Int → Int → Instr) : decodeX c command = .ok (command a b) := by
  obtain ⟨-, hz1, hz3, rfl, rfl⟩ := h
  simp [decodeX, hz1, hz3]

theorem isWord_of_decode {c : Word} {i : Instr} (h : decode c = .ok i) : i.IsWord c := by
  unfold decode at h
  split at h
  · obtain ⟨a, rfl, hw⟩ := formatF_of_decodeF ‹_› h; exact hw
  split at h
  · obtain ⟨a, b, rfl, hw⟩ := formatX_of_decodeX ‹_› h; exact hw
  split at h
  · obtain ⟨a, rfl, hw⟩ := formatF_of_decodeF ‹_› h; exact hw
  split at h
  · obtain ⟨a, rfl, hw⟩ := formatF_of_decodeF ‹_› h; exact hw
  split at h
  · obtain ⟨a, rfl, hw⟩ := formatF_of_decodeF ‹_› h; exact hw
  · cases h

theorem decode_of_isWord {c : Word} {i : Instr} (h : i.IsWord c) : decode c = .ok i := by
  cases i with
  | ext1d margin          => simp [decode, h.1, decodeF_of_formatF h]
  | ext2d hMargin vMargin => simp [decode, h.1, decodeX_of_formatX h]
  | fnaive radius         => simp [decode, h.1, decodeF_of_formatF h]
  | fsep radius           => simp [decode, h.1, decodeF_of_formatF h]
  | fvec radius           => simp [decode, h.1, decodeF_of_formatF h]

/-- The decoder reads exactly the instruction's own words as it (R107). -/
theorem decode_eq_ok_iff {c : Word} {i : Instr} : decode c = .ok i ↔ i.IsWord c :=
  ⟨isWord_of_decode, decode_of_isWord⟩

/-- The legal words, in numbers. -/
theorem exists_decode_ok_iff (c : Word) : (∃ i, decode c = .ok i) ↔
    c.toNat / 2 ^ 4 % 2 ^ 4 = 0 ∧
      (c.toNat % 2 ^ 4 = 2 ∧ c.toNat / 2 ^ 24 = 0 ∨ c.toNat % 2 ^ 4 ∈ [1, 4, 5, 6] ∧ c.toNat / 2 ^ 16 = 0) := by
  simp only [decode_eq_ok_iff, List.mem_cons, List.not_mem_nil, or_false]
  constructor
  · rintro ⟨i, h⟩
    cases i with
    | ext2d hMargin vMargin =>
      obtain ⟨hop, hz1, hz3, -, -⟩ := formatX_iff_toNat.1 h
      exact ⟨hz1, .inl ⟨hop, hz3⟩⟩
    | ext1d _ | fnaive _ | fsep _ | fvec _ =>
      obtain ⟨hop, hz1, hz2, -⟩ := formatF_iff_toNat.1 h
      exact ⟨hz1, .inr ⟨by rw [hop]; decide, hz2⟩⟩
  · rintro ⟨hz1, ⟨hop, hz3⟩ | ⟨hop | hop | hop | hop, hz2⟩⟩
    · exact ⟨.ext2d _ _, formatX_iff_toNat.2 ⟨hop, hz1, hz3, rfl, rfl⟩⟩
    · exact ⟨.ext1d _, formatF_iff_toNat.2 ⟨hop, hz1, hz2, rfl⟩⟩
    · exact ⟨.fnaive _, formatF_iff_toNat.2 ⟨hop, hz1, hz2, rfl⟩⟩
    · exact ⟨.fsep _, formatF_iff_toNat.2 ⟨hop, hz1, hz2, rfl⟩⟩
    · exact ⟨.fvec _, formatF_iff_toNat.2 ⟨hop, hz1, hz2, rfl⟩⟩

theorem decode_error_iff_not_ok (c : Word) : (∃ e, decode c = .error e) ↔ ¬ ∃ i, decode c = .ok i := by
  cases decode c <;> simp

/-- The illegal words, in numbers (R108). -/
theorem exists_decode_error_iff (c : Word) : (∃ e, decode c = .error e) ↔
    (c.toNat % 2 ^ 4 ∉ [1, 2, 4, 5, 6] ∨
      c.toNat % 2 ^ 4 = 2 ∧ (c.toNat / 2 ^ 24 ≠ 0 ∨ c.toNat / 2 ^ 4 % 2 ^ 4 ≠ 0) ∨
      c.toNat % 2 ^ 4 ∈ [1, 4, 5, 6] ∧ (c.toNat / 2 ^ 16 ≠ 0 ∨ c.toNat / 2 ^ 4 % 2 ^ 4 ≠ 0)) := by
  rw [decode_error_iff_not_ok, exists_decode_ok_iff]
  simp only [List.mem_cons, List.not_mem_nil, or_false]
  omega

end Sys2Proof

namespace Sys2Proof.Machine

/-- The step of an issued command is the engine's, over the whole command (log entry 11). -/
theorem step_issued (c : Word) (s : State) : step (issued c s) = engineCommand (accept c s) := rfl

/-- An illegal word ends at once with `IllegalCommand` (R244). -/
theorem engineCommand_illegal {s : State} {e : DecodeError} (h : decode s.cmd = .error e) :
    engineCommand s = .next (raiseErr .illegalCommand s) := by
  rcases engineCommand_cases s with ⟨-, heq⟩ | ⟨i, hi, -⟩
  · exact heq
  · rw [h] at hi
    cases hi

end Sys2Proof.Machine
end

section
/-! The statements about the encoding (spec/30_encoding.md). -/

namespace Sys2Proof.Proofs

open Sys2Proof Sys2Proof.Machine

/-- Settles O1: the encoding of a well-formed instruction is a word of its format with its opcode and operands, which
the decoder reads back. -/
theorem decodeEncodeRoundTrip : Obligations.DecodeEncodeRoundTrip :=
  fun _ hwf => decode_eq_ok_iff.2 (isWord_iff_encode.2 ⟨hwf, rfl⟩)

/-- Settles O2: the fields of a format partition the word, so its word is the encoding. -/
theorem encodeDecodeRoundTrip : Obligations.EncodeDecodeRoundTrip :=
  fun _ _ h => isWord_iff_encode.1 (decode_eq_ok_iff.1 h)

/-- Settles O3: legal words by the numbers of their format, illegal words by R108, encodings field by field. -/
theorem decodeAndEncodeInNumbers : Obligations.DecodeAndEncodeInNumbers := by
  refine ⟨fun c => ⟨fun hop hz2 hz1 => ?_, fun hop hz2 hz1 => ?_, fun hop hz2 hz1 => ?_, fun hop hz2 hz1 => ?_,
    fun hop hz3 hz1 => ?_, fun hop hz => ?_, fun hop hz => ?_, fun hop => ?_⟩, fun v w _ _ => ?_⟩
  · exact decode_of_isWord (formatF_iff_toNat.2 ⟨hop, hz1, hz2, rfl⟩)
  · exact decode_of_isWord (formatF_iff_toNat.2 ⟨hop, hz1, hz2, rfl⟩)
  · exact decode_of_isWord (formatF_iff_toNat.2 ⟨hop, hz1, hz2, rfl⟩)
  · exact decode_of_isWord (formatF_iff_toNat.2 ⟨hop, hz1, hz2, rfl⟩)
  · exact decode_of_isWord (formatX_iff_toNat.2 ⟨hop, hz1, hz3, rfl, rfl⟩)
  · exact (exists_decode_error_iff c).2 (.inr (.inr ⟨hop, hz⟩))
  · exact (exists_decode_error_iff c).2 (.inr (.inl ⟨hop, hz⟩))
  · exact (exists_decode_error_iff c).2 (.inl hop)
  · exact ⟨toNat_encodeF 0x1 v, toNat_encodeX 0x2 v w, toNat_encodeF 0x4 v, toNat_encodeF 0x5 v, toNat_encodeF 0x6 v⟩

/-- Settles O4: a word is of a format and an opcode exactly when its bits under the mask are the match. -/
theorem opcodeMapMatchAndMask : Obligations.OpcodeMapMatchAndMask :=
  fun _ _ _ => ⟨decode_eq_ok_iff.trans formatF_iff_mask, decode_eq_ok_iff.trans formatX_iff_mask,
    decode_eq_ok_iff.trans formatF_iff_mask, decode_eq_ok_iff.trans formatF_iff_mask,
    decode_eq_ok_iff.trans formatF_iff_mask⟩

/-- Settles O5: the illegal words in numbers, and the engine's move on one; word 0 is one of them, and the reset state
has no command in progress. -/
theorem illegalWordsEndWithIllegalCommand : Obligations.IllegalWordsEndWithIllegalCommand := by
  have hend (c : Word) (e : DecodeError) (s : State) (h : decode c = .error e) :
      step (issued c s) = .next { s with cmd := c, status := 0x56, seq := { phase := .idle, y := 0 } } :=
    (step_issued c s).trans (engineCommand_illegal (s := accept c s) h)
  exact ⟨exists_decode_error_iff, hend, fun s => hend 0 .reservedOpcode s (by decide), rfl⟩

/-- Settles O6: seven closed instances of the decoder. -/
theorem writtenOutWordsDecode : Obligations.WrittenOutWordsDecode := by
  unfold Obligations.WrittenOutWordsDecode
  decide

end Sys2Proof.Proofs
end

section
/-! SUPPORT. The two functions of the BorderExtender on sequences and grids of any kind of element (R131 to R135). -/

namespace Sys2Proof.Machine

section Functions

variable {α : Type}

/-- `extend1D` inside its domain: the length of the result, and its elements by clamp (R131). -/
theorem extend1D_ok {seq : List α} {m : Int} (hm : 0 ≤ m) (h : seq ≠ []) :
    ∃ out, extend1D seq m = .ok out ∧ out.length = seq.length + 2 * m.toNat ∧
      ∀ e, e < seq.length + 2 * m.toNat → out[e]? = seq[clampIndex ((e : Int) - m) seq.length]? := by
  lift m to Nat using hm
  have hn : seq.length ≠ 0 := by simpa using h
  have hmap := extend1D_map_range (fun k => seq.getD k (seq.head h)) m hn
  have hseq : (List.range seq.length).map (fun k => seq.getD k (seq.head h)) = seq :=
    List.ext_getElem (by simp) fun k hk hk' => by simp [hk']
  rw [hseq] at hmap
  refine ⟨_, hmap, by simp, fun e he => ?_⟩
  have hin := clampIndex_lt ((e : Int) - m) hn
  simp only [Int.toNat_natCast] at he
  simp [he, hin]

/-- Outside its domain `extend1D` fails, and always with `InvalidInput` (R132). -/
theorem extend1D_error_iff {seq : List α} {m : Int} {kind : ErrKind} :
    extend1D seq m = .error kind ↔ kind = .invalidInput ∧ (m < 0 ∨ seq = []) := by
  unfold extend1D
  split
  · simp [*, eq_comm]
  · cases seq <;> simp [*, eq_comm]

/-- The rows of a grid are extended one by one (R134). -/
theorem forall₂_of_extendRows {m : Int} {grid outs : List (List α)} (h : extendRows m grid = .ok outs) :
    List.Forall₂ (fun row out => extend1D row m = .ok out) grid outs := by
  induction grid generalizing outs with
  | nil =>
    cases h
    exact .nil
  | cons row rows ih =>
    cases hrow : extend1D row m with
    | error kind => simp [extendRows, hrow] at h
    | ok out =>
      cases hrows : extendRows m rows with
      | error kind => simp [extendRows, hrow, hrows] at h
      | ok outs' =>
        simp only [extendRows, hrow, hrows, Except.ok.injEq] at h
        exact h ▸ .cons hrow (ih hrows)

/-- The rows of a grid cannot all be extended exactly when one of them cannot (R135). -/
theorem extendRows_error_iff {m : Int} {grid : List (List α)} {kind : ErrKind} :
    extendRows m grid = .error kind ↔ kind = .invalidInput ∧ ∃ row ∈ grid, m < 0 ∨ row = [] := by
  induction grid with
  | nil => simp [extendRows]
  | cons row rows ih =>
    cases hrow : extend1D row m with
    | error kind' =>
      obtain ⟨rfl, hbad⟩ := extend1D_error_iff.1 hrow
      simp [extendRows, hrow, hbad, eq_comm]
    | ok out =>
      have hgood : ¬ (m < 0 ∨ row = []) := fun hbad =>
        nomatch hrow.symm.trans (extend1D_error_iff.2 ⟨rfl, hbad⟩)
      rw [List.exists_mem_cons_iff, or_iff_right hgood, ← ih]
      cases hrows : extendRows m rows <;> simp [extendRows, hrow, hrows]

/-- `extend2D` inside its domain: the number of rows, and each of them (R134). -/
theorem extend2D_ok {grid : List (List α)} {hm vm : Int} (hhm : 0 ≤ hm) (hvm : 0 ≤ vm) (hgrid : grid ≠ [])
    (hrows : ∀ row ∈ grid, row ≠ []) :
    ∃ out, extend2D grid hm vm = .ok out ∧ out.length = grid.length + 2 * vm.toNat ∧
      ∀ j, j < grid.length + 2 * vm.toNat →
        ∃ row ext, grid[clampIndex ((j : Int) - vm) grid.length]? = some row ∧ extend1D row hm = .ok ext ∧
          out[j]? = some ext := by
  cases hext : extendRows hm grid with
  | error kind =>
    obtain ⟨-, row, hmem, hbad⟩ := extendRows_error_iff.1 hext
    exact (hbad.elim (by omega) (hrows row hmem)).elim
  | ok rows =>
    have hall := forall₂_of_extendRows hext
    have hlen := hall.length_eq
    have hne : rows ≠ [] := fun h => hgrid (List.length_eq_zero_iff.1 (by simp [hlen, h]))
    obtain ⟨out, hout, houtLen, helem⟩ := extend1D_ok hvm hne
    rw [← hlen] at houtLen helem
    refine ⟨out, by simp [extend2D, hext, hout], houtLen, fun j hj => ?_⟩
    have hin := clampIndex_lt ((j : Int) - vm) (n := grid.length) (by simpa using hgrid)
    refine ⟨_, _, List.getElem?_eq_getElem hin, hall.get hin (hlen ▸ hin), ?_⟩
    rw [helem j hj]
    exact List.getElem?_eq_getElem (hlen ▸ hin)

/-- The domain of `extend2D` (R135). -/
theorem extend2D_error_iff {grid : List (List α)} {hm vm : Int} :
    extend2D grid hm vm = .error .invalidInput ↔ grid = [] ∨ vm < 0 ∨ hm < 0 ∨ ∃ row ∈ grid, row = [] := by
  cases hext : extendRows hm grid with
  | error kind =>
    obtain ⟨rfl, row, hmem, hbad⟩ := extendRows_error_iff.1 hext
    simp only [extend2D, hext, true_iff]
    exact .inr (.inr (hbad.imp_right fun h => ⟨row, hmem, h⟩))
  | ok rows =>
    have hnil : rows = [] ↔ grid = [] := by
      rw [← List.length_eq_zero_iff, ← (forall₂_of_extendRows hext).length_eq, List.length_eq_zero_iff]
    have hgood : ¬ ∃ row ∈ grid, hm < 0 ∨ row = [] := fun hbad =>
      nomatch hext.symm.trans (extendRows_error_iff.2 ⟨rfl, hbad⟩)
    simp only [extend2D, hext, extend1D_error_iff, true_and, hnil]
    constructor
    · exact fun h => h.elim (.inr ∘ .inl) .inl
    · rintro (h | h | h | ⟨row, hmem, h⟩)
      · exact .inr h
      · exact .inl h
      · exact .inr (List.eq_nil_iff_forall_not_mem.2 fun row hmem => hgood ⟨row, hmem, .inl h⟩)
      · exact absurd ⟨row, hmem, .inr h⟩ hgood

end Functions

end Sys2Proof.Machine

namespace Sys2Proof.Proofs

open Sys2Proof Sys2Proof.Machine

/-- Settles O17: the parts are the clamp form, read by its three ranges. -/
theorem extend1dOfASequence : Obligations.Extend1dOfASequence := by
  intro α seq m
  refine ⟨fun hm h => ?_, fun h => extend1D_error_iff.2 ⟨rfl, h⟩⟩
  lift m to Nat using hm
  have hn : seq.length ≠ 0 := by simpa using h
  obtain ⟨out, hout, hlen, hclamp⟩ := extend1D_ok (Int.natCast_nonneg m) h
  simp only [Int.toNat_natCast] at hlen hclamp ⊢
  refine ⟨out, hout, hlen, fun e he => ?_, fun k hk => ?_, fun e he he' => ?_, hclamp⟩
  · rw [hclamp e (by omega), clampIndex_sub, if_pos he, List.head?_eq_getElem?]
  · rw [hclamp _ (by omega), clampIndex_sub, if_neg (by omega), if_pos (by omega), Nat.add_sub_cancel_left]
  · rw [hclamp e he', clampIndex_sub, if_neg (by omega), if_neg (by omega), List.getLast?_eq_getElem?]

/-- Settles O18: every row extended, then the sequence of rows; each failure is a failure of one `extend1D`. -/
theorem extend2dOfAGrid : Obligations.Extend2dOfAGrid := by
  intro α grid hm vm
  refine ⟨fun hhm hvm hgrid hrows => ?_, extend2D_error_iff⟩
  obtain ⟨out, hout, hlen, helem⟩ := extend2D_ok hhm hvm hgrid hrows
  refine ⟨out, hout, hlen, fun j hj => ?_⟩
  obtain ⟨row, ext, hrow, hext, hj⟩ := helem j hj
  obtain ⟨ext', hext', hextLen, hextElem⟩ := extend1D_ok hhm (hrows row (List.mem_of_getElem? hrow))
  obtain rfl : ext = ext' := Except.ok.inj (hext.symm.trans hext')
  exact ⟨row, ext, hrow, hext, hj, hextLen, hextElem⟩

end Sys2Proof.Proofs
end

section
/-! SUPPORT. What the commands of the BorderExtender leave: extended rows of the source grid in `EXT`, their lengths in
`ELEN`, the registers, and the rest of the state as it was (R137, R138). -/

namespace Sys2Proof.Machine

theorem clampIndex_eq_copiedFrom (m n e : Nat) :
    clampIndex ((e : Int) - m) n = copiedFrom m n e := clampIndex_sub e m n

theorem key_zero_add (y x : Nat) : key y 0 + x = key y x := by rw [← key_add, Nat.zero_add]

/-- The first `n` rows of `EXT` and entries of `ELEN` of `t` are the rows `row 0`, `row 1`, … of the source grid of `s`,
each extended by `m`, and their lengths; everything else in the two stores is as in `s`. -/
structure RowsExtended (s : State) (row : Nat → Nat) (m n : Nat) (t : State) : Prop where
  elements : ∀ j e, j < n → e < slenAt s (row j) + 2 * m →
    t.ext.read (key j e) = some (zext16 (srcAt s (row j) (copiedFrom m (slenAt s (row j)) e)))
  extFrame : ∀ a, (∀ j e, j < n → e < slenAt s (row j) + 2 * m → a ≠ key j e) → t.ext.read a = s.ext.read a
  lengths : ∀ j, j < n → t.elen.read j = some (BitVec.ofNat 17 (slenAt s (row j) + 2 * m))
  elenFrame : ∀ a, n ≤ a → t.elen.read a = s.elen.read a

section Rows

variable {s t : State} {row : Nat → Nat} {m n : Nat}

/-- An extended row is shorter than the pitch of the rows of `EXT`, for a margin a command can carry (R14, R15). -/
theorem extendedLength_lt_rowPitch (s : State) (y : Nat) (hm : m ≤ 127) :
    slenAt s y + 2 * m < rowPitch := by
  have := slenAt_lt_max s y
  rw [rowPitch_eq]
  omega

theorem RowsExtended.zero (hext : t.ext = s.ext) (helen : t.elen = s.elen) : RowsExtended s row m 0 t where
  elements _ _ hj := absurd hj (Nat.not_lt_zero _)
  extFrame _ _ := by rw [hext]
  lengths _ hj := absurd hj (Nat.not_lt_zero _)
  elenFrame _ _ := by rw [helen]

/-- One more row, from a state with the same source grid. -/
theorem RowsExtended.extendInto (h : RowsExtended s row m n t) (hsrc : ∀ y x, srcAt t y x = srcAt s y x)
    (hslen : ∀ y, slenAt t y = slenAt s y) (hm : m ≤ 127) :
    RowsExtended s row m (n + 1) (extendInto n (row n) m t) := by
  have hpitch (j : Nat) : slenAt s (row j) + 2 * m < rowPitch := extendedLength_lt_rowPitch s (row j) hm
  have hlen : (extendedRow t (row n) m (slenAt t (row n))).length = slenAt s (row n) + 2 * m := by simp [hslen]
  refine ⟨fun j e hj he => ?_, fun a ha => ?_, fun j hj => ?_, fun a ha => ?_⟩
  · rcases Nat.lt_succ_iff_lt_or_eq.1 hj with hj | rfl
    · refine (Mem.read_writeRow_out _ _ _ fun k hk => ?_).trans (h.elements j e hj he)
      rw [hlen] at hk
      rw [key_zero_add, Ne, key_inj (he.trans (hpitch j)) (hk.trans (hpitch n))]
      omega
    · rw [← key_zero_add]
      refine (Mem.read_writeRow_in _ _ _ (hlen.symm ▸ he)).trans ?_
      rw [extendedRow_getElem, hsrc, hslen, clampIndex_eq_copiedFrom]
  · refine (Mem.read_writeRow_out _ _ _ fun k hk => ?_).trans (h.extFrame a fun j e hj he => ha j e (by omega) he)
    rw [key_zero_add]
    exact ha n k (Nat.lt_succ_self n) (hlen ▸ hk)
  · rcases Nat.lt_succ_iff_lt_or_eq.1 hj with hj | rfl
    · exact (Mem.read_write_other _ _ (by omega)).trans (h.lengths j hj)
    · rw [← hslen]
      exact Mem.read_write_same _ _ _
  · exact (Mem.read_write_other _ _ (by omega)).trans (h.elenFrame a (by omega))

theorem RowsExtended.extAt_toNat (h : RowsExtended s row m n t) {j e : Nat} (hj : j < n)
    (he : e < slenAt s (row j) + 2 * m) :
    (extAt t j e).toNat = (srcAt s (row j) (copiedFrom m (slenAt s (row j)) e)).toNat := by
  rw [extAt, readElem_some (h.elements j e hj he), zext16_toNat]

theorem RowsExtended.elenAt_eq (h : RowsExtended s row m n t) (hm : m ≤ 127) {j : Nat} (hj : j < n) :
    elenAt t j = slenAt s (row j) + 2 * m := by
  have hlt := extendedLength_lt_rowPitch s (row j) hm
  rw [rowPitch_eq] at hlt
  simp only [elenAt, h.lengths j hj, BitVec.toNat_ofNat]
  exact Nat.mod_eq_of_lt hlt

/-- A result register holds the length of a row without loss (R45). -/
theorem RowsExtended.outW_toNat (h : RowsExtended s row m n t) (hm : m ≤ 127) (hn : 0 < n)
    (hout : t.outW = BitVec.ofNat 32 (elenAt t 0)) : t.outW.toNat = elenAt t 0 := by
  have hlt : elenAt t 0 < rowPitch := h.elenAt_eq hm hn ▸ extendedLength_lt_rowPitch s (row 0) hm
  rw [hout, BitVec.toNat_ofNat, Nat.mod_eq_of_lt (hlt.trans (by decide))]

end Rows

section Run

variable {i : Instr} {s : State} {l : Latch}

/-- A command whose validation fails is the error end (R250). -/
theorem exec_error {kind : ErrKind} (hc : (bodyOf i).check s = .error kind) : exec i s = .next (raiseErr kind s) := by
  rw [exec_eq, runBody_error hc]

/-- A command that passes validation leaves its operands latched (R53). -/
theorem runBody_latch (hc : (bodyOf i).check s = .ok l) : (runBody (bodyOf i) s).latch = l := by
  rw [runBody_ok hc, finish, endOk_latch, doneLoops_latch]

/-- A command that passes validation takes `STATUS` from 1 to 2 (R249). -/
theorem runBody_status_done (hc : (bodyOf i).check s = .ok l) (hs : s.status = 1) :
    (runBody (bodyOf i) s).status = 2 := by
  rw [runBody_ok hc, finish, endOk_status, doneLoops_const State.status
    (fun k t => (congrArg State.status (control_fill i k t) :))
    (fun k t => (congrArg State.status (control_row i k t) :)) (fun _ _ => rfl)]
  have henter : (enter (bodyOf i) l s).status = s.status := (congrArg State.status (control_start i _) :)
  rw [henter, hs]
  decide

/-- A command that is its set-up loop alone, each iteration one extended row, leaves the extended rows. -/
theorem rowsExtended_runBody {row : Nat → Nat} {n : Nat} (hc : (bodyOf i).check s = .ok l)
    (hloop : doneLoops (bodyOf i) l s =
      loop (fillStage (bodyOf i)) n { s with latch := l, seq := { phase := .fill, y := 0 } })
    (hfill : ∀ k t, k < n → t.latch = l → (bodyOf i).fill k t = extendInto k (row k) l.hMargin t)
    (hm : l.hMargin ≤ 127) : RowsExtended s row l.hMargin n (runBody (bodyOf i) s) := by
  have hdone : RowsExtended s row l.hMargin n (doneLoops (bodyOf i) l s) := by
    rw [hloop]
    refine (loop_induct (f := fillStage (bodyOf i)) (n := n)
      (s := { s with latch := l, seq := { phase := .fill, y := 0 } })
      (fun k t => toRows (control t) = toRows (control { s with latch := l }) ∧ RowsExtended s row l.hMargin k t)
      ⟨rfl, .zero rfl rfl⟩ fun k t hk ⟨hcontrol, ht⟩ => ?_).2
    have hepoch : t.epoch = s.epoch := (congrArg State.epoch hcontrol :)
    have hsource : t.src = s.src := (congrArg State.src hcontrol :)
    have hslen : t.slen = s.slen := (congrArg State.slen hcontrol :)
    have hparams : t.params = s.params := (congrArg State.params hcontrol :)
    have hnext := ht.extendInto (srcAt_congr hepoch hsource) (slenAt_congr hepoch hslen hparams) hm
    rw [← hfill k t hk (congrArg State.latch hcontrol :)] at hnext
    exact ⟨(congrArg toRows (control_fill i k t) :).trans hcontrol, { hnext with }⟩
  rw [runBody_ok hc]
  exact { hdone with }

end Run

/-- The state with everything erased that an extender command may change. -/
def withoutExtension (s : State) : State :=
  { s with ext := [], elen := [], latch := Latch.reset, outW := 0, outH := 0, status := 0,
           seq := { phase := .idle, y := 0 } }

/-- The frame of the extender commands (R137, R138). -/
theorem extender_frame {i : Instr} (hi : (bodyOf i).hasRows = false) (s : State) :
    let t := runBody (bodyOf i) s
    t = { s with ext := t.ext, elen := t.elen, latch := t.latch, outW := t.outW, outH := t.outH,
                 status := t.status, seq := t.seq } := by
  intro t
  have hframe : withoutExtension t = withoutExtension s := by
    cases i with
    | ext1d _ | ext2d _ _ =>
      exact runBody_const withoutExtension (fun _ => rfl) (fun _ _ => rfl) (fun _ _ => rfl) (fun _ _ => rfl)
        (fun _ _ => rfl) (fun _ _ => rfl) (fun _ _ _ => rfl)
    | _ => cases hi
  exact (congrArg (fun u : State => { u with
    ext := t.ext, elen := t.elen, latch := t.latch, outW := t.outW, outH := t.outH, status := t.status, seq := t.seq })
    hframe :)

/-- The result registers of `EXT1D` (R137). -/
theorem ext1d_dims {m : Int} {s : State} {l : Latch} (hc : ext1dCheck m s = .ok l) :
    let t := runBody (ext1dBody m) s
    t.outW = BitVec.ofNat 32 (elenAt t 0) ∧ t.outH = 1 := by
  rw [runBody_ok (b := ext1dBody m) hc]
  exact ⟨rfl, rfl⟩

/-- The result registers of `EXT2D` (R138). -/
theorem ext2d_dims {hm vm : Int} {s : State} {l : Latch} (hc : ext2dCheck hm vm s = .ok l) :
    let t := runBody (ext2dBody hm vm) s
    t.outW = BitVec.ofNat 32 (elenAt t 0) ∧ t.outH = BitVec.ofNat 32 (l.h + 2 * l.vMargin) := by
  rw [runBody_ok (b := ext2dBody hm vm) hc]
  exact ⟨rfl, congrArg (fun k : Latch => BitVec.ofNat 32 (k.h + 2 * k.vMargin)) (doneLoops_latch (.ext2d hm vm) l s)⟩

end Sys2Proof.Machine
end

section
/-! SUPPORT. The commands `EXT1D` and `EXT2D`: what each validation rejects, and a one-row grid (R137, R138, R140). -/

namespace Sys2Proof.Machine

theorem ext1dCheck_of_illegal {m : Int} {s : State} (h : m < 0 ∨ slenAt s 0 = 0) :
    ext1dCheck m s = .error .invalidInput := if_pos h

theorem ext2dCheck_of_illegal {hm vm : Int} {s : State}
    (h : s.height.toNat = 0 ∨ vm < 0 ∨ hm < 0 ∨ ∃ y, y < s.height.toNat ∧ slenAt s y = 0) :
    ext2dCheck hm vm s = .error .invalidInput := by
  unfold ext2dCheck
  split
  · rfl
  · next hnot =>
    refine if_pos ?_
    simp only [not_or] at hnot
    simpa [hnot] using h

/-- After `EXT1D` on legal operands: row 0 extended (R137). -/
theorem rowsExtended_ext1d {m : Nat} {s : State} (hm : m ≤ 127) (hn : slenAt s 0 ≠ 0) :
    RowsExtended s (fun _ => 0) m 1 (runBody (ext1dBody m) s) := by
  refine rowsExtended_runBody (i := .ext1d m) (ext1dCheck_of_legal (Int.natCast_nonneg m) hn) rfl
    (fun k t hk ht => ?_) hm
  obtain rfl := Nat.lt_one_iff.1 hk
  rw [← congrArg Latch.hMargin ht]
  exact ext1dFill_eq 0 t

/-- After `EXT2D` on legal operands: the rows of the grid extended, the first and the last repeated (R138). -/
theorem rowsExtended_ext2d {hm vm : Nat} {s : State} (hhm : hm ≤ 127) (hg : LegalGrid s) :
    RowsExtended s (copiedFrom vm s.height.toNat) hm (s.height.toNat + 2 * vm) (runBody (ext2dBody hm vm) s) := by
  refine rowsExtended_runBody (i := .ext2d hm vm)
    (ext2dCheck_of_legal (Int.natCast_nonneg hm) (Int.natCast_nonneg vm) hg) rfl (fun k t _ ht => ?_) hhm
  rw [← clampIndex_eq_copiedFrom]
  exact (ext2dFill_eq k t).trans (by rw [ht]; rfl)

/-- With the operands of a one-row grid and no vertical margin, the loop of `EXT2D` is that of `EXT1D`. -/
theorem doneLoops_ext2d_oneRow {l : Latch} (hh : l.h = 1) (hv : l.vMargin = 0) {m vm : Int} {s : State} :
    doneLoops (ext2dBody m vm) l s = doneLoops (ext1dBody m) l s := by
  have hfills : (ext2dBody m vm).fills l = 1 := by
    show l.h + 2 * l.vMargin = 1
    rw [hh, hv]
  have hrow : clampIndex (((0 : Nat) : Int) - l.vMargin) l.h = 0 := by rw [hh, hv]; rfl
  have hfill : ext2dFill 0 (enter (ext2dBody m vm) l s) = ext1dFill 0 (enter (ext1dBody m) l s) :=
    (ext2dFill_eq 0 _).trans (congrArg (fun y => extendInto 0 y l.hMargin (enter (ext1dBody m) l s)) hrow)
  rw [doneLoops, hfills]
  exact congrArg (fun t : State => { t with seq := { phase := .fill, y := 1 } }) hfill

/-- On a one-row grid `EXT2D m, 0` is `EXT1D m`, but for the operands it latches (R140). -/
theorem runBody_ext2d_oneRow {s : State} (hh : s.height.toNat = 1) (m : Int) :
    ∃ l, runBody (ext2dBody m 0) s = { runBody (ext1dBody m) s with latch := l } := by
  by_cases hbad : m < 0 ∨ slenAt s 0 = 0
  · have hc2 : ext2dCheck m 0 s = .error .invalidInput := ext2dCheck_of_illegal
      (.inr (.inr (hbad.imp_right fun hn => ⟨0, by omega, hn⟩)))
    rw [runBody_error (b := ext2dBody m 0) hc2, runBody_error (b := ext1dBody m) (ext1dCheck_of_illegal hbad)]
    exact ⟨s.latch, rfl⟩
  · simp only [not_or, Int.not_lt] at hbad
    obtain ⟨hm, hn⟩ := hbad
    have hgrid : LegalGrid s := ⟨by omega, fun y hy => by rwa [show y = 0 by omega]⟩
    have hc2 := ext2dCheck_of_legal hm (Int.le_refl 0) hgrid
    rw [hh] at hc2
    rw [runBody_ok (b := ext2dBody m 0) hc2, doneLoops_ext2d_oneRow rfl rfl,
      runBody_ok (b := ext1dBody m) (ext1dCheck_of_legal hm hn)]
    exact ⟨_, rfl⟩

end Sys2Proof.Machine

namespace Sys2Proof.Proofs

open Sys2Proof Sys2Proof.Machine

/-- Settles O20: the one iteration of the loop writes the extended row and its length. -/
theorem ext1dResult : Obligations.Ext1dResult := by
  refine ⟨fun m s hm hn => ?_, fun m s h => exec_error (i := .ext1d m) (ext1dCheck_of_illegal h)⟩
  have hc := ext1dCheck_of_legal (Int.natCast_nonneg m) hn
  have hrows := rowsExtended_ext1d hm hn
  obtain ⟨hW, hH⟩ := ext1d_dims hc
  have hlen := hrows.elenAt_eq hm Nat.one_pos
  refine ⟨runBody (ext1dBody m) s, rfl, fun e he => hrows.extAt_toNat Nat.one_pos he, hlen,
    (hrows.outW_toNat hm Nat.one_pos hW).trans hlen, by rw [hH]; rfl, runBody_status_done (i := .ext1d m) hc,
    runBody_seq _ s, fun a ha => ?_, fun a ha => ?_, extender_frame (i := .ext1d m) rfl s⟩
  · refine hrows.extFrame a fun j e hj he => ?_
    obtain rfl := Nat.lt_one_iff.1 hj
    exact ha e he
  · exact hrows.elenFrame a (Nat.pos_of_ne_zero ha)

/-- Settles O21: iteration `j` of the loop writes row `j` and its length. -/
theorem ext2dResult : Obligations.Ext2dResult := by
  refine ⟨fun hm vm s hhm _ hg => ?_, fun hm vm s h => exec_error (i := .ext2d hm vm) (ext2dCheck_of_illegal h)⟩
  have hc := ext2dCheck_of_legal (Int.natCast_nonneg hm) (Int.natCast_nonneg vm) hg
  have hrows := rowsExtended_ext2d (vm := vm) hhm hg
  have hpos : 0 < s.height.toNat + 2 * vm := by have := hg.1; omega
  obtain ⟨hW, hH⟩ := ext2d_dims hc
  exact ⟨runBody (ext2dBody hm vm) s, rfl,
    fun j hj => ⟨hrows.elenAt_eq hhm hj, fun e he => hrows.extAt_toNat hj he⟩, hrows.outW_toNat hhm hpos hW, hH,
    runBody_status_done (i := .ext2d hm vm) hc, runBody_seq _ s, runBody_latch (i := .ext2d hm vm) hc,
    hrows.extFrame, hrows.elenFrame, extender_frame (i := .ext2d hm vm) rfl s⟩

/-- Settles O23: the two commands end in the same state but for the operands latched. -/
theorem ext2dOfOneRowIsExt1d : Obligations.Ext2dOfOneRowIsExt1d := by
  intro m s t u hh ht hu
  obtain rfl : runBody (ext2dBody m 0) s = t := Host.Outcome.next.inj ht
  obtain rfl : runBody (ext1dBody m) s = u := Host.Outcome.next.inj hu
  obtain ⟨l, h⟩ := runBody_ext2d_oneRow hh m
  rw [h]
  exact ⟨rfl, rfl, rfl, fun _ => rfl, fun _ => rfl⟩

end Sys2Proof.Proofs
end

section
/-! SUPPORT. The filter commands on a legal image, what the three have in common: the operands latched, the output rows
in `DST`, the registers (R53, R150, R249). -/

namespace Sys2Proof.Machine

theorem key_div_mod (a : Nat) : key (a / rowPitch) (a % rowPitch) = a := Nat.div_add_mod' a rowPitch

/-- What the entry of a command establishes, and each iteration of its loops keeps, holds when its loops are done. -/
theorem doneLoops_keeps {b : CommandBody} {l : Latch} {s : State} (P : State → Prop) (henter : P (enter b l s))
    (hseq : ∀ t q, P t → P { t with seq := q }) (hfill : ∀ k t, k < b.fills l → P t → P (b.fill k t))
    (hrow : ∀ y t, y < b.rows l → P t → P (b.row y t)) : P (doneLoops b l s) := by
  have hfills := loop_induct (f := fillStage b) (n := b.fills l) (fun _ => P) henter
    fun k t hk ht => hseq _ _ (hfill k t hk ht)
  have hleave : P (leaveFills b (loop (fillStage b) (b.fills l) (enter b l s))) := by
    unfold leaveFills
    cases b.hasRows with
    | true => exact hseq _ _ hfills
    | false => exact hfills
  exact loop_induct (f := rowStage b) (fun _ => P) hleave fun y t hy ht => hseq _ _ (hrow y t hy ht)

/-- The operands that a filter command of radius `r` latches (R53). -/
def latchedOperands (r : Nat) (s : State) : Latch :=
  { s.latch with r := r, l := 2 * r + 1, wt := (2 * r + 1) * (2 * r + 1), w := slenAt s 0, h := s.height.toNat }

theorem filterLatch_latchedOperands {r : Nat} (hr : r ≤ 7) (s : State) : FilterLatch (latchedOperands r s) :=
  ⟨hr, rfl, rfl, slenAt_lt_max s 0⟩

/-- A legal image passes the validation of every filter command (R245). -/
theorem check_filter {i : Instr} {r : Nat} {s : State} (hi : isFilter i r) (hr : r ≤ 7) (himg : LegalImage s) :
    (bodyOf i).check s = .ok (latchedOperands r s) := by
  obtain ⟨hheight, hwidth, hrows⟩ := himg
  have hvalid := validateFilter_of_legal hr hheight hwidth hrows
  rcases hi with rfl | rfl | rfl
  all_goals exact hvalid

section Rows

variable {i : Instr} {r : Int} {s : State} {l : Latch} (hi : isFilter i r)
include hi

theorem doneLoops_filter (l : Latch) (s : State) :
    doneLoops (bodyOf i) l s = loop (rowStage (bodyOf i)) l.h
      (toRows (loop (fillStage (bodyOf i)) ((bodyOf i).fills l) (enter (bodyOf i) l s))) := by
  rcases hi with rfl | rfl | rfl <;> rfl

/-- The set-up loop of a filter command leaves `DST` alone. -/
theorem dst_toRows_fills (n : Nat) (l : Latch) (s : State) :
    (toRows (loop (fillStage (bodyOf i)) n (enter (bodyOf i) l s))).dst = s.dst := by
  have henter : (enter (bodyOf i) l s).dst = s.dst := by rcases hi with rfl | rfl | rfl <;> rfl
  exact (loop_const (f := fillStage (bodyOf i)) State.dst (dst_fill i) n _).trans henter

/-- After the last row the hidden stores of a filter command are where its row iterations left them (R151, R174). -/
theorem rowReady_doneLoops (hl : FilterLatch l) : RowReady i s l l.h (doneLoops (bodyOf i) l s) := by
  rw [doneLoops_filter hi]
  exact loop_induct (f := rowStage (bodyOf i)) (RowReady i s l) (rowReady_fills hi hl)
    fun y t hy ht => (rowStage_outputStage hi hl hy ht).1

/-- A row iteration of a filter command leaves output row `y` in `DST` (R151, R177, R208). -/
theorem row_dst (hl : FilterLatch l) {y : Nat} {t : State} (hy : y < l.h) (h : RowReady i s l y t) (a : Nat) :
    ((bodyOf i).row y t).dst.read a = (Mem.writeRow t.dst (key y 0) (outputRow s l y)).read a := by
  rcases hi with rfl | rfl | rfl
  · obtain ⟨hlatch, hgrid⟩ := h
    exact congrArg (Mem.read · a) (naiveRow_dst hl hlatch hy hgrid)
  · exact congrArg (Mem.read · a) (sepRow_spec hl h.1).1
  · exact (vecRow_spec hl h.1).1 a

/-- `DST` after the loops of a filter command: the output rows, and around them what was there before. -/
theorem doneLoops_dst (hl : FilterLatch l) (a : Nat) :
    (doneLoops (bodyOf i) l s).dst.read a =
      if a / rowPitch < l.h ∧ a % rowPitch < l.w then (outputRow s l (a / rowPitch))[a % rowPitch]?
      else s.dst.read a := by
  rw [doneLoops_filter hi, rows_dst (f := rowStage (bodyOf i)) hl (RowReady i s l) (rowReady_fills hi hl)
    (fun y t hy ht => (rowStage_outputStage hi hl hy ht).1) (fun y t hy ht => row_dst hi hl hy ht),
    dst_toRows_fills hi]

end Rows

/-- `t` is `s` with the image filtered at radius `r`: what every filter command leaves where the host can see it
(R150, R151, R160, R249). -/
structure ImageFiltered (s : State) (r : Nat) (t : State) : Prop where
  box    : ∀ y x, y < s.height.toNat → x < slenAt s 0 →
    (dstAt t y x).toNat = boxAt (imageOf s) (slenAt s 0) s.height.toNat r y x
  width  : t.outW.toNat = slenAt s 0
  height : t.outH.toNat = s.height.toNat
  status : s.status = 1 → t.status = 2
  idle   : t.seq = { phase := .idle, y := 0 }
  frame  : ∀ a, (∀ y x, y < s.height.toNat → x < slenAt s 0 → a ≠ key y x) → t.dst.read a = s.dst.read a

section Filtered

variable {i : Instr} {r : Nat} {s : State} (hi : isFilter i r) (hr : r ≤ 7) (himg : LegalImage s)
include hi hr himg

theorem runBody_filter : runBody (bodyOf i) s = finish (bodyOf i) (doneLoops (bodyOf i) (latchedOperands r s) s) :=
  runBody_ok (check_filter hi hr himg)

/-- The result registers take the image's dimensions (R45, R46). -/
theorem dims_runBody_filter :
    (runBody (bodyOf i) s).outW = BitVec.ofNat 32 (slenAt s 0) ∧ (runBody (bodyOf i) s).outH = s.height := by
  have hdims : (bodyOf i).dims = filterDims := by rcases hi with rfl | rfl | rfl <;> rfl
  rw [runBody_filter hi hr himg, finish, hdims, endOk_outW, endOk_outH, filterDims, doneLoops_latch]
  exact ⟨rfl, (BitVec.ofNat_toNat 32 s.height).trans (BitVec.setWidth_eq s.height)⟩

/-- Every filter command computes `box` of a legal image (R150). -/
theorem imageFiltered_runBody : ImageFiltered s r (runBody (bodyOf i) s) := by
  have hl := filterLatch_latchedOperands hr s
  have hdst := doneLoops_dst (s := s) hi hl
  obtain ⟨houtW, houtH⟩ := dims_runBody_filter hi hr himg
  have hwidth := slenAt_lt_max s 0
  refine ⟨fun y x hy hx => ?_, ?_, by rw [houtH], runBody_status_done (check_filter hi hr himg), runBody_seq _ s,
    fun a ha => ?_⟩
  · obtain ⟨v, hv, hbox⟩ := outputRow_box hl s (y := y) hx
    have hcol : x < rowPitch := by rw [rowPitch_eq]; omega
    have hread := hdst (key y x)
    rw [key_div hcol, key_mod hcol, if_pos ⟨hy, hx⟩, hv] at hread
    rw [runBody_filter hi hr himg, dstAt, finish, endOk_dst, readElem_some hread, hbox]
    rfl
  · rw [houtW, BitVec.toNat_ofNat, Nat.mod_eq_of_lt (by omega)]
  · rw [runBody_filter hi hr himg, finish, endOk_dst, hdst, if_neg]
    rintro ⟨hy, hx⟩
    exact ha _ _ hy hx (key_div_mod a).symm

end Filtered

end Sys2Proof.Machine
end

section
/-! SUPPORT. The frames of the filter commands: the hidden stores each leaves alone, and what it leaves of those it
writes (R54 to R58). -/

namespace Sys2Proof.Machine

/-- What a filter command may change, all of it (R70, R87). -/
theorem filter_frame {i : Instr} {r : Int} (hi : isFilter i r) (s : State) :
    let t := runBody (bodyOf i) s
    t = { s with dst := t.dst, xgrid := t.xgrid, ring := t.ring, rstart := t.rstart, mid := t.mid, acc := t.acc,
                 latch := t.latch, outW := t.outW, outH := t.outH, status := t.status, seq := t.seq } := by
  intro t
  obtain ⟨hext, helen⟩ := Prod.ext_iff.1 (extensions_runBody_filter hi s)
  have hframe : t = { s with
      dst := t.dst, ext := t.ext, elen := t.elen, xgrid := t.xgrid, ring := t.ring, rstart := t.rstart, mid := t.mid,
      acc := t.acc, latch := t.latch, outW := t.outW, outH := t.outH, status := t.status, seq := t.seq } :=
    (congrArg (fun u : State => { u with
      dst := t.dst, ext := t.ext, elen := t.elen, xgrid := t.xgrid, ring := t.ring, rstart := t.rstart, mid := t.mid,
      acc := t.acc, latch := t.latch, outW := t.outW, outH := t.outH, status := t.status, seq := t.seq })
      (fixedPart_runBody i s) :)
  exact hframe.trans (by rw [show t.ext = s.ext from hext, show t.elen = s.elen from helen])

/-- `FNAIVE` leaves the stores of the two-pass filters alone. -/
theorem passStores_fnaive (r : Int) (s : State) :
    let t := runBody (naiveBody r) s
    t.ring = s.ring ∧ t.rstart = s.rstart ∧ t.mid = s.mid ∧ t.acc = s.acc := by
  have h := runBody_const (fun t : State => (t.ring, t.rstart, t.mid, t.acc)) (b := naiveBody r) (s := s)
    (fun _ => rfl) (fun _ _ => rfl) (fun _ _ => rfl) (fun _ _ => rfl) (fun _ _ => rfl) (fun _ _ => rfl)
    (fun _ _ _ => rfl)
  simpa using h

/-- `FSEP` uses neither the grid of `FNAIVE` nor the accumulators of `FVEC`. -/
theorem xgrid_acc_fsep (r : Int) (s : State) :
    (runBody (sepBody r) s).xgrid = s.xgrid ∧ (runBody (sepBody r) s).acc = s.acc := by
  have h := runBody_const (fun t : State => (t.xgrid, t.acc)) (b := sepBody r) (s := s)
    (fun _ => rfl) (fun _ _ => rfl) (fun y t => Prod.ext (sepRow_xgrid y t) (sepRow_acc y t)) (fun _ _ => rfl)
    (fun _ _ => rfl) (fun _ _ => rfl) (fun _ _ _ => rfl)
  simpa using h

/-- `FVEC` does not use the grid of `FNAIVE`. -/
theorem xgrid_fvec (r : Int) (s : State) : (runBody (vecBody r) s).xgrid = s.xgrid :=
  runBody_const State.xgrid (fun _ => rfl) (fun _ _ => rfl) vecRow_xgrid (fun _ _ => rfl) (fun _ _ => rfl)
    (fun _ _ => rfl) (fun _ _ _ => rfl)

/-- A row of writes from column 0 on leaves every key outside the row's columns alone. -/
theorem Mem.read_writeRow_key_out {w : Nat} (m : Mem w) {y c : Nat} {vs : List (BitVec w)} {n : Nat}
    (hlen : vs.length = n) (h : ∀ e, e < n → c ≠ key y e) : (Mem.writeRow m (key y 0) vs).read c = m.read c :=
  Mem.read_writeRow_out _ _ _ fun k hk => by
    rw [key_zero_add]
    exact h k (by rwa [← hlen])

/-! `FNAIVE`: the extended image in `XGRID` (R151, R152). -/

section Naive

variable {r : Nat} {s : State} (hr : r ≤ 7) (himg : LegalImage s)
include hr himg

/-- After `FNAIVE` the grid holds the image extended by the radius. -/
theorem xgrid_runBody_fnaive {j e : Nat} (hj : j < s.height.toNat + 2 * r) (he : e < slenAt s 0 + 2 * r) :
    (runBody (naiveBody r) s).xgrid.read (key j e) = some (extendedAt s (slenAt s 0) s.height.toNat r j e) := by
  have hi : isFilter (.fnaive r) r := .inl rfl
  obtain ⟨-, hgrid⟩ := rowReady_doneLoops (s := s) hi (filterLatch_latchedOperands hr s)
  exact (congrArg (fun t : State => t.xgrid.read (key j e)) (runBody_filter hi hr himg)).trans (hgrid j e hj he)

/-- `FNAIVE` leaves the grid alone around the extended image. -/
theorem xgrid_frame_fnaive {a : Nat}
    (ha : ∀ j e, j < s.height.toNat + 2 * r → e < slenAt s 0 + 2 * r → a ≠ key j e) :
    (runBody (naiveBody r) s).xgrid.read a = s.xgrid.read a := by
  have hi : isFilter (.fnaive r) r := .inl rfl
  have hloops := doneLoops_keeps (b := naiveBody r) (l := latchedOperands r s) (s := s)
    (fun t => t.latch = latchedOperands r s ∧ t.xgrid.read a = s.xgrid.read a) ⟨rfl, rfl⟩ (fun _ _ h => h)
    (fun k t hk ⟨hlatch, hread⟩ => by
      refine ⟨hlatch, (Mem.read_writeRow_key_out _ (extendedRow_length ..) fun e he => ?_).trans hread⟩
      rw [hlatch] at he
      exact ha k e hk he)
    (fun _ _ _ h => h)
  exact (congrArg (fun t : State => t.xgrid.read a) (runBody_filter hi hr himg)).trans hloops.2

end Naive

/-! The accumulators of the idle lanes (R205). -/

section Lanes

variable {a c : Nat}

theorem acc_lanesSet_idle (h : a ≤ c) (f : Nat → U16) (s : State) : (lanesSet a f s).acc.read c = s.acc.read c :=
  Mem.read_writeRow_out _ _ _ fun k hk => by
    have hk : k < a := by simpa using hk
    omega

/-- Lane operations one after another leave the idle lanes alone. -/
theorem acc_loop_idle (h : a ≤ c) {f : Nat → State → State} {g : Nat → State → Nat → U16}
    (hf : ∀ j t, f j t = lanesSet a (g j t) t) (n : Nat) (s : State) : (loop f n s).acc.read c = s.acc.read c :=
  loop_const (f := f) (fun t => t.acc.read c) (fun j t => by rw [hf, acc_lanesSet_idle h]) n s

theorem acc_verticalGroup_idle {grp : Group} (h : grp.2 ≤ c) (s : State) :
    (verticalGroup grp s).acc.read c = s.acc.read c :=
  (acc_loop_idle h (f := verticalTap grp) (fun _ _ => rfl) _ _).trans (acc_lanesSet_idle h _ s)

theorem acc_horizontalGroup_idle (y : Nat) {grp : Group} (h : grp.2 ≤ c) (s : State) :
    (horizontalGroup y grp s).acc.read c = s.acc.read c :=
  (acc_lanesSet_idle h _ _).trans
    ((acc_loop_idle h (f := horizontalTap grp) (fun _ _ => rfl) _ _).trans (acc_lanesSet_idle h _ s))

/-- No group of a pass has more lanes than there are, so a pass leaves the accumulators beyond them alone (R203). -/
theorem acc_groups_idle {p : Config.Params} {f : State → Group → State} (hc : p.lanes ≤ c)
    (hf : ∀ t grp, grp.2 ≤ c → (f t grp).acc.read c = t.acc.read c) (n : Nat) (s : State) :
    ((groups p.lanes n).foldl f s).acc.read c = s.acc.read c :=
  List.foldlRecOn (motive := fun t => t.acc.read c = s.acc.read c) _ f rfl fun t ht grp hgrp =>
    (hf t grp (Nat.le_trans ((groups_cover (lanes_pos p)).1 grp hgrp).2 hc)).trans ht

end Lanes

/-! The two-pass filters: `RING`, `MID` and `ACC` (R172, R176, R201). -/

/-- `t` holds what `s` does in `RING` outside the slots and columns in use, in `MID` outside the extended row, and in
`ACC` outside the lanes; `l` are the operands latched. -/
structure ScratchKept (s : State) (l : Latch) (t : State) : Prop where
  latch  : t.latch = l
  params : t.params = s.params
  ring   : ∀ a, (∀ k e, k < l.l → e < l.w + 2 * l.r → a ≠ key k e) → t.ring.read a = s.ring.read a
  mid    : ∀ a, l.w + 2 * l.r ≤ a → t.mid.read a = s.mid.read a
  acc    : ∀ a, s.params.lanes ≤ a → t.acc.read a = s.acc.read a

section Scratch

variable {s t : State} {l : Latch} (h : ScratchKept s l t)
include h

/-- The ring takes an extended row in a slot in use (R172, R173). -/
theorem ScratchKept.fillSlot {k : Nat} (hk : k < l.l) (y : Nat) :
    ScratchKept s l { t with ring := t.ring.writeRow (key k 0) (extendedRow t y t.latch.r t.latch.w) } := by
  obtain ⟨rfl, hparams, hring, hmid, hacc⟩ := h
  exact ⟨rfl, hparams, fun a ha =>
    (Mem.read_writeRow_key_out _ (extendedRow_length ..) fun e he => ha k e hk he).trans (hring a ha), hmid, hacc⟩

theorem ScratchKept.ringFill {k : Nat} (hk : k < l.l - 1) : ScratchKept s l (ringFill k t) := h.fillSlot (by omega) _

theorem ScratchKept.ringAppend (hl : 0 < l.l) (y : Nat) : ScratchKept s l (ringAppend y t) := by
  have hslot : slotOf t (t.latch.l - 1) < l.l := by rw [slotOf, h.latch]; exact Nat.mod_lt _ hl
  exact h.fillSlot hslot _

theorem ScratchKept.verticalPass : ScratchKept s l (verticalPass t) := by
  obtain ⟨rfl, hparams, hring, hmid, hacc⟩ := h
  refine ⟨rfl, hparams, hring, fun a ha => (Mem.read_writeRow_out _ _ _ fun k hk => ?_).trans (hmid a ha), hacc⟩
  have hk : k < t.latch.w + 2 * t.latch.r := by simpa using hk
  omega

theorem ScratchKept.horizontalPass (y : Nat) : ScratchKept s l (horizontalPass y t) := { h with }

theorem ScratchKept.ringRotate : ScratchKept s l (ringRotate t) := { h with }

/-- The grouped vertical pass leaves in `MID` what the scalar one does (R206). -/
theorem ScratchKept.verticalGroups : ScratchKept s l (verticalGroups t) := by
  obtain ⟨mid, acc, hgroups, hread⟩ := verticalGroups_spec t
  have hidle := fun a (ha : s.params.lanes ≤ a) => acc_groups_idle (h.params ▸ ha)
    (fun u grp hgrp => acc_verticalGroup_idle hgrp u) (t.latch.w + 2 * t.latch.r) t
  have hacc : (Machine.verticalGroups t).acc = acc := by rw [hgroups]
  rw [hgroups]
  exact ⟨h.latch, h.params, h.ring, fun a ha => (hread a).trans (h.verticalPass.mid a ha),
    fun a ha => hacc ▸ (hidle a ha).trans (h.acc a ha)⟩

/-- The grouped horizontal pass writes `DST` and the lanes' accumulators only (R207, R208). -/
theorem ScratchKept.horizontalGroups (y : Nat) : ScratchKept s l (horizontalGroups y t) := by
  obtain ⟨dst, acc, hgroups, -⟩ := horizontalGroups_spec y t
  have hidle := fun a (ha : s.params.lanes ≤ a) => acc_groups_idle (h.params ▸ ha)
    (fun u grp hgrp => acc_horizontalGroup_idle y hgrp u) t.latch.w t
  have hacc : (Machine.horizontalGroups y t).acc = acc := by rw [hgroups]
  rw [hgroups]
  exact ⟨h.latch, h.params, h.ring, h.mid, fun a ha => hacc ▸ (hidle a ha).trans (h.acc a ha)⟩

end Scratch

/-- The loops of the two-pass filters keep to the part of the hidden stores that is in use. -/
theorem scratchKept_doneLoops {i : Instr} {r : Int} (hi : i = .fsep r ∨ i = .fvec r) {l : Latch} (hl : 0 < l.l)
    (s : State) : ScratchKept s l (doneLoops (bodyOf i) l s) := by
  have henter : ScratchKept s l (enter (bodyOf i) l s) := by
    rcases hi with rfl | rfl
    all_goals exact ⟨rfl, rfl, fun _ _ => rfl, fun _ _ => rfl, fun _ _ => rfl⟩
  have hfill (k : Nat) (t : State) (hk : k < (bodyOf i).fills l) (h : ScratchKept s l t) :
      ScratchKept s l ((bodyOf i).fill k t) := by
    rcases hi with rfl | rfl
    all_goals exact h.ringFill hk
  have hrow (y : Nat) (t : State) (h : ScratchKept s l t) : ScratchKept s l ((bodyOf i).row y t) := by
    rcases hi with rfl | rfl
    · exact ((h.ringAppend hl y).verticalPass.horizontalPass y).ringRotate
    · exact ((h.ringAppend hl y).verticalGroups.horizontalGroups y).ringRotate
  exact doneLoops_keeps (ScratchKept s l) henter (fun _ _ h => { h with }) hfill fun y t _ => hrow y t

section TwoPass

variable {i : Instr} {r : Nat} {s : State} (hi : i = .fsep r ∨ i = .fvec r) (hr : r ≤ 7) (himg : LegalImage s)
include hi hr himg

theorem scratchKept_runBody : ScratchKept s (latchedOperands r s) (runBody (bodyOf i) s) := by
  have hkept := scratchKept_doneLoops hi (l := latchedOperands r s) (Nat.succ_pos (2 * r)) s
  rw [runBody_filter (.inr hi) hr himg]
  exact { hkept with }

/-- `RSTART` has advanced once for each row (R180, R183). -/
theorem rstart_runBody : (runBody (bodyOf i) s).rstart.toNat = s.height.toNat % (2 * r + 1) := by
  have hready := rowReady_doneLoops (s := s) (.inr hi) (filterLatch_latchedOperands hr s)
  rw [runBody_filter (.inr hi) hr himg, finish, endOk_rstart]
  rcases hi with rfl | rfl
  all_goals exact hready.1.rstart

end TwoPass

end Sys2Proof.Machine
end

section
/-! SUPPORT. `box` on two kinds of image: radius 0, and an image of one value (R158, R159). -/

namespace Sys2Proof.Machine

/-- A window of one sample has that sample as its mean. -/
theorem boxAt_zero (image : Nat → Nat → Nat) {w h y x : Nat} (hy : y < h) (hx : x < w) :
    boxAt image w h 0 y x = image y x := by
  simp [boxAt, boxSum, clampIndex_of_lt hy, clampIndex_of_lt hx]

/-- The mean of samples that all are `v` is `v`. -/
theorem boxAt_uniform {image : Nat → Nat → Nat} {w h v : Nat} (hw : w ≠ 0) (hh : h ≠ 0)
    (hv : ∀ y x, y < h → x < w → image y x = v) (r y x : Nat) : boxAt image w h r y x = v := by
  have htap (j e : Int) : image (clampIndex j h) (clampIndex e w) = v :=
    hv _ _ (clampIndex_lt j hh) (clampIndex_lt e hw)
  have hsum : boxSum image w h r y x = (2 * r + 1) * (2 * r + 1) * v := by simp [boxSum, htap, Nat.mul_assoc]
  rw [boxAt, hsum, Nat.mul_div_cancel_left _ (by positivity)]

end Sys2Proof.Machine

namespace Sys2Proof.Proofs

open Sys2Proof Sys2Proof.Machine

/-- Settles O24: the extended image in `XGRID`, then `box` row by row. -/
theorem fnaiveComputesBox : Obligations.FnaiveComputesBox := by
  intro r s hr himg
  have hi : isFilter (.fnaive r) r := .inl rfl
  obtain ⟨hbox, houtW, houtH, hstatus, hidle, hdst⟩ := imageFiltered_runBody hi hr himg
  obtain ⟨hring, hrstart, hmid, hacc⟩ := passStores_fnaive r s
  have hframe := filter_frame hi s
  simp only [bodyOf, hring, hrstart, hmid, hacc] at hframe
  exact ⟨runBody (naiveBody r) s, rfl, hbox, houtW, houtH, hstatus, hidle, hdst,
    fun a ha => xgrid_frame_fnaive hr himg ha, hframe⟩

/-- Settles O25: the window of the ring gives the output rows and, after the last of them, `RSTART`. -/
theorem fsepComputesBox : Obligations.FsepComputesBox := by
  intro r s hr himg
  have hi : isFilter (.fsep r) r := .inr (.inl rfl)
  obtain ⟨hbox, houtW, houtH, hstatus, hidle, hdst⟩ := imageFiltered_runBody hi hr himg
  have hkept := scratchKept_runBody (.inl rfl) hr himg
  have hrstart := rstart_runBody (.inl rfl) hr himg
  obtain ⟨hxgrid, hacc⟩ := xgrid_acc_fsep r s
  have hframe := filter_frame hi s
  simp only [bodyOf, hxgrid, hacc] at hframe
  exact ⟨runBody (sepBody r) s, rfl, hbox, houtW, houtH, hstatus, hidle, hrstart, hdst, hkept.ring, hkept.mid, hframe⟩

/-- Settles O26: as `FSEP`, the passes by groups of lanes, which touch no accumulator beyond the lanes. -/
theorem fvecComputesBox : Obligations.FvecComputesBox := by
  intro r s hr himg
  have hi : isFilter (.fvec r) r := .inr (.inr rfl)
  obtain ⟨hbox, houtW, houtH, hstatus, hidle, hdst⟩ := imageFiltered_runBody hi hr himg
  have hkept := scratchKept_runBody (.inr rfl) hr himg
  have hrstart := rstart_runBody (.inr rfl) hr himg
  have hframe := filter_frame hi s
  simp only [bodyOf, xgrid_fvec] at hframe
  exact ⟨runBody (vecBody r) s, rfl, hbox, houtW, houtH, hstatus, hidle, hrstart, hdst, hkept.ring, hkept.mid,
    hkept.acc, hframe⟩

/-- Settles O29: `box` of radius 0 is the sample itself. -/
theorem radiusZeroIsIdentity : Obligations.RadiusZeroIsIdentity := by
  intro i s hi himg
  have hfiltered := imageFiltered_runBody (r := 0) hi (Nat.zero_le 7) himg
  refine ⟨_, exec_eq i s, fun y x hy hx => BitVec.eq_of_toNat_eq ?_⟩
  rw [hfiltered.box y x hy hx, boxAt_zero _ hy hx, imageOf]

/-- Settles O30: `box` of an image of one value is that value. -/
theorem uniformImageIsInvariant : Obligations.UniformImageIsInvariant := by
  intro i r s v hi h0 h7 himg hv
  lift r to Nat using h0
  have hfiltered := imageFiltered_runBody hi (by omega) himg
  have himage : ∀ y x, y < s.height.toNat → x < slenAt s 0 → imageOf s y x = v.toNat :=
    fun y x hy hx => congrArg BitVec.toNat (hv y x hy hx)
  refine ⟨_, exec_eq i s, hfiltered.width, hfiltered.height, fun y x hy hx => BitVec.eq_of_toNat_eq ?_⟩
  rw [hfiltered.box y x hy hx, boxAt_uniform himg.2.1 himg.1 himage]

/-- Settles O31: what the set-up loop of `FNAIVE` leaves in `XGRID`, the row loop leaves there. -/
theorem fnaiveMaterialisesTheExtendedImage : Obligations.FnaiveMaterialisesTheExtendedImage := by
  intro r s hr himg
  obtain ⟨hext, -⟩ := Prod.ext_iff.1 (extensions_runBody_filter (i := .fnaive r) (.inl rfl) s)
  refine ⟨runBody (naiveBody r) s, rfl, hext, fun j e hj he => ?_, fun a ha => xgrid_frame_fnaive hr himg ha⟩
  rw [xgridAt, readElem_some (xgrid_runBody_fnaive hr himg hj he), extendedAt, zext16_toNat, clampIndex_eq_copiedFrom,
    clampIndex_eq_copiedFrom]

end Sys2Proof.Proofs
end

section
/-! SUPPORT. The sums of the filters in numbers: exact in 16 bits, in any order (R154, R155). -/

namespace Sys2Proof.Machine

/-- Adding at most `n` elements of at most `b` each is exact when `n * b` fits 16 bits (R154). -/
theorem sum16_exact {n b : Nat} {vs : List U16} (hn : vs.length ≤ n) (hb : ∀ v ∈ vs, v.toNat ≤ b)
    (hfits : n * b < 65536) :
    (sum16 vs).toNat = (vs.map BitVec.toNat).sum ∧ (vs.map BitVec.toNat).sum ≤ n * b := by
  have hsum := List.sum_le_card_nsmul (vs.map BitVec.toNat) b (by simpa using hb)
  rw [List.length_map, smul_eq_mul] at hsum
  have hle := hsum.trans (Nat.mul_le_mul_right b hn)
  exact ⟨sum16_toNat (hle.trans_lt hfits), hle⟩

/-- The same of samples, which are at most 255. -/
theorem sum16_samples {n : Nat} {vs : List U8} (hn : vs.length ≤ n) (hfits : n * 255 < 65536) :
    (sum16 (vs.map zext16)).toNat = (vs.map BitVec.toNat).sum ∧ (vs.map BitVec.toNat).sum ≤ n * 255 := by
  have hmap : (vs.map zext16).map BitVec.toNat = vs.map BitVec.toNat := by simp
  have hsamples : ∀ v ∈ vs.map zext16, v.toNat ≤ 255 := by
    simpa using fun v _ => Nat.le_of_lt_succ (BitVec.isLt v)
  exact hmap ▸ sum16_exact (by simpa using hn) hsamples hfits

end Sys2Proof.Machine

namespace Sys2Proof.Proofs

open Sys2Proof Sys2Proof.Machine

/-- Settles O36, the side of the window at most 15 and its weight at most 225. -/
theorem sumsNeverWrap : Obligations.SumsNeverWrap := by
  intro r vs hr
  have hside : 2 * r + 1 ≤ 15 := by omega
  refine ⟨fun hlen => sum16_samples (n := 15) (hlen.trans hside) (by omega),
    fun hlen => sum16_samples (n := 225) (hlen.trans (weight_le hr)) (by omega), fun ms hlen hms => ?_⟩
  exact sum16_exact (n := 15) (b := 3825) (hlen.trans hside) (fun m hm => (hms m hm).trans (by omega)) (by omega)

/-- Settles O37: both sums are exact, and the exact sum of a list does not depend on its order. -/
theorem sumOrderIsFree : Obligations.SumOrderIsFree := by
  intro r vs us hr hlen hperm
  have hvs := hlen.trans (weight_le hr)
  have hus : us.length ≤ 225 := hperm.length_eq ▸ hvs
  have hexact := (sum16_samples hvs (by omega)).1
  refine ⟨hexact, BitVec.eq_of_toNat_eq ?_⟩
  rw [hexact, (sum16_samples hus (by omega)).1, (hperm.map BitVec.toNat).sum_eq]

/-- Settles O38: `mean_toNat` with the weights of radius 0 to 7. -/
theorem divisionIsExact : Obligations.DivisionIsExact := by
  intro r s sum hr hwt hsum
  have hle : s.latch.wt ≤ 225 := hwt ▸ weight_le hr
  have hpos : 0 < s.latch.wt := by rw [hwt]; positivity
  exact ⟨hpos, hle, mean_toNat (by omega) (by omega) hsum, Nat.div_le_of_le_mul hsum⟩

end Sys2Proof.Proofs
end

section
/-! SUPPORT. The ring of the two-pass filters: the rotation by index (R180), and the window before and after step (a) of
every output row (R172 to R174). -/

namespace Sys2Proof.Machine

/-! The rotation. -/

section Rotation

variable {s : State} (hpos : 1 ≤ s.latch.l) (hle : s.latch.l ≤ 15)
include hpos hle

/-- `RSTART` has room for every slot number (R56). -/
theorem ringRotate_rstart_toNat : (ringRotate s).rstart.toNat = (s.rstart.toNat + 1) % s.latch.l := by
  have hlt := Nat.mod_lt (s.rstart.toNat + 1) hpos
  rw [ringRotate_rstart, BitVec.toNat_ofNat, Nat.mod_eq_of_lt (by omega)]

/-- The rotation renames the window's positions, each down by one (R180). -/
theorem slotOf_ringRotate (j : Nat) : slotOf (ringRotate s) j = slotOf s (j + 1) := by
  have hside : (ringRotate s).latch.l = s.latch.l := congrArg Latch.l (ringRotate_latch s)
  rw [slotOf_of_rstart hside (ringRotate_rstart_toNat hpos hle), slotOf, Nat.add_assoc, Nat.add_comm 1 j]

/-- The oldest row's slot becomes the newest position (R180). -/
theorem slotOf_ringRotate_last : slotOf (ringRotate s) (s.latch.l - 1) = slotOf s 0 := by
  rw [slotOf_ringRotate hpos hle, Nat.sub_add_cancel hpos, slotOf, Nat.add_mod_right, slotOf, Nat.add_zero]

end Rotation

/-- Step (a) writes the slot of the newest position and no other (R173). -/
theorem ring_ringAppend_out (y : Nat) {s : State} {a : Nat}
    (ha : ∀ e, e < s.latch.w + 2 * s.latch.r → a ≠ key (slotOf s (s.latch.l - 1)) e) :
    (ringAppend y s).ring.read a = s.ring.read a :=
  Mem.read_writeRow_key_out _ (extendedRow_length ..) ha

/-! Steps (b) and (c) by groups write neither the ring nor `RSTART` (R201). -/

@[simp] theorem verticalGroups_ring (s : State) : (verticalGroups s).ring = s.ring := by
  obtain ⟨_, _, h, -⟩ := verticalGroups_spec s
  rw [h]

@[simp] theorem verticalGroups_rstart (s : State) : (verticalGroups s).rstart = s.rstart := by
  obtain ⟨_, _, h, -⟩ := verticalGroups_spec s
  rw [h]

@[simp] theorem horizontalGroups_ring (y : Nat) (s : State) : (horizontalGroups y s).ring = s.ring := by
  obtain ⟨_, _, h, -⟩ := horizontalGroups_spec y s
  rw [h]

@[simp] theorem horizontalGroups_rstart (y : Nat) (s : State) : (horizontalGroups y s).rstart = s.rstart := by
  obtain ⟨_, _, h, -⟩ := horizontalGroups_spec y s
  rw [h]

/-! The window. -/

/-- Before row `n` the window of a two-pass filter is in place, but for the row that step (a) appends (R174). -/
theorem window_rows {i : Instr} {r : Int} (hi : i = .fsep r ∨ i = .fvec r) {s : State} {l : Latch} (hl : FilterLatch l)
    {n : Nat} (hn : n ≤ l.h) :
    Window s l n (loop (rowStage (bodyOf i)) n
      (toRows (loop (fillStage (bodyOf i)) ((bodyOf i).fills l) (enter (bodyOf i) l s)))) := by
  have hfilter : isFilter i r := .inr hi
  have hready := loop_induct (f := rowStage (bodyOf i)) (n := n) (RowReady i s l) (rowReady_fills hfilter hl)
    fun _ _ hk ht => (rowStage_outputStage hfilter hl (by omega) ht).1
  rcases hi with rfl | rfl
  all_goals exact hready.1

section Row

variable {s t : State} {l : Latch} {y : Nat} (hl : FilterLatch l) (h : Window s l y t)
include hl h

/-- After step (a) position `j` of the window is the extended row of source row `clamp(y - R + j, 0, H - 1)` (R174). -/
theorem Window.ringAt_ringAppend {j e : Nat} (hj : j < l.l) (he : e < l.w + 2 * l.r) :
    (ringAt (ringAppend y t) ((y + j) % l.l) e).toNat =
      (srcAt s (clampIndex ((y : Int) - l.r + j) l.h) (copiedFrom l.r l.w e)).toNat := by
  have hrow : ((y + j : Nat) : Int) - l.r = (y : Int) - l.r + j := by omega
  rw [ringAt, readElem_some (ringAppend_window hl h hj he), extendedAt, zext16_toNat, hrow, clampIndex_eq_copiedFrom]

/-- A row iteration of a two-pass filter leaves the ring as step (a) does, and the window of the next row (R171, R201). -/
theorem Window.row {i : Instr} {r : Int} (hi : i = .fsep r ∨ i = .fvec r) :
    ((bodyOf i).row y t).ring = (ringAppend y t).ring ∧ Window s l (y + 1) ((bodyOf i).row y t) := by
  rcases hi with rfl | rfl
  · exact ⟨rfl, (sepRow_spec hl h).2⟩
  · exact ⟨vecRow_ring y t, (vecRow_spec hl h).2⟩

end Row

end Sys2Proof.Machine

namespace Sys2Proof.Proofs

open Sys2Proof Sys2Proof.Machine

/-- Settles O33: the slots of the window are numbered from `RSTART` on, modulo their number. -/
theorem rotationMakesTheOldestSlotNext : Obligations.RotationMakesTheOldestSlotNext := by
  intro s hpos hle _
  have hrstart := ringRotate_rstart_toNat hpos hle
  have hlast := slotOf_ringRotate_last hpos hle
  refine ⟨hrstart, hlast, fun j _ => slotOf_ringRotate hpos hle j, rfl, hrstart ▸ Nat.mod_lt _ hpos, fun y a ha => ?_⟩
  rw [← hlast] at ha
  exact ring_ringAppend_out y ha

/-- Settles O32: the window is in place before every row, step (a) completes it, and the other steps do not write the
ring. -/
theorem ringWindow : Obligations.RingWindow := by
  intro b r s y hb hr himg hy w h l
  obtain ⟨i, hi, rfl⟩ : ∃ i : Instr, (i = .fsep r ∨ i = .fvec r) ∧ bodyOf i = b := by
    rcases hb with rfl | rfl
    · exact ⟨.fsep r, .inl rfl, rfl⟩
    · exact ⟨.fvec r, .inr rfl, rfl⟩
  have hl := filterLatch_latchedOperands hr s
  refine ⟨latchedOperands r s, check_filter (.inr hi) hr himg, ?_⟩
  intro before t
  have hwin : Window s (latchedOperands r s) y before := window_rows hi hl (Nat.le_of_lt hy)
  obtain ⟨hring, hnext⟩ := hwin.row hl hi
  have hslot (j : Nat) : slotOf t j = (y + j) % l := slotOf_of_rstart (congrArg Latch.l hwin.latch) hwin.rstart j
  exact ⟨hwin.rstart, fun j hj => ⟨hslot j, fun e he => hwin.ringAt_ringAppend hl hj he⟩, rfl, rfl, rfl, rfl,
    verticalGroups_ring t, verticalGroups_rstart t,
    (horizontalGroups_ring y _).trans (verticalGroups_ring t),
    (horizontalGroups_rstart y _).trans (verticalGroups_rstart t), hring, hnext.rstart⟩

end Sys2Proof.Proofs
end

section
/-! SUPPORT. The filter commands side by side (R182, R215): one validation, and on its success one `DST`, whatever the
command. -/

namespace Sys2Proof.Machine

/-- A command that passes validation keeps `ERR` and `ERRCODE` and sets `DONE` (R249). -/
theorem runBody_status_ok {i : Instr} {s : State} {l : Latch} (hc : (bodyOf i).check s = .ok l) :
    (runBody (bodyOf i) s).status = statusEnded s.status := by
  have henter : (enter (bodyOf i) l s).status = s.status := (congrArg State.status (control_start i _) :)
  rw [runBody_ok hc, finish, endOk_status, doneLoops_const State.status
    (fun k t => (congrArg State.status (control_fill i k t) :))
    (fun k t => (congrArg State.status (control_row i k t) :)) (fun _ _ => rfl), henter]

/-- The three filter commands validate alike (R245). -/
theorem check_filter_eq_validateFilter {i : Instr} {r : Int} (hi : isFilter i r) (s : State) :
    (bodyOf i).check s = validateFilter r s := by
  rcases hi with rfl | rfl | rfl <;> rfl

/-- `t` and `u` show the same outcome of a filter command: `STATUS`, the result registers and the content of `DST`. -/
structure SameFiltered (t u : State) : Prop where
  status : u.status = t.status
  outW   : u.outW = t.outW
  outH   : u.outH = t.outH
  dst    : ∀ a, u.dst.read a = t.dst.read a

section Agree

variable {i j : Instr} {s : State}

/-- On a legal image two filter commands of one radius write the same output rows (R170, R177, R208). -/
theorem sameFiltered_of_legal {r : Nat} (hi : isFilter i r) (hj : isFilter j r) (hr : r ≤ 7) (himg : LegalImage s) :
    SameFiltered (runBody (bodyOf i) s) (runBody (bodyOf j) s) := by
  obtain ⟨houtW, houtH⟩ := dims_runBody_filter hi hr himg
  obtain ⟨houtW', houtH'⟩ := dims_runBody_filter hj hr himg
  have hl := filterLatch_latchedOperands hr s
  refine ⟨?_, houtW'.trans houtW.symm, houtH'.trans houtH.symm, fun a => ?_⟩
  · rw [runBody_status_ok (check_filter hi hr himg), runBody_status_ok (check_filter hj hr himg)]
  · rw [runBody_filter hi hr himg, runBody_filter hj hr himg, finish, finish, endOk_dst, endOk_dst,
      doneLoops_dst hi hl, doneLoops_dst hj hl]

/-- Two filter commands of one radius end with the same outcome, the error ends included (R182, R215). -/
theorem sameFiltered_runBody {r : Int} (hi : isFilter i r) (hj : isFilter j r) (s : State) :
    SameFiltered (runBody (bodyOf i) s) (runBody (bodyOf j) s) := by
  cases hc : validateFilter r s with
  | error kind =>
    have herror {k : Instr} (hk : isFilter k r) : runBody (bodyOf k) s = raiseErr kind s :=
      runBody_error ((check_filter_eq_validateFilter hk s).trans hc)
    rw [herror hi, herror hj]
    exact ⟨rfl, rfl, rfl, fun _ => rfl⟩
  | ok l =>
    obtain ⟨h0, h7, hheight, hwidth, hrows, -⟩ := validateFilter_ok hc
    lift r to Nat using h0
    exact sameFiltered_of_legal hi hj (by omega) ⟨hheight, hwidth, hrows⟩

end Agree

end Sys2Proof.Machine

namespace Sys2Proof.Proofs

open Sys2Proof Sys2Proof.Machine

/-- Settles O27: `FSEP` and `FVEC` each against `FNAIVE`. -/
theorem filtersAreBitIdentical : Obligations.FiltersAreBitIdentical := by
  intro r s
  have hnaive : isFilter (.fnaive r) r := .inl rfl
  have hsep := sameFiltered_runBody hnaive (.inr (.inl rfl) : isFilter (.fsep r) r) s
  have hvec := sameFiltered_runBody hnaive (.inr (.inr rfl) : isFilter (.fvec r) r) s
  exact ⟨_, _, _, exec_eq _ s, exec_eq _ s, exec_eq _ s, hsep.status, hvec.status, hsep.outW, hvec.outW,
    hsep.outH, hvec.outH, hsep.dst, hvec.dst⟩

end Sys2Proof.Proofs
end

section
/-! SUPPORT. The number of lanes (R216): every command but `FVEC` runs as if the parameter were not there, and `FVEC` ends
as `FSEP` does. -/

namespace Sys2Proof.Machine

/-- The state `s` with another `LOG2G` (R12). -/
def withLog2g (g : Fin 9) (s : State) : State := { s with params := { s.params with log2g := g } }

section Lanes

variable (g : Fin 9)

/-- Validation does not read `LOG2G` (R137, R138, R245). -/
theorem check_withLog2g (i : Instr) (s : State) : (bodyOf i).check (withLog2g g s) = (bodyOf i).check s := by
  cases i <;> rfl

theorem enter_withLog2g (i : Instr) (l : Latch) (s : State) :
    enter (bodyOf i) l (withLog2g g s) = withLog2g g (enter (bodyOf i) l s) := by
  cases i <;> rfl

theorem leaveFills_withLog2g (i : Instr) (s : State) :
    leaveFills (bodyOf i) (withLog2g g s) = withLog2g g (leaveFills (bodyOf i) s) := by
  cases i <;> rfl

theorem fillStage_withLog2g (i : Instr) (k : Nat) (s : State) :
    fillStage (bodyOf i) k (withLog2g g s) = withLog2g g (fillStage (bodyOf i) k s) := by
  cases i <;> rfl

/-- The row iterations of the commands that have no lanes (R151, R171). -/
theorem rowStage_withLog2g {i : Instr} (hi : ∀ r, i ≠ .fvec r) (y : Nat) (s : State) :
    rowStage (bodyOf i) y (withLog2g g s) = withLog2g g (rowStage (bodyOf i) y s) := by
  cases i with
  | fvec r => exact absurd rfl (hi r)
  | _ => rfl

theorem finish_withLog2g (i : Instr) (s : State) :
    finish (bodyOf i) (withLog2g g s) = withLog2g g (finish (bodyOf i) s) := by
  cases i <;> rfl

theorem loop_withLog2g {f : Nat → State → State} (hf : ∀ k t, f k (withLog2g g t) = withLog2g g (f k t)) (n : Nat)
    (s : State) : loop f n (withLog2g g s) = withLog2g g (loop f n s) :=
  (loop_commutes (withLog2g g) (fun _ _ => True) trivial fun k t _ _ => ⟨trivial, (hf k t).symm⟩).symm

/-- A command without lanes ends alike whatever `LOG2G` is. -/
theorem runBody_withLog2g {i : Instr} (hi : ∀ r, i ≠ .fvec r) (s : State) :
    runBody (bodyOf i) (withLog2g g s) = withLog2g g (runBody (bodyOf i) s) := by
  have hcheck := check_withLog2g g i s
  cases hc : (bodyOf i).check s with
  | error kind =>
    rw [runBody_error hc, runBody_error (hcheck.trans hc)]
    rfl
  | ok l =>
    rw [runBody_ok hc, runBody_ok (hcheck.trans hc), doneLoops, doneLoops, enter_withLog2g,
      loop_withLog2g g (fillStage_withLog2g g i), leaveFills_withLog2g,
      loop_withLog2g g (rowStage_withLog2g g hi), finish_withLog2g]

/-- `FVEC` ends with one outcome whatever `LOG2G` is: that of `FSEP` (R215). -/
theorem sameFiltered_fvec_withLog2g (r : Int) (s : State) :
    SameFiltered (runBody (bodyOf (.fvec r)) s) (runBody (bodyOf (.fvec r)) (withLog2g g s)) := by
  have hsep (t : State) : SameFiltered (runBody (bodyOf (.fsep r)) t) (runBody (bodyOf (.fvec r)) t) :=
    sameFiltered_runBody (.inr (.inl rfl)) (.inr (.inr rfl)) t
  have hs := hsep s
  have hg := hsep (withLog2g g s)
  rw [runBody_withLog2g g (i := .fsep r) fun _ => nofun] at hg
  exact ⟨hg.status.trans hs.status.symm, hg.outW.trans hs.outW.symm, hg.outH.trans hs.outH.symm,
    fun a => (hg.dst a).trans (hs.dst a).symm⟩

end Lanes

end Sys2Proof.Machine
end

section
/-! SUPPORT. The groups of a pass, one by one (R203 to R205). -/

namespace Sys2Proof.Machine

/-- The offsets of the aligned groups: the multiples of `g` from which `g` columns fit into the row (R203). -/
theorem exists_alignedGroup_iff {g n o : Nat} (hg : 0 < g) :
    (∃ i, i < n / g ∧ i * g = o) ↔ o % g = 0 ∧ o + g ≤ n := by
  have hfits (i : Nat) : i < n / g ↔ i * g + g ≤ n := by
    rw [← Nat.succ_mul, ← Nat.le_div_iff_mul_le hg, Nat.succ_le_iff]
  constructor
  · rintro ⟨i, hi, rfl⟩
    exact ⟨Nat.mul_mod_left i g, (hfits i).1 hi⟩
  · rintro ⟨hmod, hle⟩
    have ho := Nat.div_mul_cancel (Nat.dvd_of_mod_eq_zero hmod)
    exact ⟨o / g, (hfits _).2 (ho.symm ▸ hle), ho⟩

/-- A row of fewer columns than lanes is one masked group (R205). -/
theorem mem_groups_of_lt {g n : Nat} (h : n < g) {o a : Nat} : (o, a) ∈ groups g n ↔ o = 0 ∧ a = n := by
  simp [groups, h]

/-- A longer row is its aligned groups and, when they leave columns over, the group of the last `g` (R203, R204). -/
theorem mem_groups_of_le {g n : Nat} (hg : 0 < g) (h : g ≤ n) {o a : Nat} :
    (o, a) ∈ groups g n ↔ a = g ∧ ((o % g = 0 ∧ o + g ≤ n) ∨ (n % g ≠ 0 ∧ o + g = n)) := by
  have haligned : (o, a) ∈ (List.range (n / g)).map (fun i => (i * g, g)) ↔ a = g ∧ o % g = 0 ∧ o + g ≤ n := by
    rw [← exists_alignedGroup_iff hg]
    simp only [List.mem_map, List.mem_range, Prod.mk.injEq, eq_comm (a := g)]
    tauto
  have hoffset : o = n - g ↔ o + g = n := by omega
  have hanchored : (o, a) ∈ (if n % g = 0 then [] else [(n - g, g)]) ↔ a = g ∧ n % g ≠ 0 ∧ o + g = n := by
    split
    · next hmod => simp [hmod]
    · next hmod => simp [hmod, hoffset, and_comm]
  rw [groups, if_neg (Nat.not_lt.2 h), List.mem_append, haligned, hanchored, and_or_left]

end Sys2Proof.Machine

namespace Sys2Proof.Proofs

open Sys2Proof Sys2Proof.Machine

/-- Settles O28: only `FVEC` has lanes, and it ends as `FSEP`, which has none. -/
theorem noResultDependsOnTheLaneWidth : Obligations.NoResultDependsOnTheLaneWidth := by
  intro i s g
  refine ⟨_, _, exec_eq i s, exec_eq i (withLog2g g s), ?_⟩
  by_cases hi : ∃ r, i = .fvec r
  · obtain ⟨r, rfl⟩ := hi
    have hvec : isFilter (.fvec r) r := .inr (.inr rfl)
    obtain ⟨hext, helen⟩ := Prod.ext_iff.1 (extensions_runBody_filter hvec s)
    obtain ⟨hext', helen'⟩ := Prod.ext_iff.1 (extensions_runBody_filter hvec (withLog2g g s))
    obtain ⟨hstatus, houtW, houtH, hdst⟩ := sameFiltered_fvec_withLog2g g r s
    exact ⟨hstatus, houtW, houtH, hdst, fun a => congrArg (Mem.read · a) (hext'.trans hext.symm),
      fun a => congrArg (Mem.read · a) (helen'.trans helen.symm)⟩
  · rw [runBody_withLog2g g (not_exists.1 hi)]
    exact ⟨rfl, rfl, rfl, fun _ => rfl, fun _ => rfl, fun _ => rfl⟩

/-- Settles O34: `groups_cover`, and the groups one by one on either side of `n = g`. -/
theorem groupsCoverTheRow : Obligations.GroupsCoverTheRow := by
  intro g n hg _
  obtain ⟨hin, hcover⟩ := groups_cover (n := n) hg
  refine ⟨fun o a => ?_, fun e => ⟨fun he => ?_, ?_⟩⟩
  · rcases Nat.lt_or_ge n g with h | h
    · simp [mem_groups_of_lt h, h, Nat.not_le.2 h]
    · simp [mem_groups_of_le hg h, h, Nat.not_lt.2 h]
  · obtain ⟨⟨o, a⟩, hmem, hrange⟩ := hcover e he
    exact ⟨o, a, hmem, hrange⟩
  · rintro ⟨o, a, hmem, -, hlt⟩
    exact hlt.trans_le (hin _ hmem).1

/-- Settles O35: what a group writes is what the scalar pass writes there, and the groups cover the row. -/
theorem groupedPassesEqualScalarPasses : Obligations.GroupedPassesEqualScalarPasses := by
  constructor
  · intro s
    obtain ⟨mid, acc, h, hread⟩ := verticalGroups_spec s
    rw [h]
    exact hread
  · intro s y
    obtain ⟨dst, acc, h, hread⟩ := horizontalGroups_spec y s
    rw [h]
    exact hread

end Sys2Proof.Proofs
end

section
/-! SUPPORT. The stages of a command come to an end: how many remain at most, what they leave alone until then, and that
it is one end state whatever their number (R249, R296, R297). -/

namespace Sys2Proof.Machine

/-! A run of stages that has reached an idle sequencer stands still. -/

theorem stageBody_of_idle {b : CommandBody} {s : State} (h : s.seq.phase = .idle) : stageBody b s = s := by
  simp [stageBody, h]

theorem loop_of_fixed {σ : Type} {f : σ → σ} {s : σ} (h : f s = s) (n : Nat) : loop (fun _ => f) n s = s :=
  loop_induct (f := fun _ => f) (fun _ t => t = s) rfl fun _ _ _ ht => ht ▸ h

theorem stages_eq_of_idle_of_le {b : CommandBody} {s : State} {m n : Nat} (hmn : m ≤ n)
    (hm : (loop (fun _ => stageBody b) m s).seq.phase = .idle) :
    loop (fun _ => stageBody b) n s = loop (fun _ => stageBody b) m s := by
  obtain ⟨d, rfl⟩ := Nat.exists_eq_add_of_le hmn
  rw [loop_add, loop_of_fixed (stageBody_of_idle hm)]

/-- Two numbers of stages that both reach an idle sequencer reach the same state. -/
theorem stages_eq_of_idle {b : CommandBody} {s : State} {m n : Nat}
    (hm : (loop (fun _ => stageBody b) m s).seq.phase = .idle)
    (hn : (loop (fun _ => stageBody b) n s).seq.phase = .idle) :
    loop (fun _ => stageBody b) m s = loop (fun _ => stageBody b) n s := by
  rcases Nat.le_total m n with h | h
  · exact (stages_eq_of_idle_of_le h hm).symm
  · exact stages_eq_of_idle_of_le h hn

/-! The first stage: validation (R243). -/

theorem stageBody_check_error {b : CommandBody} {s : State} {kind : ErrKind} (hp : s.seq.phase = .check)
    (hc : b.check s = .error kind) : stageBody b s = raiseErr kind s := by
  simp [stageBody, hp, hc]

theorem stageBody_check_ok {b : CommandBody} {s : State} {l : Latch} (hp : s.seq.phase = .check)
    (hc : b.check s = .ok l) : stageBody b s = enter b l s := by
  simp [stageBody, hp, hc]

theorem enter_seq (i : Instr) (l : Latch) (s : State) : (enter (bodyOf i) l s).seq = { phase := .fill, y := 0 } :=
  (congrArg State.seq (control_enter i l s) :)

theorem enter_latch (i : Instr) (l : Latch) (s : State) : (enter (bodyOf i) l s).latch = l :=
  (congrArg State.latch (control_enter i l s) :)

/-! The stages of the loops. -/

/-- The sequencer is in one of the two loops (R52). -/
def InLoop (s : State) : Prop := s.seq.phase = .fill ∨ s.seq.phase = .row

theorem fillStage_latch (i : Instr) (k : Nat) (s : State) : (fillStage (bodyOf i) k s).latch = s.latch :=
  (congrArg State.latch (control_fillStage i k s) :)

theorem rowStage_latch (i : Instr) (y : Nat) (s : State) : (rowStage (bodyOf i) y s).latch = s.latch :=
  (congrArg State.latch (control_rowStage i y s) :)

theorem stagesLeft_pos (b : CommandBody) {s : State} (h : InLoop s) : 0 < stagesLeft b s := by
  rcases h with hp | hp <;> simp [stagesLeft, hp]

/-- Every stage in a loop ends the command or brings its end nearer (R297). -/
theorem stageBody_progress (i : Instr) {s : State} (h : InLoop s) :
    (stageBody (bodyOf i) s).seq = { phase := .idle, y := 0 } ∨
      InLoop (stageBody (bodyOf i) s) ∧
        stagesLeft (bodyOf i) (stageBody (bodyOf i) s) < stagesLeft (bodyOf i) s := by
  rcases stageBody_cases (bodyOf i) s with ⟨hp, -⟩ | ⟨_, hp, -⟩ | ⟨_, hp, -⟩ | ⟨hp, hy, he⟩ | ⟨hp, -, -, he⟩ |
    ⟨-, -, -, he⟩ | ⟨hp, hy, he⟩ | ⟨-, -, he⟩
  · simp [InLoop, hp] at h
  · simp [InLoop, hp] at h
  · simp [InLoop, hp] at h
  · refine .inr (he ▸ ⟨.inl rfl, ?_⟩)
    simp only [stagesLeft, fillStage_seq, fillStage_latch, hp]
    omega
  · refine .inr (he ▸ ⟨.inr rfl, ?_⟩)
    simp only [stagesLeft, toRows_seq, toRows_latch, hp]
    omega
  · exact .inl (he ▸ rfl)
  · refine .inr (he ▸ ⟨.inr rfl, ?_⟩)
    simp only [stagesLeft, rowStage_seq, rowStage_latch, hp]
    omega
  · exact .inl (he ▸ rfl)

/-- `stagesLeft` bounds what remains of a command whose loops have begun (R297). -/
theorem stages_idle (i : Instr) {s : State} (h : InLoop s) :
    (loop (fun _ => stageBody (bodyOf i)) (stagesLeft (bodyOf i) s) s).seq = { phase := .idle, y := 0 } := by
  refine (loop_induct (f := fun _ => stageBody (bodyOf i)) (n := stagesLeft (bodyOf i) s) (s := s)
    (fun k t => t.seq = { phase := .idle, y := 0 } ∨ InLoop t ∧ stagesLeft (bodyOf i) t + k ≤ stagesLeft (bodyOf i) s)
    (.inr ⟨h, Nat.le_refl _⟩) fun k t _ ht => ?_).resolve_right ?_
  · rcases ht with hidle | ⟨hin, hleft⟩
    · exact .inl (by rw [stageBody_of_idle (by rw [hidle]), hidle])
    · exact (stageBody_progress i hin).imp_right fun ⟨hin', hlt⟩ => ⟨hin', by omega⟩
  · rintro ⟨hin, hleft⟩
    have hpos := stagesLeft_pos (bodyOf i) hin
    omega

/-! The number of stages of a command, from acceptance on. -/

/-- The iterations that a command latches, for operands an encoding can carry: the worst is `EXT2D` with a vertical
margin of 127. -/
theorem fills_add_rows_le {i : Instr} {s : State} {l : Latch} (hwf : i.WellFormed) (hc : (bodyOf i).check s = .ok l) :
    (bodyOf i).fills l + (bodyOf i).rows l ≤ 2 * s.height.toNat + 254 := by
  cases i with
  | ext1d margin =>
    show 1 + 0 ≤ _
    omega
  | ext2d hMargin vMargin =>
    obtain ⟨-, -, hvm⟩ := hwf
    obtain rfl := ext2dCheck_ok hc
    show s.height.toNat + 2 * vMargin.toNat + 0 ≤ _
    omega
  | fnaive r =>
    obtain ⟨-, hr, -, -, -, rfl⟩ := validateFilter_ok hc
    show s.height.toNat + 2 * r.toNat + s.height.toNat ≤ _
    omega
  | fsep r | fvec r =>
    obtain ⟨-, hr, -, -, -, rfl⟩ := validateFilter_ok hc
    show 2 * r.toNat + 1 - 1 + s.height.toNat ≤ _
    omega

/-- An accepted command is at its end after a bounded number of stages (R297). -/
theorem exists_stages_idle {i : Instr} {s : State} (hwf : i.WellFormed) (hp : s.seq.phase = .check) :
    ∃ n, n ≤ 2 * s.height.toNat + 257 ∧ (loop (fun _ => stageBody (bodyOf i)) n s).seq.phase = .idle := by
  cases hc : (bodyOf i).check s with
  | error kind =>
    refine ⟨1, by omega, ?_⟩
    rw [loop_succ, loop_zero, stageBody_check_error hp hc, raiseErr_seq]
  | ok l =>
    have hiter := fills_add_rows_le hwf hc
    refine ⟨1 + stagesLeft (bodyOf i) (enter (bodyOf i) l s), ?_, ?_⟩
    · simp only [stagesLeft, enter_seq, enter_latch]
      omega
    · rw [loop_add, loop_succ, loop_zero, stageBody_check_ok hp hc, stages_idle i (.inl (by rw [enter_seq]))]

/-- A number of stages after which an accepted command is at its end has run the whole command (R296). -/
theorem stages_eq_runBody {i : Instr} {s : State} (hp : s.seq.phase = .check) {n : Nat}
    (hn : (loop (fun _ => stageBody (bodyOf i)) n s).seq.phase = .idle) :
    loop (fun _ => stageBody (bodyOf i)) n s = runBody (bodyOf i) s := by
  obtain ⟨m, hm⟩ := runBody_stages i hp
  rw [hm]
  exact stages_eq_of_idle hn (by rw [← hm, runBody_seq])

/-! What the stages leave alone until the end. -/

/-- The state with everything erased that a stage may change without ending the command. -/
def keptUntilEnd (s : State) : State :=
  { control s with latch := Latch.reset, seq := { phase := .idle, y := 0 } }

theorem stageBody_kept (i : Instr) (s : State) :
    (stageBody (bodyOf i) s).seq.phase = .idle ∨ keptUntilEnd (stageBody (bodyOf i) s) = keptUntilEnd s := by
  rcases stageBody_cases (bodyOf i) s with ⟨hp, he⟩ | ⟨_, -, -, he⟩ | ⟨l, -, -, he⟩ | ⟨-, -, he⟩ | ⟨-, -, -, he⟩ |
    ⟨-, -, -, he⟩ | ⟨-, -, he⟩ | ⟨-, -, he⟩ <;> rw [he]
  · exact .inl hp
  · exact .inl rfl
  · exact .inr (by rw [keptUntilEnd, control_enter]; rfl)
  · exact .inr (by rw [keptUntilEnd, control_fillStage]; rfl)
  · exact .inr rfl
  · exact .inl rfl
  · exact .inr (by rw [keptUntilEnd, control_rowStage]; rfl)
  · exact .inl rfl

theorem stages_kept (i : Instr) (s : State) (n : Nat)
    (hn : (loop (fun _ => stageBody (bodyOf i)) n s).seq.phase ≠ .idle) :
    keptUntilEnd (loop (fun _ => stageBody (bodyOf i)) n s) = keptUntilEnd s := by
  refine (loop_induct (f := fun _ => stageBody (bodyOf i)) (n := n) (s := s)
    (fun _ t => t.seq.phase = .idle ∨ keptUntilEnd t = keptUntilEnd s) (.inr rfl) fun _ t _ ht => ?_).resolve_left hn
  rcases ht with hidle | hkept
  · exact .inl (by rw [stageBody_of_idle hidle, hidle])
  · exact (stageBody_kept i t).imp_right (·.trans hkept)

end Sys2Proof.Machine

namespace Sys2Proof.Proofs

open Sys2Proof Sys2Proof.Machine

/-- Settles O9: `n` is the first number of stages after which the sequencer is idle. -/
theorem stagesReachTheWholeCommand : Obligations.StagesReachTheWholeCommand := by
  rintro i s t ⟨hd, hstatus, hseq⟩ ht
  have hp : s.seq.phase = .check := by rw [hseq]
  obtain rfl : runBody (bodyOf i) s = t := Host.Outcome.next.inj ((exec_eq i s).symm.trans ht)
  obtain ⟨N, hN, hidle⟩ := exists_stages_idle (wellFormed_of_decode hd) hp
  have hends : ∃ n, (loop (fun _ => stageBody (bodyOf i)) n s).seq.phase = .idle := ⟨N, hidle⟩
  refine ⟨Nat.find hends, (Nat.find_min' hends hidle).trans hN, ?_, fun k hk => ?_⟩
  · rw [engineStages_eq hd, stages_eq_runBody hp (Nat.find_spec hends)]
  · have hkept := stages_kept i s k (Nat.find_min hends hk)
    rw [engineStages_eq hd]
    exact ⟨(congrArg State.status hkept :).trans hstatus, (congrArg State.outW hkept :), (congrArg State.outH hkept :),
      (congrArg State.height hkept :), (congrArg State.cmd hkept :), (congrArg State.params hkept :)⟩

end Sys2Proof.Proofs
end

section
/-! SUPPORT. The engine's turn: the step of an engine in progress, for one stage or for all that remains, and where it
ends (R243, R296; log entry 8). -/

namespace Sys2Proof.Machine

/-! The engine has the step. -/

theorem blockFirst_engine {s : State} (h : engineReady s = true) (m : Move) : blockFirst m s = m := by
  simp [blockFirst, h]

/-- With an empty schedule, or the turn for the whole command, the step of an engine in progress is all that remains of
its command. -/
theorem step_command {s : State} (h : engineReady s = true)
    (hturn : s.schedule.head? = none ∨ s.schedule.head? = some .command) : step s = engineCommand (popTurn s) := by
  have hm : nextMove s = .command := by
    unfold nextMove
    split
    · exact blockFirst_engine h _
    · exact blockFirst_engine h _
    · next hs => simp [hs] at hturn
    · next hs => simp [hs] at hturn
  rw [step, hm, makeMove]

theorem step_stage {s : State} (h : engineReady s = true) (hturn : s.schedule.head? = some .stage) :
    step s = .next (engineStage (popTurn s)) := by
  have hm : nextMove s = .stage := by
    unfold nextMove
    split
    · next hs => simp [hs] at hturn
    · next hs => simp [hs] at hturn
    · exact blockFirst_engine h _
    · next hs => simp [hs] at hturn
  rw [step, hm, makeMove]

theorem engineReady_of_phase {s : State} (h : s.seq.phase ≠ .idle) : engineReady s = true := by
  simpa [engineReady] using h

/-! What the engine's command is, by phase. -/

theorem engineCommand_check {s : State} {i : Instr} (hd : decode s.cmd = .ok i) (hp : s.seq.phase = .check) :
    engineCommand s = exec i s := by
  simp [engineCommand, hd, hp]

theorem engineCommand_inLoop {s : State} {i : Instr} (hd : decode s.cmd = .ok i) (h : InLoop s) :
    engineCommand s = .next (resumeBody (bodyOf i) s) := by
  rcases h with hp | hp <;> simp [engineCommand, hd, hp]

/-- All that remains of a command whose loops have begun, as stages of the engine. -/
theorem resumeBody_eq_stages {s : State} {i : Instr} (hd : decode s.cmd = .ok i) :
    resumeBody (bodyOf i) s = loop (fun _ => engineStage) (stagesLeft (bodyOf i) s) s :=
  (engineStages_eq hd _).symm

/-- After the engine's turn for all that remains, the sequencer is idle (R249, R250, R297). -/
theorem engineCommand_seq {s t : State} (hready : engineReady s = true) (h : engineCommand s = .next t) :
    t.seq = { phase := .idle, y := 0 } := by
  have hne : s.seq.phase ≠ .idle := by simpa [engineReady] using hready
  rcases engineCommand_cases s with ⟨-, he⟩ | ⟨i, -, ⟨hp, -⟩ | ⟨-, he⟩ | ⟨hp, he⟩⟩
  · exact Host.Outcome.next.inj (he.symm.trans h) ▸ rfl
  · exact absurd hp hne
  · exact Host.Outcome.next.inj (he.symm.trans h) ▸ runBody_seq _ s
  · exact Host.Outcome.next.inj (he.symm.trans h) ▸ stages_idle i hp

/-! The opcode table's words. -/

theorem tableWord_32 (w : Nat) : tableWord 32 w = BitVec.ofNat 32 w := by
  apply BitVec.eq_of_toNat_eq
  simp [tableWord]

theorem decode_of_decodeTableWord {w : Nat} {i : Instr} (h : decodeTableWord 32 w = some i) :
    decode (BitVec.ofNat 32 w) = .ok i := by
  rw [decodeTableWord, tableWord_32] at h
  split at h
  · next hd => rw [hd, Option.some.inj h]
  · cases h

end Sys2Proof.Machine

namespace Sys2Proof.Proofs

open Sys2Proof Sys2Proof.Machine

/-- Settles O8: the engine's first stage is validation, after the decoder. -/
theorem acceptanceOfACommand : Obligations.AcceptanceOfACommand := by
  refine fun c s => ⟨rfl, fun e hd => ?_, fun i kind hd hc => ?_, fun i l hd hc => ?_⟩
  · rcases engineStage_cases (accept c s) with ⟨hp, -⟩ | ⟨-, -, he⟩ | ⟨-, i, hi, -⟩
    · cases hp
    · exact he
    · cases hd.symm.trans hi
  · exact (engineStage_eq_stageBody (s := accept c s) hd).trans (stageBody_check_error rfl hc)
  · rw [engineStage_eq_stageBody (s := accept c s) hd, stageBody_check_ok rfl hc]
    exact ⟨enter_latch i l _, enter_seq i l _⟩

/-- Settles O7: the engine has the step in every clause; what it does with it goes by the phase. -/
theorem stepRunsTheDecodedCommand : Obligations.StepRunsTheDecodedCommand := by
  refine ⟨fun s i hd hp hturn => ?_, fun s w i hw => ?_, fun s hp hturn => ?_, fun s i hd hp hturn => ?_⟩
  · rw [step_command (engineReady_of_phase (by simp [hp])) hturn]
    exact engineCommand_check (s := popTurn s) hd hp
  · rw [State.withFetchWord, step_issued, tableWord_32]
    exact engineCommand_check (s := accept _ s) (decode_of_decodeTableWord hw) rfl
  · exact step_stage (engineReady_of_phase hp) hturn
  · have hready : engineReady s = true := engineReady_of_phase (by rcases hp with hp | hp <;> simp [hp])
    have hcommand := engineCommand_inLoop (s := popTurn s) hd hp
    rw [resumeBody_eq_stages (s := popTurn s) hd] at hcommand
    exact ⟨_, (step_command hready hturn).trans hcommand, engineCommand_seq (s := popTurn s) hready hcommand⟩

end Sys2Proof.Proofs
end

section
/-! SUPPORT. The life of `STATUS` (R252): what a host access and a stage of the engine make of it. And the agents: what
a performed action leaves of the script and of the held actions (R84, R299). -/

namespace Sys2Proof.Machine

/-! A host access performed. -/

/-- Of the register and sequencer changes a host access makes, only acceptance touches `STATUS` (R77, R243). -/
theorem perform_status {a : HostAction} {s t : State} (h : perform a s = .next t) :
    t.status = s.status ∨ t.status = 1 ∧ t.seq = { phase := .check, y := 0 } := by
  rcases perform_cases h with ⟨reg, v, -, rfl⟩ | ⟨-, v, rfl⟩ | ⟨y, x, v, -, -, rfl⟩ | ⟨y, v, -, -, rfl⟩ | rfl
  · rcases regWrite_cases reg v s with ⟨-, he⟩ | ⟨-, he⟩ | he <;> rw [he]
    · exact .inl rfl
    · exact .inr ⟨rfl, rfl⟩
    · exact .inl rfl
  all_goals exact .inl rfl

/-- A performed action leaves what is held and what the outside world is still to do. -/
theorem perform_agents {a : HostAction} {s t : State} (h : perform a s = .next t) :
    t.held = s.held ∧ t.script = s.script := by
  rcases perform_cases h with ⟨reg, v, -, rfl⟩ | ⟨-, v, rfl⟩ | ⟨y, x, v, -, -, rfl⟩ | ⟨y, v, -, -, rfl⟩ | rfl
  · rcases regWrite_cases reg v s with ⟨-, he⟩ | ⟨-, he⟩ | he <;> rw [he] <;> exact ⟨rfl, rfl⟩
  all_goals exact ⟨rfl, rfl⟩

theorem make_status {a : HostAction} {s t : State} (h : make a s = .next t) :
    t.status = s.status ∨ t.status = 1 ∧ t.seq = { phase := .check, y := 0 } := by
  rcases make_cases h with ⟨-, -, rfl⟩ | ⟨-, hp⟩
  · exact .inl rfl
  · exact perform_status hp

theorem make_script {a : HostAction} {s t : State} (h : make a s = .next t) : t.script = s.script := by
  rcases make_cases h with ⟨-, -, rfl⟩ | ⟨-, hp⟩
  · rfl
  · exact (perform_agents hp).2

/-- The outside world's move uses up an event of the script or resets the block, which counts it (R280): it is never
without effect. -/
theorem hostMove_ne {s : State} (h : hostReady s = true) : hostMove s ≠ .next s := by
  intro hm
  have hshorter (e : Event) (rest : List Event) (hs : s.script = e :: rest) : s.script ≠ rest := fun heq => by
    simp [hs] at heq
  rcases hostMove_cases hm with ⟨hs, -⟩ | ⟨rest, -, he⟩ | ⟨a, rest, hs, hmake⟩ | ⟨rest, hs, he⟩
  · simp [hostReady, hs] at h
  · exact absurd (congrArg State.epoch he :) (Nat.ne_of_lt (Nat.lt_succ_self _))
  · exact hshorter _ rest hs (make_script hmake)
  · exact hshorter _ rest hs (congrArg State.script he :)

/-- With nothing held, an outside world that cannot move has nothing left to do (R299). -/
theorem script_nil_of_hostReady_false {s : State} (hheld : s.held = []) (hr : hostReady s = false) : s.script = [] := by
  have hp := portReady_false (.inr hheld)
  cases hs : s.script with
  | nil => rfl
  | cons e rest =>
    cases e with
    | act a => simp [hostReady_act hs hp] at hr
    | await => simp [hostReady_await hs, hp, awaiting, hheld] at hr
    | reset => simp [hostReady, hs] at hr

/-! A command's end. -/

/-- A command has ended: `BUSY = 0`, `DONE = 1`, the sequencer idle (R249, R250). -/
structure Ended (s : State) : Prop where
  busy : s.busy = false
  done : statusDone s.status = true
  seq  : s.seq = { phase := .idle, y := 0 }

theorem ended_raiseErr (kind : ErrKind) (s : State) : Ended (raiseErr kind s) := by
  have hstatus : statusBusy (statusError kind) = false ∧ statusDone (statusError kind) = true := by
    cases kind <;> decide
  exact ⟨hstatus.1, hstatus.2, rfl⟩

theorem ended_endOk (w h : Word) {s : State} (hs : s.status = 1) : Ended (endOk w h s) := by
  have hstatus : (endOk w h s).status = 2 := by
    rw [endOk_status, hs]
    decide
  exact ⟨by rw [State.busy, hstatus]; decide, by rw [hstatus]; decide, rfl⟩

/-- A stage of a command in progress leaves `STATUS` at 1 or ends the command. -/
theorem stageBody_status (i : Instr) {s : State} (hs : s.status = 1) :
    (stageBody (bodyOf i) s).status = 1 ∨ Ended (stageBody (bodyOf i) s) := by
  rcases stageBody_cases (bodyOf i) s with ⟨-, he⟩ | ⟨kind, -, -, he⟩ | ⟨l, -, -, he⟩ | ⟨-, -, he⟩ | ⟨-, -, -, he⟩ |
    ⟨-, -, -, he⟩ | ⟨-, -, he⟩ | ⟨-, -, he⟩ <;> rw [he]
  · exact .inl hs
  · exact .inr (ended_raiseErr kind s)
  · exact .inl ((congrArg State.status (control_enter i l s) :).trans hs)
  · exact .inl ((congrArg State.status (control_fillStage i _ s) :).trans hs)
  · exact .inl hs
  · exact .inr (ended_endOk _ _ hs)
  · exact .inl ((congrArg State.status (control_rowStage i _ s) :).trans hs)
  · exact .inr (ended_endOk _ _ hs)

theorem engineStage_of_idle {s : State} (h : s.seq.phase = .idle) : engineStage s = s := by
  simp [engineStage, h]

theorem engineStage_status {s : State} (hs : s.status = 1 ∨ Ended s) :
    (engineStage s).status = 1 ∨ Ended (engineStage s) := by
  rcases hs with hs | hs
  · rcases engineStage_cases s with ⟨-, he⟩ | ⟨-, -, he⟩ | ⟨-, i, -, he⟩ <;> rw [he]
    · exact .inl hs
    · exact .inr (ended_raiseErr _ s)
    · exact stageBody_status i hs
  · rw [engineStage_of_idle (by rw [hs.seq])]
    exact .inr hs

/-- A step of an engine in progress, whichever turn it has. -/
theorem engine_status {s t : State} (h : Inv s) (hready : engineReady s = true)
    (ht : t = engineStage s ∨ engineCommand s = .next t) : t.status = 1 ∨ Ended t :=
  engine_keeps (P := fun u => u.status = 1 ∨ Ended u) (fun _ => engineStage_status) hready
    (.inl (h.status_of_running (by simpa [engineReady] using hready))) ht

end Sys2Proof.Machine

namespace Sys2Proof.Proofs

open Sys2Proof Sys2Proof.Machine

/-- Settles O11: by whose move the step is. -/
theorem lifeOfTheFlags : Obligations.LifeOfTheFlags := by
  refine fun s t hinv hstep => ⟨(stepKeepsTheInvariant s t hinv hstep).status, ?_⟩
  have hengine (hready : engineReady s = true)
      (ht : t = engineStage (popTurn s) ∨ engineCommand (popTurn s) = .next t) :
      t.status = s.status ∨ s.busy = true ∧ t.busy = false ∧ statusDone t.status = true ∧
        t.seq = { phase := .idle, y := 0 } := by
    have hrunning : s.seq.phase ≠ .idle := by simpa [engineReady] using hready
    rcases engine_status hinv.popTurn hready ht with hs | hend
    · exact .inl (hs.trans (hinv.status_of_running hrunning).symm)
    · exact .inr ⟨hinv.busy.2 hrunning, hend.busy, hend.done, hend.seq⟩
  rcases step_cases hstep with ⟨-, hm⟩ | ⟨hr, ht⟩ | ⟨hr, ht⟩ | ⟨-, a, rest, -, -, hp⟩ | ⟨-, -, -, rfl⟩
  · rcases hostMove_cases hm with ⟨-, rfl⟩ | ⟨rest, hs, rfl⟩ | ⟨a, rest, -, hmake⟩ | ⟨rest, -, rfl⟩
    · exact .inl rfl
    · exact .inr (.inr (.inr ⟨rfl, by rw [← popTurn_script, hs]; rfl⟩))
    · exact (make_status hmake).imp_right .inl
    · exact .inl rfl
  · exact (hengine hr (.inl ht)).imp_right (.inr ∘ .inl)
  · exact (hengine hr (.inr ht)).imp_right (.inr ∘ .inl)
  · exact (perform_status hp).imp_right .inl
  · exact .inl rfl

/-- Settles O12: when the run is over nobody can move; and every move there is changes something. -/
theorem runIsOverWhenNothingMoves : Obligations.RunIsOverWhenNothingMoves := by
  refine ⟨fun s hinv ⟨hscript, hheld, hb⟩ => ?_, fun s hinv hsched hstep => ?_⟩
  · have hm : nextMove s = .rest := by
      rcases nextMove_cases s with ⟨-, h⟩ | ⟨-, h⟩ | ⟨-, -, h⟩ | ⟨h, -⟩
      · simp [hostReady, hscript] at h
      · simp [hinv.engineReady_false hb] at h
      · simp [portReady_false (.inr hheld)] at h
      · exact h
    rw [step, hm, makeMove]
  · have hpop : popTurn s = s := by rw [popTurn, hsched, List.tail_nil, ← hsched]
    have hidle : engineReady s = false := by
      by_contra hne
      have hready : engineReady s = true := by simpa using hne
      rw [step_command hready (.inl (by simp [hsched])), hpop] at hstep
      simp [engineReady, engineCommand_seq hready hstep] at hready
    rcases step_cases hstep with ⟨hr, hm⟩ | ⟨hr, -⟩ | ⟨hr, -⟩ | ⟨-, a, rest, hheld, -, hp⟩ | ⟨-, hp, hr, -⟩
    · exact (hostMove_ne hr (by rwa [hpop] at hm)).elim
    · simp [hidle] at hr
    · simp [hidle] at hr
    · have hrest := (perform_agents hp).1
      simp [hheld] at hrest
    · have hb : s.busy = false := by
        by_contra hne
        have hrunning := hinv.busy.1 (by simpa using hne)
        simp [engineReady, hrunning] at hidle
      have hheld : s.held = [] := by simpa [portReady, hb] using hp
      exact ⟨script_nil_of_hostReady_false hheld hr, hheld, hb⟩

end Sys2Proof.Proofs
end

section
/-! SUPPORT. Errors (R241, R245, R250, R251, R254): what each validation rejects, and how each outcome shows in
`STATUS`. -/

namespace Sys2Proof.Machine

/-! Validation of a filter command, check by check (R245). -/

section Validation

variable {r : Int} {s : State}

theorem validateFilter_invalidRadius (h : r < 0 ∨ 7 < r) : validateFilter r s = .error .invalidRadius := if_pos h

theorem validateFilter_emptyImage (h0 : 0 ≤ r) (h7 : r ≤ 7) (h : s.height.toNat = 0 ∨ slenAt s 0 = 0) :
    validateFilter r s = .error .emptyImage := by
  rw [validateFilter, if_neg (by omega), if_pos h]

theorem validateFilter_raggedImage (h0 : 0 ≤ r) (h7 : r ≤ 7) (hw : slenAt s 0 ≠ 0)
    (h : ∃ y, 1 ≤ y ∧ y < s.height.toNat ∧ slenAt s y ≠ slenAt s 0) : validateFilter r s = .error .raggedImage := by
  obtain ⟨y, hy, hyh, hne⟩ := h
  have hany : (List.range' 1 (s.height.toNat - 1)).any (fun y => slenAt s y != slenAt s 0) = true :=
    List.any_eq_true.2 ⟨y, List.mem_range'_1.2 (by omega), by simpa using hne⟩
  rw [validateFilter, if_neg (by omega), if_neg (by omega), if_pos hany]

/-- No filter command raises `InvalidInput` (R251). -/
theorem validateFilter_ne_invalidInput : validateFilter r s ≠ .error .invalidInput := by
  unfold validateFilter
  split
  · simp
  · split
    · simp
    · split <;> simp

end Validation

/-! `STATUS` after a command accepted with `STATUS` 1. -/

/-- The error kinds have different codes (R241). -/
theorem statusError_inj {kind kind' : ErrKind} : statusError kind = statusError kind' ↔ kind = kind' := by
  cases kind <;> cases kind' <;> decide

theorem statusError_ne_done (kind : ErrKind) : statusError kind ≠ 2 := by
  cases kind <;> decide

section Outcome

variable {i : Instr} {s : State}

theorem runBody_status_error {kind : ErrKind} (hc : (bodyOf i).check s = .error kind) :
    (runBody (bodyOf i) s).status = statusError kind := by
  rw [runBody_error hc, raiseErr_status]

/-- A command ends with the error of a kind exactly when its validation fails with it (R250). -/
theorem runBody_status_eq_error_iff (hs : s.status = 1) (kind : ErrKind) :
    (runBody (bodyOf i) s).status = statusError kind ↔ (bodyOf i).check s = .error kind := by
  refine ⟨fun h => ?_, runBody_status_error⟩
  cases hc : (bodyOf i).check s with
  | error kind' => rw [runBody_status_error hc, statusError_inj] at h; rw [h]
  | ok l => exact absurd ((runBody_status_done hc hs).symm.trans h) (statusError_ne_done kind).symm

/-- A command ends with `STATUS` 2 exactly when its validation passes (R249). -/
theorem runBody_status_eq_done_iff (hs : s.status = 1) :
    (runBody (bodyOf i) s).status = 2 ↔ ∃ l, (bodyOf i).check s = .ok l := by
  refine ⟨fun h => ?_, fun ⟨l, hc⟩ => runBody_status_done hc hs⟩
  cases hc : (bodyOf i).check s with
  | error kind => exact absurd ((runBody_status_error hc).symm.trans h) (statusError_ne_done kind)
  | ok l => exact ⟨l, rfl⟩

end Outcome

/-! The extender commands reject exactly what R137 and R138 name. -/

theorem ext1dCheck_error_iff {m : Int} {s : State} :
    ext1dCheck m s = .error .invalidInput ↔ m < 0 ∨ slenAt s 0 = 0 := by
  refine ⟨fun h => ?_, ext1dCheck_of_illegal⟩
  by_contra hlegal
  simp only [not_or, Int.not_lt] at hlegal
  cases (ext1dCheck_of_legal hlegal.1 hlegal.2).symm.trans h

theorem exists_ext1dCheck_ok_iff {m : Int} {s : State} :
    (∃ l, ext1dCheck m s = .ok l) ↔ 0 ≤ m ∧ slenAt s 0 ≠ 0 := by
  refine ⟨fun ⟨l, h⟩ => ?_, fun ⟨hm, hn⟩ => ⟨_, ext1dCheck_of_legal hm hn⟩⟩
  by_contra hillegal
  cases (ext1dCheck_of_illegal (by omega)).symm.trans h

/-- What is not illegal for `EXT2D` is a legal grid and margins that are not negative (R138). -/
theorem not_ext2d_illegal_iff {hm vm : Int} {s : State} :
    ¬ (s.height.toNat = 0 ∨ vm < 0 ∨ hm < 0 ∨ ∃ y, y < s.height.toNat ∧ slenAt s y = 0) ↔
      0 ≤ hm ∧ 0 ≤ vm ∧ LegalGrid s := by
  simp only [not_or, not_exists, not_and, Int.not_lt, LegalGrid]
  tauto

theorem ext2dCheck_error_iff {hm vm : Int} {s : State} :
    ext2dCheck hm vm s = .error .invalidInput ↔
      s.height.toNat = 0 ∨ vm < 0 ∨ hm < 0 ∨ ∃ y, y < s.height.toNat ∧ slenAt s y = 0 := by
  refine ⟨fun h => ?_, ext2dCheck_of_illegal⟩
  by_contra hlegal
  obtain ⟨hhm, hvm, hg⟩ := not_ext2d_illegal_iff.1 hlegal
  cases (ext2dCheck_of_legal hhm hvm hg).symm.trans h

theorem exists_ext2dCheck_ok_iff {hm vm : Int} {s : State} :
    (∃ l, ext2dCheck hm vm s = .ok l) ↔ 0 ≤ hm ∧ 0 ≤ vm ∧ LegalGrid s := by
  refine ⟨fun ⟨l, h⟩ => ?_, fun ⟨hhm, hvm, hg⟩ => ⟨_, ext2dCheck_of_legal hhm hvm hg⟩⟩
  rw [← not_ext2d_illegal_iff]
  intro hillegal
  cases (ext2dCheck_of_illegal hillegal).symm.trans h

end Sys2Proof.Machine

namespace Sys2Proof.Proofs

open Sys2Proof Sys2Proof.Machine

/-- Settles O13: the fields of `STATUS`, kind by kind. -/
theorem errorEnd : Obligations.ErrorEnd := by
  have hword (kind : ErrKind) : statusError kind = 0x6 ||| ((errCode kind).setWidth 32 <<< 4) := by
    cases kind <;> decide
  refine ⟨fun i s kind hc => ?_, fun _ => ⟨rfl, rfl, rfl, rfl, rfl⟩⟩
  rw [exec_error hc, raiseErr, hword]

/-- Settles O14: the validation the three filter commands share, and the operands it latches. -/
theorem filterValidationOrder : Obligations.FilterValidationOrder := by
  intro i r s hi
  have herror {kind : ErrKind} (hc : validateFilter r s = .error kind) : exec i s = .next (raiseErr kind s) :=
    exec_error ((check_filter_eq_validateFilter hi s).trans hc)
  refine ⟨fun h => herror (validateFilter_invalidRadius h), fun h0 h7 h => herror (validateFilter_emptyImage h0 h7 h),
    fun h0 h7 _ hw h => herror (validateFilter_raggedImage h0 h7 hw h), fun h0 h7 himg => ?_⟩
  lift r to Nat using h0
  obtain ⟨t, ht, hlatch⟩ := exec_latch (check_filter hi (by omega) himg)
  refine ⟨t, ht, ?_⟩
  rw [hlatch]
  exact ⟨rfl, by push_cast [latchedOperands]; rfl, rfl, rfl, rfl, Nat.one_le_iff_ne_zero.2 himg.2.1,
    maxW_of_lt (slenAt_lt s 0), Nat.one_le_iff_ne_zero.2 himg.1, maxH_of_lt⟩

/-- Settles O15: the outcome of each command by its validation. -/
theorem invalidInputIsTheExtendersError : Obligations.InvalidInputIsTheExtendersError := by
  have hrun {i : Instr} {s t : State} (ht : exec i s = .next t) : runBody (bodyOf i) s = t :=
    Host.Outcome.next.inj ((exec_eq i s).symm.trans ht)
  refine ⟨fun m s t hs ht => ?_, fun hm vm s t hs ht => ?_, fun i r s t hs hi ht h => ?_, fun c e s t hd ht => ?_⟩
  · rw [← hrun ht]
    exact ⟨(runBody_status_eq_error_iff hs .invalidInput).trans ext1dCheck_error_iff,
      (runBody_status_eq_done_iff hs).trans exists_ext1dCheck_ok_iff⟩
  · rw [← hrun ht]
    exact ⟨(runBody_status_eq_error_iff hs .invalidInput).trans ext2dCheck_error_iff,
      (runBody_status_eq_done_iff hs).trans exists_ext2dCheck_ok_iff⟩
  · rw [← hrun ht] at h
    have hc := (runBody_status_eq_error_iff hs .invalidInput).1 h
    exact validateFilter_ne_invalidInput ((check_filter_eq_validateFilter hi s).symm.trans hc)
  · obtain rfl := Host.Outcome.next.inj (ht.symm.trans (illegalWordsEndWithIllegalCommand.2.1 c e s hd))
    exact (by decide : (0x56 : Word) ≠ 0x16)

/-- Settles O16: a command that fails is the error end; one that runs its loops ends with `ERR = 0`. -/
theorem errorsArePrecise : Obligations.ErrorsArePrecise := by
  intro c s t hseq hstep herr
  have hend (kind : ErrKind) (ht : engineCommand (accept c s) = .next (raiseErr kind (accept c s))) :
      t = { s with cmd := c, status := t.status } := by
    obtain rfl := Host.Outcome.next.inj (hstep.symm.trans ht)
    rw [raiseErr, accept, ← hseq]
  rcases engineCommand_cases (accept c s) with ⟨-, he⟩ | ⟨i, -, ⟨hp, -⟩ | ⟨-, he⟩ | ⟨hp, -⟩⟩
  · exact hend _ he
  · cases hp
  · cases hc : (bodyOf i).check (accept c s) with
    | error kind => exact hend kind (by rw [he, runBody_error hc])
    | ok l =>
      obtain rfl := Host.Outcome.next.inj (hstep.symm.trans he)
      rw [runBody_status_done hc rfl] at herr
      exact absurd herr (by decide)
  · rcases hp with hp | hp <;> cases hp

end Sys2Proof.Proofs
end

section
/-! SUPPORT. What a command reads (R264, R284): two states that agree on the row count, the row lengths and the samples
of the source grid pass the same validation and end with the same result. -/

namespace Sys2Proof.Machine

/-- Two states have the same source grid: the row count, the row lengths, and the samples inside it (R284). -/
structure SameGrid (s u : State) : Prop where
  height  : s.height = u.height
  lengths : ∀ y, y < s.height.toNat → slenAt s y = slenAt u y
  samples : ∀ y x, y < s.height.toNat → x < slenAt s y → srcAt s y x = srcAt u y x

/-- All commands but `EXT1D` read the source grid. -/
theorem SameReadSet.sameGrid {i : Instr} {s u : State} (h : SameReadSet i s u) (hi : ∀ m, i ≠ .ext1d m) :
    SameGrid s u := by
  cases i with
  | ext1d m => exact absurd rfl (hi m)
  | _ =>
    obtain ⟨hheight, hlengths, hsamples⟩ := h
    exact ⟨hheight, hlengths, hsamples⟩

section Grid

variable {s u : State} (h : SameGrid s u)
include h

theorem SameGrid.legalGrid (hg : LegalGrid s) : LegalGrid u :=
  ⟨h.height ▸ hg.1, fun y hy => by
    rw [← h.height] at hy
    exact h.lengths y hy ▸ hg.2 y hy⟩

theorem SameGrid.legalImage (himg : LegalImage s) : LegalImage u := by
  obtain ⟨hheight, hwidth, hrows⟩ := himg
  have h0 := h.lengths 0 (Nat.pos_of_ne_zero hheight)
  refine ⟨h.height ▸ hheight, h0 ▸ hwidth, fun y hy hyh => ?_⟩
  rw [← h.height] at hyh
  rw [← h.lengths y hyh, ← h0, hrows y hy hyh]

/-- In a legal image every column below the width is inside its row. -/
theorem SameGrid.imageOf_eq (himg : LegalImage s) {y x : Nat} (hy : y < s.height.toNat) (hx : x < slenAt s 0) :
    imageOf s y x = imageOf u y x := by
  have hrow : slenAt s y = slenAt s 0 := by
    rcases Nat.eq_zero_or_pos y with rfl | hpos
    · rfl
    · exact himg.2.2 y hpos hy
  rw [imageOf, imageOf, h.samples y x hy (hrow ▸ hx)]

end Grid

/-! Validation. The latched operands aside, it answers alike. -/

theorem any_congr_of_mem {α : Type} {l : List α} {p q : α → Bool} (h : ∀ a ∈ l, p a = q a) : l.any p = l.any q := by
  rw [Bool.eq_iff_iff, List.any_eq_true, List.any_eq_true]
  exact exists_congr fun a => and_congr_right fun ha => by rw [h a ha]

theorem ext1dCheck_congr {m : Int} {s u : State} (h : slenAt s 0 = slenAt u 0) :
    (ext1dCheck m s).map (fun _ => ()) = (ext1dCheck m u).map fun _ => () := by
  simp only [ext1dCheck, h, apply_ite (Except.map _)]
  rfl

theorem ext2dCheck_congr {hm vm : Int} {s u : State} (h : SameGrid s u) :
    (ext2dCheck hm vm s).map (fun _ => ()) = (ext2dCheck hm vm u).map fun _ => () := by
  have hrows : (List.range s.height.toNat).any (fun y => slenAt s y == 0) =
      (List.range s.height.toNat).any (fun y => slenAt u y == 0) :=
    any_congr_of_mem fun y hy => by rw [h.lengths y (List.mem_range.1 hy)]
  simp only [ext2dCheck, ← h.height, hrows, apply_ite (Except.map _)]
  rfl

theorem validateFilter_congr {r : Int} {s u : State} (h : SameGrid s u) :
    (validateFilter r s).map (fun _ => ()) = (validateFilter r u).map fun _ => () := by
  by_cases hheight : s.height.toNat = 0
  · simp only [validateFilter, ← h.height, hheight, true_or, if_true, apply_ite (Except.map _)]
  · have h0 := h.lengths 0 (Nat.pos_of_ne_zero hheight)
    have hrows : (List.range' 1 (s.height.toNat - 1)).any (fun y => slenAt s y != slenAt s 0) =
        (List.range' 1 (s.height.toNat - 1)).any (fun y => slenAt u y != slenAt u 0) :=
      any_congr_of_mem fun y hy => by
        rw [h.lengths y (by have := List.mem_range'_1.1 hy; omega), h0]
    simp only [validateFilter, ← h.height, hrows, ← h0, apply_ite (Except.map _)]
    rfl

theorem check_congr_readSet {i : Instr} {s u : State} (h : SameReadSet i s u) :
    ((bodyOf i).check s).map (fun _ => ()) = ((bodyOf i).check u).map fun _ => () := by
  cases i with
  | ext1d m => exact ext1dCheck_congr h.1
  | ext2d hm vm => exact ext2dCheck_congr (h.sameGrid nofun)
  | fnaive r | fsep r | fvec r => exact validateFilter_congr (h.sameGrid nofun)

/-- `STATUS` after a command is a function of what it reads. -/
theorem runBody_status_congr {i : Instr} {s u : State} (hs : s.status = 1) (hu : u.status = 1)
    (h : SameReadSet i s u) : (runBody (bodyOf i) s).status = (runBody (bodyOf i) u).status := by
  have hcheck := check_congr_readSet h
  cases hcs : (bodyOf i).check s with
  | error kind =>
    cases hcu : (bodyOf i).check u with
    | error kind' =>
      rw [hcs, hcu] at hcheck
      cases hcheck
      rw [runBody_status_error hcs, runBody_status_error hcu]
    | ok m => rw [hcs, hcu] at hcheck; cases hcheck
  | ok l =>
    cases hcu : (bodyOf i).check u with
    | error kind => rw [hcs, hcu] at hcheck; cases hcheck
    | ok m => rw [runBody_status_done hcs hs, runBody_status_done hcu hu]

/-! The results of the extender commands. -/

theorem copiedFrom_lt {m n : Nat} (hn : n ≠ 0) (e : Nat) : copiedFrom m n e < n := by
  rw [← clampIndex_eq_copiedFrom]
  exact clampIndex_lt _ hn

/-- Two stores that hold the same rows extended by the same margin read alike. -/
theorem RowsExtended.congr {s u t v : State} {row : Nat → Nat} {m n : Nat} (hm : m ≤ 127)
    (ht : RowsExtended s row m n t) (hv : RowsExtended u row m n v) {j : Nat} (hj : j < n)
    (hpos : slenAt s (row j) ≠ 0) (hlen : slenAt s (row j) = slenAt u (row j))
    (hsrc : ∀ x, x < slenAt s (row j) → srcAt s (row j) x = srcAt u (row j) x) :
    elenAt t j = elenAt v j ∧ ∀ e, e < elenAt t j → extAt t j e = extAt v j e := by
  rw [ht.elenAt_eq hm hj, hv.elenAt_eq hm hj]
  refine ⟨by rw [hlen], fun e he => ?_⟩
  rw [extAt, extAt, readElem_some (ht.elements j e hj he), readElem_some (hv.elements j e hj (hlen ▸ he)), ← hlen,
    hsrc _ (copiedFrom_lt hpos e)]

theorem sameResult_ext1d {m : Int} {s u : State} (hwf : (Instr.ext1d m).WellFormed)
    (h : SameReadSet (.ext1d m) s u) (hm : 0 ≤ m) (hn : slenAt s 0 ≠ 0) :
    SameResult (.ext1d m) (runBody (ext1dBody m) s) (runBody (ext1dBody m) u) := by
  obtain ⟨-, hm127⟩ := hwf
  obtain ⟨hlen, hsrc⟩ := h
  lift m to Nat using hm
  have hm127 : m ≤ 127 := by omega
  have hnu : slenAt u 0 ≠ 0 := hlen ▸ hn
  have hrows := (rowsExtended_ext1d hm127 hn).congr hm127 (rowsExtended_ext1d hm127 hnu) Nat.one_pos hn hlen hsrc
  obtain ⟨hW, hH⟩ := ext1d_dims (ext1dCheck_of_legal (Int.natCast_nonneg m) hn)
  obtain ⟨hW', hH'⟩ := ext1d_dims (ext1dCheck_of_legal (Int.natCast_nonneg m) hnu)
  exact ⟨by rw [hW, hW', hrows.1], hH.trans hH'.symm, hrows⟩

theorem sameResult_ext2d {hm vm : Int} {s u : State} (hwf : (Instr.ext2d hm vm).WellFormed) (h : SameGrid s u)
    (hhm : 0 ≤ hm) (hvm : 0 ≤ vm) (hg : LegalGrid s) :
    SameResult (.ext2d hm vm) (runBody (ext2dBody hm vm) s) (runBody (ext2dBody hm vm) u) := by
  obtain ⟨⟨-, hm127⟩, -⟩ := hwf
  have hgu := h.legalGrid hg
  obtain ⟨hW, hH⟩ := ext2d_dims (ext2dCheck_of_legal hhm hvm hg)
  obtain ⟨hW', hH'⟩ := ext2d_dims (ext2dCheck_of_legal hhm hvm hgu)
  lift hm to Nat using hhm
  lift vm to Nat using hvm
  have hm127 : hm ≤ 127 := by omega
  have hu := rowsExtended_ext2d (vm := vm) hm127 hgu
  rw [← h.height] at hu hH'
  have hrows {j : Nat} (hj : j < s.height.toNat + 2 * vm) := by
    have hrow := copiedFrom_lt (m := vm) hg.1 j
    exact (rowsExtended_ext2d hm127 hg).congr hm127 hu hj (hg.2 _ hrow) (h.lengths _ hrow)
      fun x hx => h.samples _ x hrow hx
  refine ⟨?_, hH.trans hH'.symm, fun j hj => hrows ?_⟩
  · rw [hW, hW', (hrows (by have := hg.1; omega)).1]
  · rw [hH] at hj
    exact Nat.lt_of_lt_of_le hj (Nat.mod_le _ _)

/-! The results of the filter commands. -/

theorem boxAt_congr {f g : Nat → Nat → Nat} {w h : Nat} (hw : w ≠ 0) (hh : h ≠ 0)
    (heq : ∀ y x, y < h → x < w → f y x = g y x) (r y x : Nat) : boxAt f w h r y x = boxAt g w h r y x := by
  simp only [boxAt, boxSum, heq _ _ (clampIndex_lt _ hh) (clampIndex_lt _ hw)]

theorem sameResult_filter {i : Instr} {r : Int} {s u : State} (hi : isFilter i r) (h : SameGrid s u) (h0 : 0 ≤ r)
    (h7 : r ≤ 7) (himg : LegalImage s) : SameResult i (runBody (bodyOf i) s) (runBody (bodyOf i) u) := by
  lift r to Nat using h0
  have h7 : r ≤ 7 := by omega
  have himgu := h.legalImage himg
  have hw : slenAt s 0 = slenAt u 0 := h.lengths 0 (Nat.pos_of_ne_zero himg.1)
  have hs := imageFiltered_runBody hi h7 himg
  have hu := imageFiltered_runBody hi h7 himgu
  obtain ⟨hW, hH⟩ := dims_runBody_filter hi h7 himg
  obtain ⟨hW', hH'⟩ := dims_runBody_filter hi h7 himgu
  have hdst (y x : Nat) (hy : y < (runBody (bodyOf i) s).outH.toNat) (hx : x < (runBody (bodyOf i) s).outW.toNat) :
      dstAt (runBody (bodyOf i) s) y x = dstAt (runBody (bodyOf i) u) y x := by
    rw [hs.height] at hy
    rw [hs.width] at hx
    apply BitVec.eq_of_toNat_eq
    rw [hs.box y x hy hx, hu.box y x (h.height ▸ hy) (hw ▸ hx), ← hw, ← h.height,
      boxAt_congr himg.2.1 himg.1 fun y x hy hx => h.imageOf_eq himg hy hx]
  have houtW := hW.trans (hw ▸ hW'.symm)
  have houtH := hH.trans (h.height.trans hH'.symm)
  rcases hi with rfl | rfl | rfl <;> exact ⟨houtW, houtH, hdst⟩

/-- On success a command's result is a function of what it reads. -/
theorem sameResult_runBody {i : Instr} {s u : State} (hwf : i.WellFormed) (h : SameReadSet i s u)
    (hok : ∃ l, (bodyOf i).check s = .ok l) : SameResult i (runBody (bodyOf i) s) (runBody (bodyOf i) u) := by
  have hfilter (r : Int) (hi : isFilter i r) (hne : ∀ m, i ≠ .ext1d m) :
      SameResult i (runBody (bodyOf i) s) (runBody (bodyOf i) u) := by
    obtain ⟨l, hc⟩ := hok
    obtain ⟨h0, h7, hheight, hwidth, hrows, -⟩ :=
      validateFilter_ok ((check_filter_eq_validateFilter hi s).symm.trans hc)
    exact sameResult_filter hi (h.sameGrid hne) h0 h7 ⟨hheight, hwidth, hrows⟩
  cases i with
  | ext1d m =>
    obtain ⟨hm, hn⟩ := exists_ext1dCheck_ok_iff.1 hok
    exact sameResult_ext1d hwf h hm hn
  | ext2d hm vm =>
    obtain ⟨hhm, hvm, hg⟩ := exists_ext2dCheck_ok_iff.1 hok
    exact sameResult_ext2d hwf (h.sameGrid nofun) hhm hvm hg
  | fnaive r => exact hfilter r (.inl rfl) nofun
  | fsep r => exact hfilter r (.inr (.inl rfl)) nofun
  | fvec r => exact hfilter r (.inr (.inr rfl)) nofun

end Sys2Proof.Machine

namespace Sys2Proof.Proofs

open Sys2Proof Sys2Proof.Machine

/-- Settles O40: validation answers alike, and what passes it ends with the same result. -/
theorem commandsAreFunctionsOfTheirReadSet : Obligations.CommandsAreFunctionsOfTheirReadSet := by
  intro i s u hwf hs hu h
  exact ⟨_, _, exec_eq i s, exec_eq i u, runBody_status_congr hs hu h,
    fun hdone => sameResult_runBody hwf h ((runBody_status_eq_done_iff hs).1 hdone)⟩

end Sys2Proof.Proofs
end

section
/-! SUPPORT. Reset and the turns after it (R280, R281, R283), and the engine's turn for all that remains of a command
(R297). -/

namespace Sys2Proof.Machine

/-! The engine's turn: it is always made, it ends the command, and it leaves the agents alone. -/

/-- No command stops the machine. -/
theorem exists_engineCommand_next (s : State) : ∃ t, engineCommand s = .next t := by
  rcases engineCommand_cases s with ⟨-, he⟩ | ⟨i, -, ⟨-, he⟩ | ⟨-, he⟩ | ⟨-, he⟩⟩ <;> exact ⟨_, he⟩

/-- The frame of one stage of the engine (R70, R87). -/
theorem fixedPart_engineStage (s : State) : fixedPart (engineStage s) = fixedPart s := by
  rcases engineStage_cases s with ⟨-, he⟩ | ⟨-, -, he⟩ | ⟨-, i, -, he⟩ <;> rw [he]
  · rfl
  · exact fixedPart_stageBody i s

/-- The frame of all that remains of a command. -/
theorem fixedPart_engineCommand {s t : State} (hready : engineReady s = true) (h : engineCommand s = .next t) :
    fixedPart t = fixedPart s :=
  engine_keeps (P := fun u => fixedPart u = fixedPart s) (fun u hu => (fixedPart_engineStage u).trans hu) hready rfl
    (.inr h)

/-- The engine's turn for all that remains of a command ends it (R249, R250, R297). -/
theorem ended_engineCommand {s t : State} (h : Inv s) (hready : engineReady s = true)
    (ht : engineCommand s = .next t) : Ended t := by
  have hinv : Inv t := engine_keeps (P := Inv) (fun _ => Inv.engineStage) hready h (.inr ht)
  have hidle := engineCommand_seq hready ht
  rcases engine_status h hready (.inr ht) with hs | hend
  · have hbusy : t.busy = true := by rw [State.busy, hs]; decide
    exact absurd (congrArg Seq.phase hidle) (hinv.busy.1 hbusy)
  · exact hend

/-! A reset event. -/

/-- A reset can come at any moment (R281). -/
theorem hostReady_reset {s : State} {rest : List Event} (hs : s.script = .reset :: rest) : hostReady s = true := by
  simp [hostReady, hs]

theorem step_reset {s : State} {rest : List Event} (hm : nextMove s = .host) (hs : s.script = .reset :: rest) :
    step s = .next (resetBlock { popTurn s with script := rest }) := by
  rw [step_host hm, hostMove, popTurn_script, hs]

/-! A command issued. -/

/-- The step of an issued legal word is the whole command (R296). -/
theorem step_issued_legal {c : Word} {i : Instr} (hd : decode c = .ok i) (s : State) :
    step (issued c s) = .next (runBody (bodyOf i) (accept c s)) := by
  rw [step_issued, engineCommand_check (s := accept c s) hd rfl, exec_eq]

/-- An issued command whose validation fails ends with the error's `STATUS` (R250). -/
theorem step_issued_error {c : Word} {i : Instr} {s : State} {kind : ErrKind} (hd : decode c = .ok i)
    (hc : (bodyOf i).check (accept c s) = .error kind) :
    ∃ t, step (issued c s) = .next t ∧ t.status = statusError kind :=
  ⟨_, step_issued_legal hd s, runBody_status_error hc⟩

/-- An issued command that passes validation ends with `STATUS` 2 (R249). -/
theorem step_issued_done {c : Word} {i : Instr} {s : State} {l : Latch} (hd : decode c = .ok i)
    (hc : (bodyOf i).check (accept c s) = .ok l) : ∃ t, step (issued c s) = .next t ∧ t.status = 2 :=
  ⟨_, step_issued_legal hd s, runBody_status_done hc rfl⟩

/-- Right after reset a command finds no rows: `HEIGHT` is 0 (R61, R283). -/
theorem height_accept_resetOf (c : Word) (p : Config.Params) : (accept c (State.resetOf p)).height.toNat = 0 := rfl

end Sys2Proof.Machine

namespace Sys2Proof.Proofs

open Sys2Proof Sys2Proof.Machine

/-- Settles O10: a busy engine has the step, and its turn ends the command. -/
theorem everyAcceptedCommandEnds : Obligations.EveryAcceptedCommandEnds := by
  intro s hinv hb hsched
  have hready : engineReady s = true := engineReady_of_phase (hinv.busy.1 hb)
  obtain ⟨t, ht⟩ := exists_engineCommand_next (popTurn s)
  have hend := ended_engineCommand (s := popTurn s) hinv.popTurn hready ht
  have hframe := fixedPart_engineCommand (s := popTurn s) hready ht
  exact ⟨t, (step_command hready (.inl (by simp [hsched]))).trans ht, hend.busy, hend.done, hend.seq,
    (congrArg State.held hframe :), (congrArg State.script hframe :)⟩

/-- Settles O49: the outside world has the turn, whatever the engine is doing, and its move is the reset. -/
theorem resetEvent : Obligations.ResetEvent := by
  intro s rest hs hturn
  exact ⟨_, step_reset (nextMove_host hturn (hostReady_reset hs)) hs, rfl, rfl, rfl, rfl, rfl, rfl, rfl, rfl, rfl, rfl,
    fun _ => ⟨rfl, rfl, rfl, rfl, rfl, rfl, rfl, rfl, rfl⟩, Nat.succ_ne_self s.epoch⟩

/-- Settles O50: what validation makes of an image without rows; `EXT1D` reads no row count, and goes by `SLEN[0]`. -/
theorem commandsRightAfterReset : Obligations.CommandsRightAfterReset := by
  intro p i hd
  refine ⟨fun r hi hr => ?_, fun r hi h0 h7 => ?_, ?_, ?_⟩
  · exact step_issued_error hd ((check_filter_eq_validateFilter hi _).trans (validateFilter_invalidRadius hr))
  · have hempty := validateFilter_emptyImage h0 h7 (.inl (height_accept_resetOf (encode i) p))
    exact step_issued_error hd ((check_filter_eq_validateFilter hi _).trans hempty)
  · rintro hm vm rfl
    exact step_issued_error hd (ext2dCheck_of_illegal (.inl (height_accept_resetOf _ p)))
  · rintro m rfl hm
    have hlen : slenAt (accept (encode (.ext1d m)) (State.resetOf p)) 0 = slenAt (State.resetOf p) 0 :=
      slenAt_congr rfl rfl rfl 0
    split
    · next h => exact step_issued_error hd (ext1dCheck_of_illegal (.inr (hlen.trans h)))
    · next h => exact step_issued_done hd (ext1dCheck_of_legal hm (hlen ▸ h))

end Sys2Proof.Proofs
end
